-- ==== Sys2Proof/Word.lean ====
section
/-! DEFINITION. The word types of the core (00_scope.md R9 to R11) and nothing else: every operation on them stands in
Machine/Operands.lean. -/

namespace Sys2Proof

/-- A datapath word: WORD_BITS = 32, unsigned (00_scope.md R9). -/
abbrev Word := BitVec 32

/-- A message, block or digest byte. -/
abbrev Byte := BitVec 8

/-- A command word: CMD_BITS = 16 (00_scope.md R10, 30_encoding.md R80). -/
abbrev CmdWord := BitVec 16

/-- A Block: exactly 64 bytes (00_scope.md R9, R19). -/
abbrev Block := Vector Byte 64

/-- Eight 32-bit words: the hash state H[0..7], and the working registers (a..h) in that fixed order. -/
abbrev HashState := Vector Word 8

/-- The message schedule W[0..63], and the round constant ROM of the same shape. -/
abbrev Schedule := Vector Word 64

/-- A digest: 32 bytes, D[0] first. -/
abbrev Digest := Vector Byte 32

end Sys2Proof
end

