-- ==== Sys2Proof/Config.lean ====
section
/-! DEFINITION. What is fixed for one implementation of the core: its one open parameter that changes behaviour, the two
constant ROMs, and the one free value. -/

namespace Sys2Proof

/-- The implementation's parameters. MAX_MSG_BYTES is the largest byte count a job may absorb (00_scope.md R10,
92_eei_decisions.md D17); a state carries it, so that a claim can hold for every value of it (log 3). -/
structure Config where
  /-- MAX_MSG_BYTES, in the width of L (L_BITS = 61), so at most 2^61 − 1. -/
  maxMsgBytes : BitVec 61
  deriving DecidableEq, Repr

/-- The allowed range 1 ≤ MAX_MSG_BYTES ≤ 2^61 − 1 (00_scope.md R10). -/
def Config.wf (c : Config) : Bool := decide (1 ≤ c.maxMsgBytes.toNat)

/-- The default MAX_MSG_BYTES = 2^61 − 1 (00_scope.md R10). -/
def Config.default : Config := { maxMsgBytes := BitVec.ofNat 61 (2 ^ 61 - 1) }

/-- The rows of the round constant table of 10_state.md R31, eight words in each, the word of column +0 in the high
bits. -/
def Config.kRows : Vector (BitVec 256) 8 :=
  #v[0x428a2f98_71374491_b5c0fbcf_e9b5dba5_3956c25b_59f111f1_923f82a4_ab1c5ed5,
    0xd807aa98_12835b01_243185be_550c7dc3_72be5d74_80deb1fe_9bdc06a7_c19bf174,
    0xe49b69c1_efbe4786_0fc19dc6_240ca1cc_2de92c6f_4a7484aa_5cb0a9dc_76f988da,
    0x983e5152_a831c66d_b00327c8_bf597fc7_c6e00bf3_d5a79147_06ca6351_14292967,
    0x27b70a85_2e1b2138_4d2c6dfc_53380d13_650a7354_766a0abb_81c2c92e_92722c85,
    0xa2bfe8a1_a81a664b_c24b8b70_c76c51a3_d192e819_d6990624_f40e3585_106aa070,
    0x19a4c116_1e376c08_2748774c_34b0bcb5_391c0cb3_4ed8aa4a_5b9cca4f_682e6ff3,
    0x748f82ee_78a5636f_84c87814_8cc70208_90befffa_a4506ceb_bef9a3f7_c67178f2]

/-- The round constant ROM K[0..63]: "K[t] is the word in row r and column c, with t = r + c" (10_state.md R31). -/
def Config.K : Schedule :=
  Vector.ofFn fun t => Config.kRows[t.val / 8].extractLsb' (32 * (7 - t.val % 8)) 32

/-- The initial hash ROM IV[0..7] (10_state.md R32). -/
def Config.IV : HashState :=
  #v[0x6a09e667, 0xbb67ae85, 0x3c6ef372, 0xa54ff53a, 0x510e527f, 0x9b05688c, 0x1f83d9ab, 0x5be0cd19]

/-- Free value: the blocks that split gives for a byte sequence whose length is no multiple of 64, for which
41_block_splitter.md R120 states no result (log 8). -/
opaque Config.splitOutsideDomain : List Byte → List Block

end Sys2Proof
end

