-- ==== Sys2Proof/Syntax.lean ====
section
/-! DEFINITION. The instructions: one constructor per row of spec/opcode_table.json, in the table's order. Four commands,
the six ILLEGAL rows, six micro-operations and fifteen functions. -/

namespace Sys2Proof

/-- One row of the opcode table each, with the operands that its format gives it. -/
inductive Instr
  /-- NOP (45_host_commands.md R202). DATA is ignored (30_encoding.md R82); it is kept so that no bit of the word is
  dropped (log 12). -/
  | nop (data : Byte)
  /-- INIT (R203), DATA ignored. -/
  | init (data : Byte)
  /-- WRITE b (R204): DATA is the message byte. -/
  | write (b : Byte)
  /-- FINISH (R205), DATA ignored. -/
  | finish (data : Byte)
  /-- ILLEGAL, the row 0x4000/0xC000: OP = 01oo, any RSV and DATA (R206, 30_encoding.md R83). -/
  | illegalOp4to7 (op : BitVec 2) (rsv : BitVec 4) (data : Byte)
  /-- ILLEGAL, the row 0x8000/0x8000: OP = 1ooo, any RSV and DATA. -/
  | illegalOp8to15 (op : BitVec 3) (rsv : BitVec 4) (data : Byte)
  /-- ILLEGAL, the row 0x0100/0x0100, less what an earlier row matches (log 11): OP = 00oo, RSV = rrr1. -/
  | illegalRsv8 (op : BitVec 2) (rsv : BitVec 3) (data : Byte)
  /-- ILLEGAL, the row 0x0200/0x0200, less what an earlier row matches: OP = 00oo, RSV = rr10. -/
  | illegalRsv9 (op : BitVec 2) (rsv : BitVec 2) (data : Byte)
  /-- ILLEGAL, the row 0x0400/0x0400, less what an earlier row matches: OP = 00oo, RSV = r100. -/
  | illegalRsv10 (op : BitVec 2) (rsv : BitVec 1) (data : Byte)
  /-- ILLEGAL, the row 0x0800/0x0800, less what an earlier row matches: OP = 00oo, RSV = 1000. -/
  | illegalRsv11 (op : BitVec 2) (data : Byte)
  /-- PAD.MSG: the padder's first stage (40_padder.md R106). -/
  | padMsg
  /-- PAD.PENDING: the padder's second stage (40_padder.md R107). -/
  | padPending
  /-- EXPAND (42_schedule_expander.md R137). -/
  | expand
  /-- ROUND (43_compressor.md R158); its t is the register t. -/
  | round
  /-- ACCUM (44_accumulator_digest.md R181). -/
  | accum
  /-- ASSEMBLE (44_accumulator_digest.md R184). -/
  | assemble
  /-- rotr(x, n) (00_scope.md R13), for n < 32. -/
  | fnRotr (x : Word) (n : Fin 32)
  /-- shr(x, n) (00_scope.md R14), for n < 32. -/
  | fnShr (x : Word) (n : Fin 32)
  /-- add32(x1, ..., xk) (00_scope.md R15), of at least one operand. -/
  | fnAdd32 (x : Word) (xs : List Word)
  /-- ssig0(x), the source's σ0 (42_schedule_expander.md R130). -/
  | fnSsig0 (x : Word)
  /-- ssig1(x), the source's σ1 (R131). -/
  | fnSsig1 (x : Word)
  /-- bsig0(x), the source's Σ0 (43_compressor.md R151). -/
  | fnBsig0 (x : Word)
  /-- bsig1(x), the source's Σ1 (R152). -/
  | fnBsig1 (x : Word)
  /-- Ch(e, f, g) (R153). -/
  | fnCh (e f g : Word)
  /-- Maj(a, b, c) (R154). -/
  | fnMaj (a b c : Word)
  /-- pad(M) (40_padder.md R100). -/
  | fnPad (m : List Byte)
  /-- split(P) (41_block_splitter.md R120). -/
  | fnSplit (p : List Byte)
  /-- expand(B) (42_schedule_expander.md R138). -/
  | fnExpand (B : Block)
  /-- compress(S, W) (43_compressor.md R159). -/
  | fnCompress (S : HashState) (W : Schedule)
  /-- accumulate(S, Rw) (44_accumulator_digest.md R180). -/
  | fnAccumulate (S : HashState) (Rw : HashState)
  /-- assemble(S) (R183). -/
  | fnAssemble (S : HashState)
  deriving DecidableEq, Repr

end Sys2Proof
end

