-- ==== Sys2Proof/WellFormed.lean ====
section
/-! DEFINITION. Which instruction terms are in the spec's domain. Every command and every micro-operation is; two of the
functions have operands that the types of Syntax.lean do not bound. -/

namespace Sys2Proof

/-- The domain of pad: L < 2^61 (40_padder.md R104). -/
def padDomain (m : List Byte) : Bool := decide (m.length < 2 ^ 61)

/-- The domain of split: a length that is a multiple of 64 (41_block_splitter.md R120). -/
def splitDomain (p : List Byte) : Bool := decide (p.length % 64 = 0)

/-- The well-formed instructions. -/
def Instr.wf : Instr → Bool
  | .nop _ => true
  | .init _ => true
  | .write _ => true
  | .finish _ => true
  | .illegalOp4to7 _ _ _ => true
  | .illegalOp8to15 _ _ _ => true
  | .illegalRsv8 _ _ _ => true
  | .illegalRsv9 _ _ _ => true
  | .illegalRsv10 _ _ _ => true
  | .illegalRsv11 _ _ => true
  | .padMsg => true
  | .padPending => true
  | .expand => true
  | .round => true
  | .accum => true
  | .assemble => true
  | .fnRotr _ _ => true
  | .fnShr _ _ => true
  | .fnAdd32 _ _ => true
  | .fnSsig0 _ => true
  | .fnSsig1 _ => true
  | .fnBsig0 _ => true
  | .fnBsig1 _ => true
  | .fnCh _ _ _ => true
  | .fnMaj _ _ _ => true
  | .fnPad m => padDomain m
  | .fnSplit p => splitDomain p
  | .fnExpand _ => true
  | .fnCompress _ _ => true
  | .fnAccumulate _ _ => true
  | .fnAssemble _ => true

end Sys2Proof
end

