-- ==== Sys2Proof/Decode.lean ====
section
/-! DEFINITION. The command decoder (30_encoding.md R80 to R83), the selection of a micro-operation (R84), their encoders,
and the opcode table's numbering of both. -/

namespace Sys2Proof

/-! ## Commands -/

/-- OP = cmd[15:12] (30_encoding.md R80). -/
def opField (w : CmdWord) : BitVec 4 := w.extractLsb' 12 4

/-- RSV = cmd[11:8] (R80). -/
def rsvField (w : CmdWord) : BitVec 4 := w.extractLsb' 8 4

/-- DATA = cmd[7:0] (R80, R82). -/
def dataField (w : CmdWord) : Byte := w.extractLsb' 0 8

/-- legal(w) = (w[15:12] <= 3) and (w[11:8] == 0) (R83). -/
def legal (w : CmdWord) : Bool := decide ((opField w).toNat ≤ 3) && decide (rsvField w = 0)

/-- The command of a legal word, by OP (R81). -/
def decodeLegal (w : CmdWord) : Instr :=
  if opField w = 0 then .nop (dataField w)
  else if opField w = 1 then .init (dataField w)
  else if opField w = 2 then .write (dataField w)
  else .finish (dataField w)

/-- The ILLEGAL row of a word that no legal row matches: the first one in the table's order (log 11). -/
def decodeIllegal (w : CmdWord) : Instr :=
  if w.getLsbD 15 = false ∧ w.getLsbD 14 = true then
    .illegalOp4to7 (w.extractLsb' 12 2) (rsvField w) (dataField w)
  else if w.getLsbD 15 = true then
    .illegalOp8to15 (w.extractLsb' 12 3) (rsvField w) (dataField w)
  else if w.getLsbD 8 = true then
    .illegalRsv8 (w.extractLsb' 12 2) (w.extractLsb' 9 3) (dataField w)
  else if w.getLsbD 9 = true then
    .illegalRsv9 (w.extractLsb' 12 2) (w.extractLsb' 10 2) (dataField w)
  else if w.getLsbD 10 = true then
    .illegalRsv10 (w.extractLsb' 12 2) (w.extractLsb' 11 1) (dataField w)
  else
    .illegalRsv11 (w.extractLsb' 12 2) (dataField w)

/-- decode(w), total on all 65536 words (R83). -/
def decodeCommand (w : CmdWord) : Instr :=
  if legal w then decodeLegal w else decodeIllegal w

/-- Whether an instruction is one of the six ILLEGAL rows. -/
def Instr.isIllegal : Instr → Bool
  | .illegalOp4to7 _ _ _ => true
  | .illegalOp8to15 _ _ _ => true
  | .illegalRsv8 _ _ _ => true
  | .illegalRsv9 _ _ _ => true
  | .illegalRsv10 _ _ _ => true
  | .illegalRsv11 _ _ => true
  | .nop _ => false
  | .init _ => false
  | .write _ => false
  | .finish _ => false
  | .padMsg => false
  | .padPending => false
  | .expand => false
  | .round => false
  | .accum => false
  | .assemble => false
  | .fnRotr _ _ => false
  | .fnShr _ _ => false
  | .fnAdd32 _ _ => false
  | .fnSsig0 _ => false
  | .fnSsig1 _ => false
  | .fnBsig0 _ => false
  | .fnBsig1 _ => false
  | .fnCh _ _ _ => false
  | .fnMaj _ _ _ => false
  | .fnPad _ => false
  | .fnSplit _ => false
  | .fnExpand _ => false
  | .fnCompress _ _ => false
  | .fnAccumulate _ _ => false
  | .fnAssemble _ => false

/-! ## Micro-operations -/

/-- Why a phase and a padding stage select no micro-operation. -/
inductive DecodeError
  /-- IDLE, ABSORB, DONE or ERROR: the Core agent has no step (45_host_commands.md R208). -/
  | quiescentPhase (code : BitVec 4)
  /-- Phase codes 9 to 15, which are never reached (10_state.md R47). -/
  | unusedPhase (code : BitVec 4)
  /-- PAD with pstage = LAST, which is never reached (40_padder.md R108). -/
  | padAfterLast
  /-- PAD with pstage = 3, which is never reached (10_state.md R47, 40_padder.md R108). -/
  | unusedStage
  /-- A function row has no encoding, and a code of neither format is no instruction (30_encoding.md R80, R84). -/
  | noEncoding
  deriving DecidableEq, Repr

/-- The micro-operation that the phase code selects, with pstage choosing between the padder's stages (30_encoding.md
R84, 10_state.md R27, R38). -/
def decodeMicroOp (phase : BitVec 4) (pstage : BitVec 2) : Except DecodeError Instr :=
  if phase = 2 then
    if pstage = 0 then .ok .padMsg
    else if pstage = 1 then .ok .padPending
    else if pstage = 2 then .error .padAfterLast
    else .error .unusedStage
  else if phase = 3 then .ok .expand
  else if phase = 4 then .ok .round
  else if phase = 5 then .ok .accum
  else if phase = 6 then .ok .assemble
  else if phase.toNat ≤ 8 then .error (.quiescentPhase phase)
  else .error (.unusedPhase phase)

/-! ## Codes of both formats, and the encoder -/

/-- What the core reads an instruction from: a command word, or the sequencer registers that select a micro-operation. -/
inductive Code
  | command (w : CmdWord)
  | select (phase : BitVec 4) (pstage : BitVec 2)
  deriving DecidableEq, Repr

/-- The decoder over both formats. -/
def decode : Code → Except DecodeError Instr
  | .command w => .ok (decodeCommand w)
  | .select phase pstage => decodeMicroOp phase pstage

/-- The command word {OP, RSV, DATA} (30_encoding.md R80). -/
def commandWord (op rsv : BitVec 4) (data : Byte) : CmdWord := op ++ rsv ++ data

/-- The code of an instruction; a function row has none ("no encoding"). A micro-operation that pstage does not help to
select is encoded with pstage = MSG. -/
def encode : Instr → Option Code
  | .nop data => some (.command (commandWord 0 0 data))
  | .init data => some (.command (commandWord 1 0 data))
  | .write b => some (.command (commandWord 2 0 b))
  | .finish data => some (.command (commandWord 3 0 data))
  | .illegalOp4to7 op rsv data => some (.command (commandWord (0b01#2 ++ op) rsv data))
  | .illegalOp8to15 op rsv data => some (.command (commandWord (0b1#1 ++ op) rsv data))
  | .illegalRsv8 op rsv data => some (.command (commandWord (0b00#2 ++ op) (rsv ++ 0b1#1) data))
  | .illegalRsv9 op rsv data => some (.command (commandWord (0b00#2 ++ op) (rsv ++ 0b10#2) data))
  | .illegalRsv10 op rsv data => some (.command (commandWord (0b00#2 ++ op) (rsv ++ 0b100#3) data))
  | .illegalRsv11 op data => some (.command (commandWord (0b00#2 ++ op) 0b1000 data))
  | .padMsg => some (.select 2 0)
  | .padPending => some (.select 2 1)
  | .expand => some (.select 3 0)
  | .round => some (.select 4 0)
  | .accum => some (.select 5 0)
  | .assemble => some (.select 6 0)
  | .fnRotr _ _ => none
  | .fnShr _ _ => none
  | .fnAdd32 _ _ => none
  | .fnSsig0 _ => none
  | .fnSsig1 _ => none
  | .fnBsig0 _ => none
  | .fnBsig1 _ => none
  | .fnCh _ _ _ => none
  | .fnMaj _ _ _ => none
  | .fnPad _ => none
  | .fnSplit _ => none
  | .fnExpand _ => none
  | .fnCompress _ _ => none
  | .fnAccumulate _ _ => none
  | .fnAssemble _ => none

/-! ## The opcode table's numbering -/

/-- The code that `nbits` bits of value `w` stand for. Sixteen bits are a command word. Up to eight bits are a selection,
with phase in bits 3 to 0 (the table's match and mask) and pstage in bits 5 to 4 (the model's place for it: the table
gives pstage no bits of its own, log 13). -/
def codeOfTableWord (nbits w : Nat) : Option Code :=
  if nbits = 16 ∧ w < 2 ^ 16 then some (.command (BitVec.ofNat 16 w))
  else if nbits ≤ 8 ∧ w < 2 ^ 6 then some (.select (BitVec.ofNat 4 w) (BitVec.ofNat 2 (w / 16)))
  else none

/-- The instruction that the decoder reads from an opcode-table word. -/
def decodeTableWord (nbits w : Nat) : Option Instr :=
  match codeOfTableWord nbits w with
  | none => none
  | some c =>
    match decode c with
    | .ok i => some i
    | .error _ => none

end Sys2Proof
end

