-- ==== Sys2Proof/Machine/State.lean ====
section
/-! DEFINITION. The state of the core as plain data (10_state.md R20 to R30, R38), its input ports as the data that the
step reads (R36), the reasons a step can stop, and the state after reset (R45). -/

namespace Sys2Proof.Machine

/-- The sequencer phase (10_state.md R38). The codes 9 to 15 are never reached and have no constructor (R47, log 5); the
4-bit codes are `Phase.code` of Machine/Flags.lean. -/
inductive Phase
  | idle | absorb | pad | expand | round | accum | assemble | done | error
  deriving DecidableEq, Repr

/-- The padding stage (10_state.md R27): MSG, PAD_PENDING, LAST. The code 3 has no constructor (R47, log 5). -/
inductive PStage
  | msg | pending | last
  deriving DecidableEq, Repr

/-- The error cause (10_state.md R30, 60_exceptions.md R231). -/
inductive Cause
  | none | len | seq | cmd
  deriving DecidableEq, Repr

/-- The value of a FUNC row of the opcode table, by the row's result type (log 7). -/
inductive FuncValue
  | nothing
  | word (x : Word)
  | bytes (bs : List Byte)
  | blocks (bs : List Block)
  | schedule (W : Schedule)
  | hashState (S : HashState)
  | digest (d : Digest)
  deriving DecidableEq, Repr

/-- Why the machine stops with a fault. -/
inductive Fault
  /-- Raised by the function pad on a message of 2^61 bytes or more, whose bit length does not fit the length field
  (40_padder.md R104: "error, not handled"). Safe: no command or micro-operation raises it (log 8). -/
  | lengthOverflow
  deriving DecidableEq, Repr

/-- Why there is no meaning to give. -/
inductive Refusal
  /-- An instruction whose arm of exec has no meaning yet; raised by exec alone. Safe. -/
  | notModelled (mnemonic : String)
  /-- Raised by the Core agent's step when it is busy and no micro-operation is selected: PAD with pstage = LAST
  (40_padder.md R108: never reached, a model may refuse). Safe (log 6). -/
  | noMicroOp (e : DecodeError)
  /-- Raised by a micro-operation evaluated in a state whose phase (and, for PAD, pstage) does not select it
  (30_encoding.md R84: "No input can select one directly"). Safe: a step evaluates only the selected one (log 10). -/
  | notSelected (mnemonic : String)
  deriving DecidableEq, Repr

/-- The state: the registers of 10_state.md R20 (the ROMs K and IV are the constants of Config.lean, log 4), the input
ports, and the model's own fields cfg and funcOut. -/
structure State where
  /-- H[0..7], the hash state (R21). -/
  H : HashState
  /-- Rw[0..7] = (a, b, c, d, e, f, g, h), the working registers (R22). -/
  Rw : HashState
  /-- W[0..63], the message schedule (R23). -/
  W : Schedule
  /-- BLK[0..63], the block buffer (R24). -/
  BLK : Block
  /-- blen, the block fill pointer (R25). -/
  blen : BitVec 6
  /-- L, the message byte count (R26). -/
  L : BitVec 61
  /-- pstage, the padding stage (R27). -/
  pstage : PStage
  /-- t, the round counter (R28). -/
  t : BitVec 6
  /-- D[0..31], the digest register (R29). -/
  D : Digest
  /-- cause, the error cause (R30). -/
  cause : Cause
  /-- phase, the sequencer phase (R38). -/
  phase : Phase
  /-- The command port over the coming steps, head first: `none` is a step with cmd_valid = 0, `some w` is the word w
  presented until it is taken; an empty list presents nothing (R36, log 1). -/
  cmdIn : List (Option CmdWord)
  /-- The samples of rst at the coming steps, head first, 0 after the last (R36, log 1). -/
  rstIn : List Bool
  /-- The implementation's parameters, which nothing writes (log 3). -/
  cfg : Config
  /-- The value of the FUNC row evaluated last; the model's own, read by no agent (log 7). -/
  funcOut : FuncValue
  deriving DecidableEq, Repr

/-- The reset value of every register (10_state.md R45), nothing presented at the ports, MAX_MSG_BYTES at its default. -/
def State.reset : State where
  H := Vector.replicate 8 0
  Rw := Vector.replicate 8 0
  W := Vector.replicate 64 0
  BLK := Vector.replicate 64 0
  blen := 0
  L := 0
  pstage := .msg
  t := 0
  D := Vector.replicate 32 0
  cause := .none
  phase := .idle
  cmdIn := []
  rstIn := []
  cfg := Config.default
  funcOut := .nothing

end Sys2Proof.Machine
end

