-- ==== Sys2Proof/Machine/Flags.lean ====
section
/-! DEFINITION. The register codes of 10_state.md R27, R30 and R38, the flags BUSY, DVALID, ERR and CAUSE (R42), and the
core's ports (R36, R37, R39, 44_accumulator_digest.md R185). Every output is a function of the state. -/

namespace Sys2Proof.Machine

/-- The 4-bit code of a phase (10_state.md R38). -/
def Phase.code : Phase → BitVec 4
  | .idle => 0
  | .absorb => 1
  | .pad => 2
  | .expand => 3
  | .round => 4
  | .accum => 5
  | .assemble => 6
  | .done => 7
  | .error => 8

/-- The phase with a given code; the codes 9 to 15 have none (10_state.md R38). -/
def phaseOfCode (c : BitVec 4) : Option Phase :=
  [Phase.idle, .absorb, .pad, .expand, .round, .accum, .assemble, .done, .error][c.toNat]?

/-- The 2-bit code of a padding stage (10_state.md R27). -/
def PStage.code : PStage → BitVec 2
  | .msg => 0
  | .pending => 1
  | .last => 2

/-- The padding stage with a given code; the code 3 has none (10_state.md R27). -/
def pstageOfCode (c : BitVec 2) : Option PStage :=
  [PStage.msg, .pending, .last][c.toNat]?

/-- The 2-bit code of a cause (60_exceptions.md R231). -/
def Cause.code : Cause → BitVec 2
  | .none => 0
  | .len => 1
  | .seq => 2
  | .cmd => 3

/-- The busy phases: PAD, EXPAND, ROUND, ACCUM, ASSEMBLE (10_state.md R38). -/
def Phase.isBusy : Phase → Bool
  | .idle => false
  | .absorb => false
  | .pad => true
  | .expand => true
  | .round => true
  | .accum => true
  | .assemble => true
  | .done => false
  | .error => false

/-- BUSY, status bit 4 (10_state.md R39). -/
def busy (s : State) : Bool := s.phase.isBusy

/-- DVALID, status bit 5 (10_state.md R39). -/
def dvalid (s : State) : Bool := decide (s.phase = .done)

/-- ERR, status bit 6 (10_state.md R39). -/
def err (s : State) : Bool := decide (s.phase = .error)

/-- The output cmd_ready: 1 exactly when the core is quiescent (10_state.md R37). -/
def cmdReady (s : State) : Bool := !busy s

/-- The output status[15:0] = {6'b0, cause, 1'b0, ERR, DVALID, BUSY, phase} (10_state.md R39). -/
def status (s : State) : BitVec 16 :=
  0#6 ++ s.cause.code ++ 0#1 ++ BitVec.ofBool (err s) ++ BitVec.ofBool (dvalid s) ++ BitVec.ofBool (busy s) ++ s.phase.code

/-- The value {D[0], D[1], ..., D[31]} of the first n bytes of D, D[0] in the high bits. -/
def digestValue (D : Digest) : Nat → Nat
  | 0 => 0
  | n + 1 => digestValue D n * 256 + (D[n]?.getD 0).toNat

/-- The output digest[255:0] = {D[0], D[1], ..., D[31]}: D[0] in bits [255:248] (44_accumulator_digest.md R185). -/
def digestPort (s : State) : BitVec 256 := BitVec.ofNat 256 (digestValue s.D 32)

/-- The input cmd_valid (10_state.md R36): whether a word is presented now. -/
def cmdValid (s : State) : Bool :=
  match s.cmdIn with
  | some _ :: _ => true
  | none :: _ => false
  | [] => false

/-- The input cmd[15:0] (10_state.md R36): the word presented now, if one is. -/
def cmd (s : State) : Option CmdWord :=
  match s.cmdIn with
  | some w :: _ => some w
  | none :: _ => none
  | [] => none

/-- The input rst (10_state.md R36): the sample of the coming step. -/
def rst (s : State) : Bool := s.rstIn.head?.getD false

/-- A word is transferred when cmd_valid and cmd_ready are both 1 (10_state.md R36, 45_host_commands.md R200). -/
def transfers (s : State) : Bool := cmdValid s && cmdReady s

end Sys2Proof.Machine
end

