-- ==== Sys2Proof/Machine/Ops.lean ====
section
/-! DEFINITION. The named operations over the registers that the meanings share: the ROM reads and the register names,
error entry and the way out of it (60_exceptions.md R235, R238), the reset event, the handshake's acceptance, and the
placing of one instruction where the next step reads it. -/

namespace Sys2Proof.Machine

/-- An outcome of this machine. -/
abbrev Result := Host.Outcome State Fault Refusal

/-! ## ROMs and register names -/

/-- K[t] (10_state.md R31). -/
def kWord (t : BitVec 6) : Word := Config.K[t.toNat]'t.isLt

/-- IV (10_state.md R32). -/
def ivWords : HashState := Config.IV

/-- W[t] (10_state.md R23). -/
def wWord (W : Schedule) (t : BitVec 6) : Word := W[t.toNat]'t.isLt

/-- a = Rw[0] (10_state.md R22). -/
def State.a (s : State) : Word := s.Rw[0]
/-- b = Rw[1]. -/
def State.b (s : State) : Word := s.Rw[1]
/-- c = Rw[2]. -/
def State.c (s : State) : Word := s.Rw[2]
/-- d = Rw[3]. -/
def State.d (s : State) : Word := s.Rw[3]
/-- e = Rw[4]. -/
def State.e (s : State) : Word := s.Rw[4]
/-- f = Rw[5]. -/
def State.f (s : State) : Word := s.Rw[5]
/-- g = Rw[6]. -/
def State.g (s : State) : Word := s.Rw[6]
/-- h = Rw[7]. -/
def State.h (s : State) : Word := s.Rw[7]

/-- 32 bytes of 0x00, what D holds outside DONE (10_state.md R29). -/
def zeroDigest : Digest := Vector.replicate 32 0

/-! ## Error entry, the start of a job, reset -/

/-- raise Error(c): the core's one way of taking an exception. Nothing is saved and nothing is entered but the phase
ERROR (60_exceptions.md R230, R235). -/
def raiseError (c : Cause) (s : State) : State := { s with phase := .error, cause := c, D := zeroDigest }

/-- The effect of INIT: the start of a job, and the only command that leaves ERROR (45_host_commands.md R203,
60_exceptions.md R238). BLK, W, a..h and t are not changed. -/
def startJob (s : State) : State :=
  { s with H := ivWords, L := 0, blen := 0, pstage := .msg, cause := .none, D := zeroDigest, phase := .absorb }

/-- The reset event: every register to its reset value (70_reset_and_hazards.md R260). The ports and the model's own
fields are no registers and keep their values (log 16). -/
def resetRegisters (s : State) : State :=
  { State.reset with cmdIn := s.cmdIn, rstIn := s.rstIn, cfg := s.cfg, funcOut := s.funcOut }

/-! ## The block buffer -/

/-- BLK[blen] <- b, L <- L + 1 and the move of blen (45_host_commands.md R204): the byte that fills the block starts its
compression. -/
def absorbByte (b : Byte) (s : State) : State :=
  let s := { s with BLK := s.BLK.set s.blen.toNat b s.blen.isLt, L := s.L + 1 }
  if s.blen = 63 then { s with blen := 0, phase := .expand } else { s with blen := s.blen + 1 }

/-! ## Acceptance -/

/-- A command is performed only when the core is quiescent; otherwise the word is not taken and nothing changes
(45_host_commands.md R200, log 9). -/
def acceptCommand (f : State → State) (s : State) : Result :=
  .next (if cmdReady s then f s else s)

/-- In ERROR every accepted word but a legal INIT is consumed with no effect (45_host_commands.md R201, R207). -/
def unlessError (f : State → State) (s : State) : State :=
  if s.phase = .error then s else f s

/-- WRITE and FINISH take effect in ABSORB and raise SEQ in any other phase that accepts them, once ERROR is filtered
(60_exceptions.md R233, R236). -/
def inJob (f : State → State) (s : State) : State :=
  if s.phase = .absorb then f s else raiseError .seq s

/-- A micro-operation takes effect where the sequencer selects it, and is no step anywhere else (30_encoding.md R84,
log 10). -/
def whenSelected (mnemonic : String) (selected : Bool) (s' : State) : Result :=
  if selected then .next s' else .refused (.notSelected mnemonic)

/-- The evaluation of a FUNC row: its value becomes funcOut, and no register of the core changes (log 7). -/
def yieldValue (v : FuncValue) (s : State) : Result := .next { s with funcOut := v }

/-! ## The ports -/

/-- A pause of one step is over after that step; a presented word stays presented (45_host_commands.md R200). -/
def dropPause : List (Option CmdWord) → List (Option CmdWord)
  | [] => []
  | none :: rest => rest
  | some w :: rest => some w :: rest

/-- The state with the pause of this step, if there is one, passed. -/
def passPause (s : State) : State := { s with cmdIn := dropPause s.cmdIn }

/-- The reset samples without the asserted ones at their head. -/
def dropAsserted : List Bool → List Bool
  | [] => []
  | true :: rest => dropAsserted rest
  | false :: rest => false :: rest

/-- `s` made so that its next step runs the instruction of the code `c`: a command is presented first, to a quiescent
core; a selection sets the phase and, for PAD, pstage. No reset is asserted at that step (log 15). -/
def placeCode (c : Code) (s : State) : State :=
  let s := { s with rstIn := dropAsserted s.rstIn }
  match c with
  | .command w => { s with cmdIn := some w :: s.cmdIn, phase := if busy s then .idle else s.phase }
  | .select p st =>
    { s with
      phase := (phaseOfCode p).getD s.phase
      pstage := if p = 2 then (pstageOfCode st).getD s.pstage else s.pstage }

end Sys2Proof.Machine
end

