-- ==== Sys2Proof/Machine/Commands.lean ====
section
/-! DEFINITION. The Host's commands (45_host_commands.md R202 to R207): the four legal ones and the six ILLEGAL rows.
Dispatch (R201) filters ERROR first, then the encoding, then the sequence, then the length (60_exceptions.md R236). -/

namespace Sys2Proof.Machine

/-- NOP: no state changes, in any phase that accepts it (45_host_commands.md R202). -/
def execNop (_data : Byte) (s : State) : Result := acceptCommand id s

/-- INIT, accepted in IDLE, ABSORB, DONE and ERROR (45_host_commands.md R203). -/
def execInit (_data : Byte) (s : State) : Result := acceptCommand startJob s

/-- WRITE in ABSORB: LEN at the limit, which leaves the byte out; else the byte is absorbed (45_host_commands.md R204,
60_exceptions.md R232). -/
def writeInJob (b : Byte) (s : State) : State :=
  if s.L = s.cfg.maxMsgBytes then raiseError .len s else absorbByte b s

/-- WRITE b (45_host_commands.md R204). -/
def execWrite (b : Byte) (s : State) : Result :=
  acceptCommand (unlessError (inJob (writeInJob b))) s

/-- FINISH in ABSORB: padding runs next (45_host_commands.md R205). -/
def finishJob (s : State) : State := { s with phase := .pad }

/-- FINISH (45_host_commands.md R205). -/
def execFinish (_data : Byte) (s : State) : Result :=
  acceptCommand (unlessError (inJob finishJob)) s

/-- Any illegal word: CMD, and no other effect; in ERROR no effect at all (45_host_commands.md R206, R207). -/
def illegalWord (s : State) : Result := acceptCommand (unlessError (raiseError .cmd)) s

/-- ILLEGAL, OP 4 to 7 (45_host_commands.md R206). -/
def execIllegalOp4to7 (_op : BitVec 2) (_rsv : BitVec 4) (_data : Byte) (s : State) : Result := illegalWord s

/-- ILLEGAL, OP 8 to 15 (45_host_commands.md R206). -/
def execIllegalOp8to15 (_op : BitVec 3) (_rsv : BitVec 4) (_data : Byte) (s : State) : Result := illegalWord s

/-- ILLEGAL, RSV bit 8 set (45_host_commands.md R206). -/
def execIllegalRsv8 (_op : BitVec 2) (_rsv : BitVec 3) (_data : Byte) (s : State) : Result := illegalWord s

/-- ILLEGAL, RSV bit 9 set (45_host_commands.md R206). -/
def execIllegalRsv9 (_op : BitVec 2) (_rsv : BitVec 2) (_data : Byte) (s : State) : Result := illegalWord s

/-- ILLEGAL, RSV bit 10 set (45_host_commands.md R206). -/
def execIllegalRsv10 (_op : BitVec 2) (_rsv : BitVec 1) (_data : Byte) (s : State) : Result := illegalWord s

/-- ILLEGAL, RSV bit 11 set (45_host_commands.md R206). -/
def execIllegalRsv11 (_op : BitVec 2) (_data : Byte) (s : State) : Result := illegalWord s

end Sys2Proof.Machine
end

