-- ==== Sys2Proof/Machine/Operands.lean ====
section
/-! DEFINITION. The word and byte operators of 00_scope.md R12 to R16, over which every function and micro-operation is
written. R12's operators are Lean's own on `Word`: `^^^`, `&&&`, `|||` and `~~~`. -/

namespace Sys2Proof.Machine

/-- rotr(x, n) = ((x >> n) | (x << (32 − n)))[31:0] (00_scope.md R13); rotr(x, 0) = x. -/
def rotr (x : Word) (n : Nat) : Word := (x >>> n) ||| (x <<< (32 - n))

/-- shr(x, n) = x >> n, filled with zeros from bit 31 down (00_scope.md R14). -/
def shr (x : Word) (n : Nat) : Word := x >>> n

/-- add32(x1, ..., xk): the integer sum reduced modulo 2^32 (00_scope.md R15). -/
def add32 (xs : List Word) : Word := BitVec.ofNat 32 (xs.map BitVec.toNat).sum

/-- BE32(b0, b1, b2, b3) = {b0, b1, b2, b3} (00_scope.md R16). -/
def be32 (b0 b1 b2 b3 : Byte) : Word := b0 ++ b1 ++ b2 ++ b3

/-- Byte k of BE64(v), most significant byte first: v[63 − 8k : 56 − 8k] (00_scope.md R16). -/
def be64Byte (v : BitVec 64) (k : Nat) : Byte := v.extractLsb' (8 * (7 - k)) 8

/-- BE64(v): eight bytes, most significant first (00_scope.md R16). -/
def be64 (v : BitVec 64) : List Byte := (List.range 8).map (be64Byte v)

/-- Byte j of bytes(w), most significant byte first: w[31 − 8j : 24 − 8j] (00_scope.md R16). -/
def wordByte (w : Word) (j : Nat) : Byte := w.extractLsb' (8 * (3 - j)) 8

/-- bytes(w): four bytes, most significant first (00_scope.md R16). -/
def bytesOf (w : Word) : List Byte := (List.range 4).map (wordByte w)

/-- The length field's value zext_64(8·L) for a byte count L (40_padder.md R100, R106), where L < 2^61 (R104). For a
greater L the product is reduced modulo 2^64, which is the model's choice (log 21). -/
def lengthField (L : Nat) : BitVec 64 := BitVec.ofNat 64 (8 * L)

end Sys2Proof.Machine
end

