-- ==== Sys2Proof/Machine/Compressor.lean ====
section
/-! DEFINITION. The Compressor's functions (43_compressor.md R150 to R160). -/

namespace Sys2Proof.Machine

/-- bsig0(x) = rotr(x,2) ^ rotr(x,13) ^ rotr(x,22) (43_compressor.md R151). -/
def bsig0 (x : Word) : Word := rotr x 2 ^^^ rotr x 13 ^^^ rotr x 22

/-- bsig1(x) = rotr(x,6) ^ rotr(x,11) ^ rotr(x,25) (43_compressor.md R152). -/
def bsig1 (x : Word) : Word := rotr x 6 ^^^ rotr x 11 ^^^ rotr x 25

/-- Ch(e,f,g) = (e & f) ^ (~e & g) (43_compressor.md R153). -/
def ch (e f g : Word) : Word := (e &&& f) ^^^ (~~~e &&& g)

/-- Maj(a,b,c) = (a & b) ^ (a & c) ^ (b & c) (43_compressor.md R154). -/
def maj (a b c : Word) : Word := (a &&& b) ^^^ (a &&& c) ^^^ (b &&& c)

/-- T1 = add32(h, bsig1(e), Ch(e,f,g), K[t], W[t]) (43_compressor.md R155). -/
def t1 (r : HashState) (W : Schedule) (t : BitVec 6) : Word :=
  add32 [r[7], bsig1 r[4], ch r[4] r[5] r[6], kWord t, wWord W t]

/-- T2 = add32(bsig0(a), Maj(a,b,c)) (43_compressor.md R156). -/
def t2 (r : HashState) : Word := add32 [bsig0 r[0], maj r[0] r[1] r[2]]

/-- The register update of round t, every right-hand side read before the round (43_compressor.md R157). -/
def roundRegs (W : Schedule) (t : BitVec 6) (r : HashState) : HashState :=
  #v[add32 [t1 r W t, t2 r], r[0], r[1], r[2], add32 [r[3], t1 r W t], r[4], r[5], r[6]]

/-- The working registers, seeded from S, after the rounds 0 to n − 1 (43_compressor.md R150, R159). -/
def compressUpTo (S : HashState) (W : Schedule) : Nat → HashState
  | 0 => S
  | n + 1 => roundRegs W (BitVec.ofNat 6 n) (compressUpTo S W n)

/-- compress(S, W): the 64 rounds, in order (43_compressor.md R159). -/
def compress (S : HashState) (W : Schedule) : HashState := compressUpTo S W 64

end Sys2Proof.Machine
end

