-- ==== Sys2Proof/Machine/Padder.lean ====
section
/-! DEFINITION. The Padder's functional definition (40_padder.md R100 to R105) and the block contents that the
micro-operation PAD forms (R106, R107). -/

namespace Sys2Proof.Machine

/-- Step 2 of pad: `while (8·|P|) mod 512 != 448: P <- P ++ [0x00]` (40_padder.md R100). The first argument bounds the
number of bytes appended; 64 is always enough (R103). -/
def zeroFill : Nat → List Byte → List Byte
  | 0, p => p
  | n + 1, p => if 8 * p.length % 512 = 448 then p else zeroFill n (p ++ [0x00])

/-- pad(M): 0x80, then zero bytes, then the bit length as a big-endian 64-bit integer (40_padder.md R100), defined for
|M| < 2^61 (R104). Its value for a longer message is the model's choice (log 21); the instruction pad faults there
(execFnPad, log 8). -/
def pad (m : List Byte) : List Byte :=
  zeroFill 64 (m ++ [0x80]) ++ be64 (lengthField m.length)

/-- BLK after PAD with pstage = MSG (40_padder.md R106): the message bytes below blen, 0x80 at blen, zeros above it, and
the length field in BLK[56..63] when blen ≤ 55. -/
def padFirstBlock (blk : Block) (blen : BitVec 6) (L : BitVec 61) : Block :=
  Vector.ofFn fun j =>
    if j.val < blen.toNat then blk[j.val]
    else if j.val = blen.toNat then 0x80
    else if 56 ≤ j.val ∧ blen.toNat ≤ 55 then be64Byte (lengthField L.toNat) (j.val - 56)
    else 0x00

/-- BLK after PAD with pstage = PAD_PENDING (40_padder.md R107): zeros in BLK[0..55] and the length field in
BLK[56..63]. -/
def padSecondBlock (L : BitVec 61) : Block :=
  Vector.ofFn fun j =>
    if j.val < 56 then 0x00 else be64Byte (lengthField L.toNat) (j.val - 56)

end Sys2Proof.Machine
end

