-- ==== Sys2Proof/Machine/Schedule.lean ====
section
/-! DEFINITION. The Schedule Expander's functions (42_schedule_expander.md R130 to R138). -/

namespace Sys2Proof.Machine

/-- ssig0(x) = rotr(x,7) ^ rotr(x,18) ^ shr(x,3) (42_schedule_expander.md R130). -/
def ssig0 (x : Word) : Word := rotr x 7 ^^^ rotr x 18 ^^^ shr x 3

/-- ssig1(x) = rotr(x,17) ^ rotr(x,19) ^ shr(x,10) (42_schedule_expander.md R131). -/
def ssig1 (x : Word) : Word := rotr x 17 ^^^ rotr x 19 ^^^ shr x 10

/-- Words 0 to 15, the big-endian words of the block (42_schedule_expander.md R135); the other words are still to be
computed. -/
def nativeWords (B : Block) : Schedule :=
  Vector.ofFn fun j =>
    if h : j.val < 16 then be32 B[4 * j.val] B[4 * j.val + 1] B[4 * j.val + 2] B[4 * j.val + 3] else 0

/-- The schedule with the words 0 to 15 + n computed: W[i] = add32(W[i-16], ssig0(W[i-15]), W[i-7], ssig1(W[i-2])) for
i = n + 16 (42_schedule_expander.md R136). -/
def expandUpTo (B : Block) : Nat → Schedule
  | 0 => nativeWords B
  | n + 1 =>
    let W := expandUpTo B n
    if h : n + 16 < 64 then
      W.set (n + 16) (add32 [W[n], ssig0 W[n + 1], W[n + 9], ssig1 W[n + 14]])
    else W

/-- expand(B): the 64 words of R135 and R136 (42_schedule_expander.md R138). -/
def expand (B : Block) : Schedule := expandUpTo B 48

end Sys2Proof.Machine
end

