-- ==== Sys2Proof/Machine/Splitter.lean ====
section
/-! DEFINITION. The Block Splitter (41_block_splitter.md R120 to R122). In hardware it has no micro-operation: blen and
the hand-over of BLK to EXPAND realise it. -/

namespace Sys2Proof.Machine

/-- The block P[64n .. 64n+63] (41_block_splitter.md R120). -/
def blockAt (p : List Byte) (n : Nat) : Block :=
  Vector.ofFn fun i => p[64 * n + i.val]?.getD 0

/-- split(P) = [ P[64n .. 64n+63] for n in [0, |P|/64) ] (41_block_splitter.md R120). -/
def split (p : List Byte) : List Block :=
  (List.range (p.length / 64)).map (blockAt p)

end Sys2Proof.Machine
end

