-- ==== Sys2Proof/Machine/Digest.lean ====
section
/-! DEFINITION. The State Accumulator, the Digest Assembler, the fold `hash` that the components make together, and the
hex spelling of a digest (44_accumulator_digest.md R180 to R187). -/

namespace Sys2Proof.Machine

/-- accumulate(S, Rw): eight additions modulo 2^32, a lane each (44_accumulator_digest.md R180). -/
def accumulate (S Rw : HashState) : HashState :=
  Vector.ofFn fun k => add32 [S[k.val], Rw[k.val]]

/-- assemble(S): digest byte 4k + j is S[k][31 − 8j : 24 − 8j] (44_accumulator_digest.md R183). -/
def assemble (S : HashState) : Digest :=
  Vector.ofFn fun i => wordByte S[i.val / 4] (i.val % 4)

/-- One block of the fold: accumulate(S, compress(S, expand(B))) (44_accumulator_digest.md R187). -/
def blockStep (S : HashState) (B : Block) : HashState := accumulate S (compress S (expand B))

/-- The states S_0 = IV and S_n of the fold over a list of blocks (44_accumulator_digest.md R182, R187). -/
def foldBlocks (bs : List Block) : HashState := bs.foldl blockStep ivWords

/-- state_n of R187 for the message M: the fold over the first n blocks of its padding (10_state.md R46 item 10). R187
defines it for |M| < 2^61 and n up to the number of blocks; its value beyond them is the model's choice (log 21). -/
def hashStateAfter (m : List Byte) (n : Nat) : HashState := foldBlocks ((split (pad m)).take n)

/-- hash(M) (44_accumulator_digest.md R187). The rule defines it for |M| < 2^61 alone. For a longer message this total
function still answers a digest, that of the padding whose length field is 8·|M| reduced modulo 2^64 (lengthField): a
value that is the model's choice (DESIGN CHOICE, log 21), that no machine step reaches, and that no statement speaks of. -/
def hash (m : List Byte) : Digest := assemble (foldBlocks (split (pad m)))

/-- One of the characters `0123456789abcdef`. -/
def hexDigit (v : BitVec 4) : Char :=
  ['0', '1', '2', '3', '4', '5', '6', '7', '8', '9', 'a', 'b', 'c', 'd', 'e', 'f'][v.toNat]'v.isLt

/-- A byte as two characters, high nibble first (44_accumulator_digest.md R186). -/
def hexByte (b : Byte) : List Char := [hexDigit (b.extractLsb' 4 4), hexDigit (b.extractLsb' 0 4)]

/-- The hex spelling of a digest: 64 characters, in byte order D[0] to D[31] (44_accumulator_digest.md R186). -/
def hexDigest (D : Digest) : List Char := (D.toList.map hexByte).flatten

end Sys2Proof.Machine
end

