-- ==== Sys2Proof/Machine/Functions.lean ====
section
/-! DEFINITION. The FUNC rows of the opcode table: combinational functions with no encoding, which no step of either
agent dispatches by itself. Evaluating one yields its value in funcOut and touches no register of the core (log 7). -/

namespace Sys2Proof.Machine

/-- rotr(x, n) (00_scope.md R13). -/
def execFnRotr (x : Word) (n : Fin 32) (s : State) : Result := yieldValue (.word (rotr x n.val)) s

/-- shr(x, n) (00_scope.md R14). -/
def execFnShr (x : Word) (n : Fin 32) (s : State) : Result := yieldValue (.word (shr x n.val)) s

/-- add32(x, xs...) (00_scope.md R15). -/
def execFnAdd32 (x : Word) (xs : List Word) (s : State) : Result := yieldValue (.word (add32 (x :: xs))) s

/-- ssig0(x) (42_schedule_expander.md R130). -/
def execFnSsig0 (x : Word) (s : State) : Result := yieldValue (.word (ssig0 x)) s

/-- ssig1(x) (42_schedule_expander.md R131). -/
def execFnSsig1 (x : Word) (s : State) : Result := yieldValue (.word (ssig1 x)) s

/-- bsig0(x) (43_compressor.md R151). -/
def execFnBsig0 (x : Word) (s : State) : Result := yieldValue (.word (bsig0 x)) s

/-- bsig1(x) (43_compressor.md R152). -/
def execFnBsig1 (x : Word) (s : State) : Result := yieldValue (.word (bsig1 x)) s

/-- Ch(e, f, g) (43_compressor.md R153). -/
def execFnCh (e f g : Word) (s : State) : Result := yieldValue (.word (ch e f g)) s

/-- Maj(a, b, c) (43_compressor.md R154). -/
def execFnMaj (a b c : Word) (s : State) : Result := yieldValue (.word (maj a b c)) s

/-- pad(M) for |M| < 2^61 (40_padder.md R100); a longer message fails with a signalled error (R104, log 8). -/
def execFnPad (m : List Byte) (s : State) : Result :=
  if padDomain m then yieldValue (.bytes (pad m)) s else .fault .lengthOverflow

/-- split(P): R120's blocks for a length that is a multiple of 64, and a free value for any other length, which the
rule does not speak of (41_block_splitter.md R120, R121, log 8). -/
def execFnSplit (p : List Byte) (s : State) : Result :=
  yieldValue (.blocks (if splitDomain p then split p else Config.splitOutsideDomain p)) s

/-- expand(B) (42_schedule_expander.md R138). -/
def execFnExpand (B : Block) (s : State) : Result := yieldValue (.schedule (expand B)) s

/-- compress(S, W) (43_compressor.md R159). -/
def execFnCompress (S : HashState) (W : Schedule) (s : State) : Result := yieldValue (.hashState (compress S W)) s

/-- accumulate(S, Rw) (44_accumulator_digest.md R180). -/
def execFnAccumulate (S Rw : HashState) (s : State) : Result := yieldValue (.hashState (accumulate S Rw)) s

/-- assemble(S) (44_accumulator_digest.md R183). -/
def execFnAssemble (S : HashState) (s : State) : Result := yieldValue (.digest (assemble S)) s

end Sys2Proof.Machine
end

