-- ==== Sys2Proof/Machine/MicroOps.lean ====
section
/-! DEFINITION. The Core agent's micro-operations. Every right-hand side reads the state before the micro-operation
(00_scope.md R17); no micro-operation raises an error (60_exceptions.md R230). -/

namespace Sys2Proof.Machine

/-- The effect of PAD with pstage = MSG (40_padder.md R106). -/
def padFirst (s : State) : State :=
  { s with
    BLK := padFirstBlock s.BLK s.blen s.L
    pstage := if s.blen.toNat ≤ 55 then .last else .pending
    phase := .expand }

/-- PAD.MSG (40_padder.md R106). -/
def execPadMsg (s : State) : Result :=
  whenSelected "PAD.MSG" (decide (s.phase = .pad ∧ s.pstage = .msg)) (padFirst s)

/-- The effect of PAD with pstage = PAD_PENDING (40_padder.md R107). -/
def padSecond (s : State) : State :=
  { s with BLK := padSecondBlock s.L, pstage := .last, phase := .expand }

/-- PAD.PENDING (40_padder.md R107). -/
def execPadPending (s : State) : Result :=
  whenSelected "PAD.PENDING" (decide (s.phase = .pad ∧ s.pstage = .pending)) (padSecond s)

/-- The effect of EXPAND: the schedule, the seed, t <- 0 (42_schedule_expander.md R137, 43_compressor.md R150). -/
def expandAndSeed (s : State) : State :=
  { s with W := expand s.BLK, Rw := s.H, t := 0, phase := .round }

/-- EXPAND (42_schedule_expander.md R137). -/
def execExpand (s : State) : Result :=
  whenSelected "EXPAND" (decide (s.phase = .expand)) (expandAndSeed s)

/-- The effect of ROUND: round t, and the move of t (43_compressor.md R158). -/
def roundAndCount (s : State) : State :=
  let s' := { s with Rw := roundRegs s.W s.t s.Rw }
  if s.t = 63 then { s' with t := 0, phase := .accum } else { s' with t := s.t + 1 }

/-- ROUND (43_compressor.md R158). -/
def execRound (s : State) : Result :=
  whenSelected "ROUND" (decide (s.phase = .round)) (roundAndCount s)

/-- The phase that follows ACCUM (44_accumulator_digest.md R181). -/
def afterAccum : PStage → Phase
  | .msg => .absorb
  | .pending => .pad
  | .last => .assemble

/-- The effect of ACCUM (44_accumulator_digest.md R181). -/
def accumulateHash (s : State) : State :=
  { s with H := accumulate s.H s.Rw, phase := afterAccum s.pstage }

/-- ACCUM (44_accumulator_digest.md R181). -/
def execAccum (s : State) : Result :=
  whenSelected "ACCUM" (decide (s.phase = .accum)) (accumulateHash s)

/-- The effect of ASSEMBLE (44_accumulator_digest.md R184). -/
def assembleDigest (s : State) : State :=
  { s with D := assemble s.H, phase := .done }

/-- ASSEMBLE (44_accumulator_digest.md R184). -/
def execAssemble (s : State) : Result :=
  whenSelected "ASSEMBLE" (decide (s.phase = .assemble)) (assembleDigest s)

end Sys2Proof.Machine
end

