-- ==== Sys2Proof/Machine/Dispatch.lean ====
section
/-! DEFINITION. exec: one arm per constructor of Instr, each one call of its meaning. -/

namespace Sys2Proof.Machine

def exec (i : Instr) (s : State) : Host.Outcome State Fault Refusal :=
  match i with
  | .nop data => Sys2Proof.Machine.execNop data s
  | .init data => Sys2Proof.Machine.execInit data s
  | .write b => Sys2Proof.Machine.execWrite b s
  | .finish data => Sys2Proof.Machine.execFinish data s
  | .illegalOp4to7 op rsv data => Sys2Proof.Machine.execIllegalOp4to7 op rsv data s
  | .illegalOp8to15 op rsv data => Sys2Proof.Machine.execIllegalOp8to15 op rsv data s
  | .illegalRsv8 op rsv data => Sys2Proof.Machine.execIllegalRsv8 op rsv data s
  | .illegalRsv9 op rsv data => Sys2Proof.Machine.execIllegalRsv9 op rsv data s
  | .illegalRsv10 op rsv data => Sys2Proof.Machine.execIllegalRsv10 op rsv data s
  | .illegalRsv11 op data => Sys2Proof.Machine.execIllegalRsv11 op data s
  | .padMsg => Sys2Proof.Machine.execPadMsg s
  | .padPending => Sys2Proof.Machine.execPadPending s
  | .expand => Sys2Proof.Machine.execExpand s
  | .round => Sys2Proof.Machine.execRound s
  | .accum => Sys2Proof.Machine.execAccum s
  | .assemble => Sys2Proof.Machine.execAssemble s
  | .fnRotr x n => Sys2Proof.Machine.execFnRotr x n s
  | .fnShr x n => Sys2Proof.Machine.execFnShr x n s
  | .fnAdd32 x xs => Sys2Proof.Machine.execFnAdd32 x xs s
  | .fnSsig0 x => Sys2Proof.Machine.execFnSsig0 x s
  | .fnSsig1 x => Sys2Proof.Machine.execFnSsig1 x s
  | .fnBsig0 x => Sys2Proof.Machine.execFnBsig0 x s
  | .fnBsig1 x => Sys2Proof.Machine.execFnBsig1 x s
  | .fnCh e f g => Sys2Proof.Machine.execFnCh e f g s
  | .fnMaj a b c => Sys2Proof.Machine.execFnMaj a b c s
  | .fnPad m => Sys2Proof.Machine.execFnPad m s
  | .fnSplit p => Sys2Proof.Machine.execFnSplit p s
  | .fnExpand B => Sys2Proof.Machine.execFnExpand B s
  | .fnCompress S W => Sys2Proof.Machine.execFnCompress S W s
  | .fnAccumulate S Rw => Sys2Proof.Machine.execFnAccumulate S Rw s
  | .fnAssemble S => Sys2Proof.Machine.execFnAssemble S s

end Sys2Proof.Machine
end

