-- ==== Sys2Proof/Machine/Agents.lean ====
section
/-! DEFINITION. The two agents (45_host_commands.md R200, R201, R208, R209) and the reset event (70_reset_and_hazards.md
R260). In every state exactly one of the agents can step: the Core while it is busy, the Host while it is not. -/

namespace Sys2Proof.Machine

/-- The Core agent's step: the micro-operation that phase and pstage select (45_host_commands.md R208). It reads no
input; a word presented meanwhile stays presented (R200). -/
def coreStep (s : State) : Result :=
  match decodeMicroOp s.phase.code s.pstage.code with
  | .ok i => exec i (passPause s)
  | .error e => .refused (.noMicroOp e)

/-- The Host agent's step: the word presented is taken and performed (45_host_commands.md R200, R201). With no word
presented no agent has a step and the registers keep their values (60_exceptions.md R246, log 2). -/
def hostStep (s : State) : Result :=
  match s.cmdIn with
  | [] => .next s
  | none :: rest => .next { s with cmdIn := rest }
  | some w :: rest => exec (decodeCommand w) { s with cmdIn := rest }

/-- The step of whichever agent can step (45_host_commands.md R209). -/
def agentStep (s : State) : Result := if busy s then coreStep s else hostStep s

/-- The step with the rst input sampled first: an asserted sample resets the registers, and the word presented is not
accepted (70_reset_and_hazards.md R260). -/
def sampledStep (s : State) : Result :=
  match s.rstIn with
  | [] => agentStep s
  | false :: rest => agentStep { s with rstIn := rest }
  | true :: rest => .next (passPause (resetRegisters { s with rstIn := rest }))

end Sys2Proof.Machine
end

