-- ==== Sys2Proof/Machine/Step.lean ====
section
/-! DEFINITION. One step of the machine, and the placing of one instruction where the next step reads it. -/

namespace Sys2Proof.Machine

/-- One step: a reset event, a Host command, a Core micro-operation, or nothing (45_host_commands.md R209, log 1). -/
def step (s : State) : Host.Outcome State Fault Refusal := sampledStep s

/-- `s` with the opcode-table word `w` placed where the next step reads its instruction (log 15). -/
def State.withFetchWord (s : State) (nbits w : Nat) : State :=
  match codeOfTableWord nbits w with
  | some c => placeCode c s
  | none => s

end Sys2Proof.Machine
end

