-- ==== Sys2Proof/Machine/Assembly.lean ====
section
/-! DEFINITION. The spec's text forms of commands: assembler lines (30_encoding.md R85), pseudo-instructions (R86) and
disassembly (R87). Text is a list of characters. -/

namespace Sys2Proof.Machine

/-- A line or a name, as its characters. -/
abbrev Text := List Char

/-- One assembler line, which is one command (30_encoding.md R85). -/
inductive AsmLine
  | nop
  | init
  | write (b : Byte)
  | finish
  /-- `.word 0xNNNN`, the way an illegal word is written. -/
  | word (w : CmdWord)
  deriving DecidableEq, Repr

/-- The encoding of a line: RSV = 0, and DATA = 0 for NOP, INIT and FINISH (30_encoding.md R85). -/
def lineWord : AsmLine → CmdWord
  | .nop => commandWord 0 0 0
  | .init => commandWord 1 0 0
  | .write b => commandWord 2 0 b
  | .finish => commandWord 3 0 0
  | .word w => w

/-- A line of a program with its pseudo-instructions (30_encoding.md R86). -/
inductive AsmItem
  | line (l : AsmLine)
  /-- `WRITES "s"`. -/
  | writes (s : List Byte)
  /-- `HASH "s"`. -/
  | hash (s : List Byte)
  /-- `WAIT`, which takes no encoding. -/
  | wait
  deriving DecidableEq, Repr

/-- The real commands that an item expands to, in order (30_encoding.md R86). -/
def itemLines : AsmItem → List AsmLine
  | .line l => [l]
  | .writes s => s.map AsmLine.write
  | .hash s => [.init] ++ s.map AsmLine.write ++ [.finish]
  | .wait => []

/-- The words of an item, in order. -/
def itemWords (i : AsmItem) : List CmdWord := (itemLines i).map lineWord

/-! ## Disassembly -/

/-- A 16-bit word as four lowercase hex digits. -/
def hexWord (w : CmdWord) : Text := hexByte (w.extractLsb' 8 8) ++ hexByte (w.extractLsb' 0 8)

/-- The disassembly of a word; DATA is printed for WRITE alone (30_encoding.md R87). -/
def disassemble (w : CmdWord) : Text :=
  if legal w then
    if opField w = 0 then "NOP".toList
    else if opField w = 1 then "INIT".toList
    else if opField w = 2 then "WRITE 0x".toList ++ hexByte (dataField w)
    else "FINISH".toList
  else ".word 0x".toList ++ hexWord w

/-! ## Reading lines (log 19 names what R85 leaves to the reader) -/

/-- A blank inside a line. -/
def isBlank (c : Char) : Bool := c == ' ' || c == '\t'

/-- The text without its leading blanks. -/
def skipBlanks (t : Text) : Text := t.dropWhile isBlank

/-- Nothing is left but blanks and a comment, which starts with `;`. -/
def lineEnds (t : Text) : Bool :=
  match skipBlanks t with
  | [] => true
  | c :: _ => c == ';'

/-- The first word of a text, up to a blank or a comment, in lower case (mnemonics are case-insensitive). -/
def mnemonicOf (t : Text) : Text := (t.takeWhile fun c => !(isBlank c || c == ';')).map Char.toLower

/-- What follows the first word of a text. -/
def afterMnemonic (t : Text) : Text := skipBlanks (t.dropWhile fun c => !(isBlank c || c == ';'))

/-- The value of a hex digit of either case. -/
def hexValue (c : Char) : Option (BitVec 4) :=
  (List.range 16).findSome? fun v =>
    let d := hexDigit (BitVec.ofNat 4 v)
    if c = d ∨ c.toLower = d then some (BitVec.ofNat 4 v) else none

/-- The byte of two hex digits. -/
def hexPair (a b : Char) : Option Byte :=
  match hexValue a, hexValue b with
  | some x, some y => some (x ++ y)
  | some _, none => none
  | none, some _ => none
  | none, none => none

/-- The value of a run of decimal digits. -/
def decimalValue (ds : Text) : Nat := ds.foldl (fun n c => 10 * n + (c.toNat - '0'.toNat)) 0

/-- The ASCII code of a character. -/
def asciiByte (c : Char) : Option Byte := if c.toNat < 128 then some (BitVec.ofNat 8 c.toNat) else none

/-- The operand `<byte>`: `0xNN`, a quoted ASCII character, or a decimal literal 0..255, with what follows it
(30_encoding.md R85). A quoted character is any one ASCII character, with no escape (DESIGN CHOICE, log 19). -/
def readByte (t : Text) : Option (Byte × Text) :=
  match t with
  | '0' :: 'x' :: a :: b :: rest => (hexPair a b).map fun v => (v, rest)
  | '\'' :: c :: '\'' :: rest => (asciiByte c).map fun v => (v, rest)
  | other =>
    let ds := other.takeWhile Char.isDigit
    if ds ≠ [] ∧ decimalValue ds ≤ 255 then
      some (BitVec.ofNat 8 (decimalValue ds), other.dropWhile Char.isDigit)
    else none

/-- The operand of `.word`: `0xNNNN`. -/
def readWord (t : Text) : Option (CmdWord × Text) :=
  match t with
  | '0' :: 'x' :: a :: b :: c :: d :: rest =>
    match hexPair a b, hexPair c d with
    | some hi, some lo => some (hi ++ lo, rest)
    | some _, none => none
    | none, some _ => none
    | none, none => none
  | _ => none

/-- The bytes of a string up to its closing quote, with `\xNN` escapes (30_encoding.md R86), and what follows it. A
backslash that does not begin `\xNN`, with two hex digits, makes the line unreadable, and the first double quote that no
escape writes ends the string; both are the model's choice (DESIGN CHOICE, log 19), since R86 says only that the string is
ASCII with `\xNN` escapes for other bytes. -/
def readString : Text → Option (List Byte × Text)
  | [] => none
  | '"' :: rest => some ([], rest)
  | '\\' :: 'x' :: a :: b :: rest =>
    match hexPair a b, readString rest with
    | some v, some (vs, after) => some (v :: vs, after)
    | some _, none => none
    | none, some _ => none
    | none, none => none
  | c :: rest =>
    if c = '\\' then none
    else
      match asciiByte c, readString rest with
      | some v, some (vs, after) => some (v :: vs, after)
      | some _, none => none
      | none, some _ => none
      | none, none => none

/-- The operand of WRITES and HASH: a quoted string. -/
def readQuoted (t : Text) : Option (List Byte × Text) :=
  match t with
  | '"' :: rest => readString rest
  | _ => none

/-- The value of an operand that fills the rest of its line. -/
def wholeOperand {α : Type} (r : Option (α × Text)) : Option α :=
  match r with
  | some (v, rest) => if lineEnds rest then some v else none
  | none => none

/-- One line of a program, with its pseudo-instructions (30_encoding.md R85, R86). -/
def readItem (line : Text) : Option AsmItem :=
  let t := skipBlanks line
  let m := mnemonicOf t
  let rest := afterMnemonic t
  if m = "nop".toList then if lineEnds rest then some (.line .nop) else none
  else if m = "init".toList then if lineEnds rest then some (.line .init) else none
  else if m = "finish".toList then if lineEnds rest then some (.line .finish) else none
  else if m = "wait".toList then if lineEnds rest then some .wait else none
  else if m = "write".toList then (wholeOperand (readByte rest)).map fun b => .line (.write b)
  else if m = ".word".toList then (wholeOperand (readWord rest)).map fun w => .line (.word w)
  else if m = "writes".toList then (wholeOperand (readQuoted rest)).map .writes
  else if m = "hash".toList then (wholeOperand (readQuoted rest)).map .hash
  else none

/-- The words of a program, one line each in order; a line that cannot be read makes the whole program unreadable. -/
def assembleText : List Text → Option (List CmdWord)
  | [] => some []
  | line :: lines =>
    match readItem line, assembleText lines with
    | some i, some ws => some (itemWords i ++ ws)
    | some _, none => none
    | none, some _ => none
    | none, none => none

/-- The words of a job that hashes M: INIT, a WRITE per byte, FINISH (30_encoding.md R86, 45_host_commands.md R211). -/
def jobWords (m : List Byte) : List CmdWord := itemWords (.hash m)

/-- The Host presenting words one after the other without a pause. -/
def present (ws : List CmdWord) : List (Option CmdWord) := ws.map some

end Sys2Proof.Machine
end

