-- ==== Sys2Proof/Safety.lean ====
section
/-! DEFINITION. The terms that claims use: runs, the outputs an observer sees, the invariants of 10_state.md R46, what it
is for a state to be part of the job that hashes a message, and the counts of 70_reset_and_hazards.md R270. -/

namespace Sys2Proof.Machine

/-! ## Runs and observations -/

/-- n steps, stopping at the first fault or refusal. -/
def runSteps : Nat → State → Result
  | 0, s => .next s
  | n + 1, s =>
    match step s with
    | .next s' => runSteps n s'
    | .fault r => .fault r
    | .refused r => .refused r

/-- What an observer sees: cmd_ready, status and the digest port, and nothing else (10_state.md R33, R36). -/
structure Outputs where
  cmdReady : Bool
  status : BitVec 16
  digest : BitVec 256
  deriving DecidableEq, Repr

/-- The outputs of a state. -/
def outputs (s : State) : Outputs := { cmdReady := cmdReady s, status := status s, digest := digestPort s }

/-- What an observer sees of an outcome: the outputs, or that the machine stopped. -/
def observed : Result → Option Outputs
  | .next s => some (outputs s)
  | .fault _ => none
  | .refused _ => none

/-! ## The invariants of 10_state.md R46 -/

/-- The phases in which a block is being compressed. -/
def inBlock (p : Phase) : Prop := p = .expand ∨ p = .round ∨ p = .accum

/-- Items 1 to 8 of 10_state.md R46, item 4's `blen = L mod 64` in every phase so that a step keeps the whole, and the
parameter's range (00_scope.md R10). -/
structure Inv (s : State) : Prop where
  /-- Item 1. -/
  cause_iff : s.cause = .none ↔ s.phase ≠ .error
  /-- Item 2. -/
  digest_zero : s.phase ≠ .done → s.D = zeroDigest
  /-- Item 3. -/
  t_zero : s.phase ≠ .round → s.t = 0
  /-- Items 4, 5 and 7, and in every other phase too. -/
  fill : s.blen.toNat = s.L.toNat % 64
  /-- Item 4. -/
  absorb_stage : s.phase = .absorb → s.pstage = .msg
  /-- Item 5. -/
  block_full : inBlock s.phase → s.pstage = .msg → s.blen = 0 ∧ 64 ≤ s.L.toNat ∧ s.L.toNat % 64 = 0
  /-- Item 6. -/
  pad_stage : s.phase = .pad → s.pstage = .msg ∨ s.pstage = .pending
  /-- Item 7. -/
  end_stage : s.phase = .assemble ∨ s.phase = .done → s.pstage = .last
  /-- Item 8. -/
  limit : s.L.toNat ≤ s.cfg.maxMsgBytes.toNat
  /-- MAX_MSG_BYTES is in its allowed range. -/
  cfg_wf : s.cfg.wf = true

/-! ## Counts -/

/-- The number of blocks of a job of L bytes, N = floor((L + 8) / 64) + 1 (40_padder.md R101, 41_block_splitter.md
R123). -/
def blockCount (L : Nat) : Nat := (L + 8) / 64 + 1

/-- The number of PAD micro-operations of a job of L bytes (40_padder.md R109). -/
def padCount (L : Nat) : Nat := if L % 64 ≤ 55 then 1 else 2

/-- The number of Core micro-operations of a job of L bytes, 66·N + P + 1 (70_reset_and_hazards.md R270). -/
def jobMicroOps (L : Nat) : Nat := 66 * blockCount L + padCount L + 1

/-! ## The job in progress -/

/-- The number of ACCUM micro-operations since the job's INIT, read from the sequencer's position and the byte count
(10_state.md R46 item 10). -/
def accumsDone (L : Nat) (p : Phase) (st : PStage) : Nat :=
  match p with
  | .idle => 0
  | .absorb => L / 64
  | .pad => match st with
    | .msg => L / 64
    | .pending => L / 64 + 1
    | .last => L / 64
  | .expand | .round | .accum => match st with
    | .msg => L / 64 - 1
    | .pending => L / 64
    | .last => blockCount L - 1
  | .assemble => blockCount L
  | .done => blockCount L
  | .error => match st with
    | .msg => L / 64
    | .pending => L / 64
    | .last => blockCount L

/-- The state is part of a job that has absorbed exactly the bytes `m` since its INIT. -/
structure InJob (m : List Byte) (s : State) : Prop where
  /-- An INIT has been accepted since the last reset. -/
  opened : s.phase ≠ .idle
  /-- L counts the bytes absorbed (10_state.md R26). -/
  length : s.L.toNat = m.length
  /-- They are within the limit (R46 item 8). -/
  limit : m.length ≤ s.cfg.maxMsgBytes.toNat
  /-- blen counts the bytes of the block being filled (R25). -/
  fill : s.blen.toNat = m.length % 64
  absorb_stage : s.phase = .absorb → s.pstage = .msg
  pad_stage : s.phase = .pad → s.pstage ≠ .last
  end_stage : s.phase = .assemble ∨ s.phase = .done → s.pstage = .last
  error_stage : s.phase = .error → s.pstage ≠ .pending
  /-- A block compressed with pstage = MSG is a full block of message bytes (R46 item 5). -/
  block_full : inBlock s.phase → s.pstage = .msg → 0 < m.length ∧ m.length % 64 = 0
  /-- PAD_PENDING means that the length field did not fit (40_padder.md R107). -/
  pending_fill : s.pstage = .pending → 56 ≤ m.length % 64
  /-- H is state_n of the job's message after n ACCUM micro-operations (R46 item 10). -/
  hash_state : s.H = hashStateAfter m (accumsDone m.length s.phase s.pstage)
  /-- The bytes of the unfinished block stand in BLK below blen, in message order (20_memory.md R62). -/
  buffered : s.phase = .absorb ∨ (s.phase = .pad ∧ s.pstage = .msg) →
    ∀ j : Fin 64, j.val < s.blen.toNat → m[64 * (m.length / 64) + j.val]? = some s.BLK[j.val]
  /-- The block that EXPAND reads is the next block of split(pad(m)) (40_padder.md R110). -/
  block : inBlock s.phase →
    (split (pad m))[accumsDone m.length s.phase s.pstage]? = some s.BLK
  /-- W is the schedule of that block. -/
  schedule : s.phase = .round ∨ s.phase = .accum → s.W = expand s.BLK
  /-- The working registers are those of the rounds done (43_compressor.md R159). -/
  rounds : s.phase = .round → s.Rw = compressUpTo s.H s.W s.t.toNat
  compressed : s.phase = .accum → s.Rw = compress s.H s.W
  /-- D is the digest of the job's message in DONE (44_accumulator_digest.md R188). -/
  digest : s.phase = .done → s.D = hash m

/-- The bytes that the job in progress has absorbed after one more step: INIT starts again from none, and a WRITE that is
absorbed adds its byte (20_memory.md R62). -/
def absorbedAfter (m : List Byte) (s : State) : List Byte :=
  if transfers s then
    match cmd s with
    | none => m
    | some w =>
      if legal w ∧ opField w = 1 then []
      else if legal w ∧ opField w = 2 ∧ s.phase = .absorb ∧ s.L ≠ s.cfg.maxMsgBytes then m ++ [dataField w]
      else m
  else m

end Sys2Proof.Machine
end

