-- ==== Sys2Proof/Certificates/Slice0/Obligations.lean ====
section
/-! DEFINITION. The statements for the provers: what the spec's numbered rules say that the machine does. -/

open Sys2Proof Sys2Proof.Machine

/-! ## Encoding -/

/-- Words written out from 30_encoding.md R81 and R83 (some of them those of 95_test_vectors.md T6.1) decode to the
commands and to ILLEGAL rows, and the phase codes of 10_state.md R38 select their micro-operations. The rules say of
an illegal word that it is illegal, not which row it is; that 0x1a7f and 0x3c00, which match two ILLEGAL rows each,
get the first of them in the table's order is the model's choice (log 11), as is the DATA that NOP, INIT and FINISH
keep (log 12). -/
def Obligations.SampleWordsDecode : Prop :=
  decodeCommand 0x0000 = .nop 0x00 ∧ decodeCommand 0x00ff = .nop 0xff ∧
  decodeCommand 0x10ff = .init 0xff ∧ decodeCommand 0x2061 = .write 0x61 ∧ decodeCommand 0x3055 = .finish 0x55 ∧
  decodeCommand 0x4000 = .illegalOp4to7 0 0 0 ∧ decodeCommand 0x8061 = .illegalOp8to15 0 0 0x61 ∧
  decodeCommand 0x2100 = .illegalRsv8 2 0 0 ∧ decodeCommand 0x1a7f = .illegalRsv9 1 2 0x7f ∧
  decodeCommand 0x3c00 = .illegalRsv10 3 1 0 ∧ decodeCommand 0x0800 = .illegalRsv11 0 0 ∧
  decodeMicroOp 2 0 = .ok .padMsg ∧ decodeMicroOp 2 1 = .ok .padPending ∧ decodeMicroOp 3 0 = .ok .expand ∧
  decodeMicroOp 4 0 = .ok .round ∧ decodeMicroOp 5 0 = .ok .accum ∧ decodeMicroOp 6 0 = .ok .assemble

/-- 30_encoding.md R81: the OP field selects the command, by the match and mask values of its table. -/
def Obligations.OpcodeMapByMatchAndMask : Prop :=
  ∀ w : CmdWord,
    (w &&& 0xFF00 = 0x0000 → decodeCommand w = .nop (dataField w)) ∧
    (w &&& 0xFF00 = 0x1000 → decodeCommand w = .init (dataField w)) ∧
    (w &&& 0xFF00 = 0x2000 → decodeCommand w = .write (dataField w)) ∧
    (w &&& 0xFF00 = 0x3000 → decodeCommand w = .finish (dataField w)) ∧
    (4 ≤ w.toNat / 2 ^ 12 → (decodeCommand w).isIllegal = true)

/-- 30_encoding.md R83: which words are legal, how many are not, what each decodes to, and what an illegal word does. -/
def Obligations.LegalWordsExactly : Prop :=
  (∀ w : CmdWord, legal w = true ↔ w.toNat / 2 ^ 12 ≤ 3 ∧ w.toNat / 2 ^ 8 % 16 = 0) ∧
  (∀ w : CmdWord, (decodeCommand w).isIllegal = !legal w) ∧
  (∀ w : CmdWord, legal w = true →
    [Instr.nop (dataField w), .init (dataField w), .write (dataField w), .finish (dataField w)][w.toNat / 2 ^ 12]? =
      some (decodeCommand w)) ∧
  ((List.range 65536).filter fun n => !legal (BitVec.ofNat 16 n)).length = 64512 ∧
  (∀ (w : CmdWord) (s : State), legal w = false → cmdReady s = true → s.phase ≠ .error →
    exec (decodeCommand w) s =
      .next { s with phase := .error, cause := .cmd, D := Vector.replicate 32 0 }) ∧
  (∀ (w : CmdWord) (s : State), legal w = false → s.phase = .error → exec (decodeCommand w) s = .next s)

/-- Decode and encode agree (which ILLEGAL row a word gets is log 11, the DATA that is kept log 12): an instruction
with a code is what its code decodes to, with every operand at every value, no bit of a command word is dropped, and
what decodes has a code. -/
def Obligations.DecodeEncodeRoundTrip : Prop :=
  (∀ (i : Instr) (c : Code), encode i = some c → decode c = .ok i) ∧
  (∀ w : CmdWord, encode (decodeCommand w) = some (.command w)) ∧
  (∀ (c : Code) (i : Instr), decode c = .ok i → ∃ c', encode i = some c')

/-- 30_encoding.md R85 and R87: the disassembly of a word is a line, and that line's encoding is the word again, with the
DATA that is not printed replaced by 0. -/
def Obligations.DisassemblyReadsBack : Prop :=
  ∀ w : CmdWord, ∃ l : AsmLine, readItem (disassemble w) = some (.line l) ∧
    lineWord l = if legal w = true ∧ opField w ≠ 2 then w &&& 0xFF00 else w

/-- 30_encoding.md R85 and R86 on the spec's own lines and a HASH pseudo-instruction. -/
def Obligations.AssemblerLines : Prop :=
  assembleText ["NOP".toList, "INIT".toList, "WRITE 0x61".toList, "write 'c' ; comment".toList, "FINISH".toList,
    ".word 0x4000".toList, "WAIT".toList, "HASH \"a\\x62\"".toList] =
    some [0x0000, 0x1000, 0x2061, 0x2063, 0x3000, 0x4000, 0x1000, 0x2061, 0x2062, 0x3000]

/-! ## Commands -/

/-- 45_host_commands.md R202: NOP changes nothing, whatever its DATA, in every quiescent phase, where it is accepted. The
statement takes in the busy states too, where R200 accepts no word: that exec answers the same state there is the
model's reading (log 9), and no step evaluates it. -/
def Obligations.NopChangesNothing : Prop :=
  ∀ (data : Byte) (s : State), exec (.nop data) s = .next s

/-- 45_host_commands.md R203 and 44_accumulator_digest.md R182: INIT loads IV into H, clears L, blen, pstage, cause and
D, enters ABSORB, and changes nothing else, from every quiescent phase. -/
def Obligations.InitStartsAJob : Prop :=
  ∀ (data : Byte) (s : State), s.phase = .idle ∨ s.phase = .absorb ∨ s.phase = .done ∨ s.phase = .error →
    exec (.init data) s = .next
      { s with
        H := #v[0x6a09e667, 0xbb67ae85, 0x3c6ef372, 0xa54ff53a, 0x510e527f, 0x9b05688c, 0x1f83d9ab, 0x5be0cd19]
        L := 0, blen := 0, pstage := .msg, cause := .none, D := Vector.replicate 32 0, phase := .absorb }

/-- 45_host_commands.md R204: WRITE raises SEQ outside a job, LEN at the limit, and otherwise stores its byte at blen,
counts it, and starts the block's compression when the byte fills it; nothing else changes. -/
def Obligations.WriteAbsorbsOneByte : Prop :=
  ∀ (b : Byte) (s : State),
    (s.phase = .idle ∨ s.phase = .done →
      exec (.write b) s = .next { s with phase := .error, cause := .seq, D := Vector.replicate 32 0 }) ∧
    (s.phase = .absorb → s.L = s.cfg.maxMsgBytes →
      exec (.write b) s = .next { s with phase := .error, cause := .len, D := Vector.replicate 32 0 }) ∧
    (s.phase = .absorb → s.L ≠ s.cfg.maxMsgBytes → s.blen ≠ 63 →
      exec (.write b) s = .next
        { s with BLK := s.BLK.set s.blen.toNat b s.blen.isLt, L := s.L + 1, blen := s.blen + 1 }) ∧
    (s.phase = .absorb → s.L ≠ s.cfg.maxMsgBytes → s.blen = 63 →
      exec (.write b) s = .next
        { s with BLK := s.BLK.set 63 b, L := s.L + 1, blen := 0, phase := .expand })

/-- 45_host_commands.md R205: FINISH starts the padding in ABSORB and raises SEQ in IDLE and DONE; it adds no byte. -/
def Obligations.FinishStartsPadding : Prop :=
  ∀ (data : Byte) (s : State),
    (s.phase = .absorb → exec (.finish data) s = .next { s with phase := .pad }) ∧
    (s.phase = .idle ∨ s.phase = .done →
      exec (.finish data) s = .next { s with phase := .error, cause := .seq, D := Vector.replicate 32 0 })

/-- 45_host_commands.md R206 and 60_exceptions.md R234: each ILLEGAL row raises CMD in IDLE, ABSORB and DONE, and has no
other effect. -/
def Obligations.IllegalWordsRaiseCmd : Prop :=
  ∀ s : State, s.phase = .idle ∨ s.phase = .absorb ∨ s.phase = .done →
    (∀ op rsv data, exec (.illegalOp4to7 op rsv data) s =
      .next { s with phase := .error, cause := .cmd, D := Vector.replicate 32 0 }) ∧
    (∀ op rsv data, exec (.illegalOp8to15 op rsv data) s =
      .next { s with phase := .error, cause := .cmd, D := Vector.replicate 32 0 }) ∧
    (∀ op rsv data, exec (.illegalRsv8 op rsv data) s =
      .next { s with phase := .error, cause := .cmd, D := Vector.replicate 32 0 }) ∧
    (∀ op rsv data, exec (.illegalRsv9 op rsv data) s =
      .next { s with phase := .error, cause := .cmd, D := Vector.replicate 32 0 }) ∧
    (∀ op rsv data, exec (.illegalRsv10 op rsv data) s =
      .next { s with phase := .error, cause := .cmd, D := Vector.replicate 32 0 }) ∧
    (∀ op data, exec (.illegalRsv11 op data) s =
      .next { s with phase := .error, cause := .cmd, D := Vector.replicate 32 0 })

/-- 45_host_commands.md R207: in ERROR a legal INIT starts a job, and every other word, legal or not, is consumed with no
effect. -/
def Obligations.ErrorIgnoresAllButInit : Prop :=
  ∀ (w : CmdWord) (s : State), s.phase = .error →
    (legal w = true ∧ opField w = 1 →
      exec (decodeCommand w) s = .next
        { s with
          H := Config.IV, L := 0, blen := 0, pstage := .msg, cause := .none, D := Vector.replicate 32 0
          phase := .absorb }) ∧
    (¬(legal w = true ∧ opField w = 1) → exec (decodeCommand w) s = .next s)

/-- 30_encoding.md R82: WRITE's DATA is the byte that is stored, as it is; NOP, INIT and FINISH behave alike for all
values of theirs. That they do so on a busy core too is log 9. -/
def Obligations.DataIsTheMessageByte : Prop :=
  (∀ (w w' : CmdWord) (s : State), legal w = true → legal w' = true → opField w = opField w' → opField w ≠ 2 →
    exec (decodeCommand w) s = exec (decodeCommand w') s) ∧
  (∀ (w : CmdWord) (s : State), legal w = true → opField w = 2 → s.phase = .absorb → s.L ≠ s.cfg.maxMsgBytes →
    ∃ s', exec (decodeCommand w) s = .next s' ∧
      s'.BLK[s.blen.toNat]'s.blen.isLt = BitVec.ofNat 8 (w.toNat % 256))

/-! ## Errors -/

/-- A state that enters ERROR is the state before the instruction with phase, cause and D written and nothing else, and
its outputs are those of an error: that is 60_exceptions.md R235. The clause busy s = false is not in R235. For a
micro-operation it is R230 ("No micro-operation of the Core agent can raise an error"). For a command or an ILLEGAL word,
which a busy core does not accept (45_host_commands.md R200), evaluated by exec on a busy core it rests on the model's
reading (log 9, DEDUCED), and no step evaluates it there. -/
def Obligations.ErrorEntryIsPrecise : Prop :=
  ∀ (i : Instr) (s s' : State), s.phase ≠ .error → exec i s = .next s' → s'.phase = .error →
    busy s = false ∧ s'.cause ≠ .none ∧
    s' = { s with phase := .error, cause := s'.cause, D := Vector.replicate 32 0 } ∧
    cmdReady s' = true ∧ err s' = true ∧ dvalid s' = false ∧ (status s').extractLsb' 8 2 = s'.cause.code

/-- 60_exceptions.md R236, with R231 to R234: the check order for one accepted word, and that nothing else raises an
error. -/
def Obligations.ErrorChecksInOrder : Prop :=
  ∀ (w : CmdWord) (s s' : State), cmdReady s = true → exec (decodeCommand w) s = .next s' →
    (s.phase = .error → s'.phase = .error → s' = s) ∧
    (s.phase ≠ .error → legal w = false → s'.phase = .error ∧ s'.cause = .cmd) ∧
    (s.phase ≠ .error → legal w = true → opField w = 2 ∨ opField w = 3 → s.phase ≠ .absorb →
      s'.phase = .error ∧ s'.cause = .seq) ∧
    (s.phase = .absorb → legal w = true → opField w = 2 → s.L = s.cfg.maxMsgBytes →
      s'.phase = .error ∧ s'.cause = .len) ∧
    (s.phase ≠ .error → legal w = true → opField w = 0 ∨ opField w = 1 → s'.phase ≠ .error) ∧
    (s.phase = .absorb → legal w = true → opField w = 2 → s.L ≠ s.cfg.maxMsgBytes → s'.phase ≠ .error) ∧
    (s.phase = .absorb → legal w = true → opField w = 3 → s'.phase ≠ .error)

/-- 60_exceptions.md R237 and R238: while in ERROR no step changes cause, and the only steps that leave ERROR are a reset
and a legal INIT, which clears cause and starts a job. -/
def Obligations.OnlyInitOrResetLeavesError : Prop :=
  ∀ s s' : State, s.phase = .error → step s = .next s' →
    (s'.phase = .error → s'.cause = s.cause) ∧
    (s'.phase ≠ .error →
      (rst s = true ∧ s'.phase = .idle ∧ s'.cause = .none) ∨
      (rst s = false ∧ ∃ w, cmd s = some w ∧ legal w = true ∧ opField w = 1 ∧ s'.phase = .absorb ∧ s'.cause = .none ∧
        s'.H = Config.IV ∧ s'.L = 0 ∧ s'.blen = 0 ∧ s'.pstage = .msg ∧ s'.D = Vector.replicate 32 0))

/-! ## The agents' steps -/

/-- 45_host_commands.md R200: a word presented to a quiescent core is taken and performed, in one step; presented to a
busy core it is not taken and stays presented. -/
def Obligations.StepRunsThePresentedCommand : Prop :=
  ∀ (s : State) (w : CmdWord) (rest : List (Option CmdWord)), rst s = false → s.cmdIn = some w :: rest →
    (cmdReady s = true →
      step s = exec (decodeCommand w) { s with cmdIn := rest, rstIn := s.rstIn.tail }) ∧
    (cmdReady s = false → ∀ s', step s = .next s' → s'.cmdIn = some w :: rest)

/-- 45_host_commands.md R208: a busy core performs the micro-operation that phase and pstage select, whatever is
presented; a pause of the Host's passes. -/
def Obligations.StepRunsTheSelectedMicroOp : Prop :=
  ∀ s : State, rst s = false →
    let s₀ := { s with cmdIn := dropPause s.cmdIn, rstIn := s.rstIn.tail }
    (s.phase = .pad → s.pstage = .msg → step s = exec .padMsg s₀) ∧
    (s.phase = .pad → s.pstage = .pending → step s = exec .padPending s₀) ∧
    (s.phase = .expand → step s = exec .expand s₀) ∧
    (s.phase = .round → step s = exec .round s₀) ∧
    (s.phase = .accum → step s = exec .accum s₀) ∧
    (s.phase = .assemble → step s = exec .assemble s₀)

/-- What exec answers outside an instruction's turn, which no step does. A command evaluated on a busy core is not
accepted (45_host_commands.md R200); a micro-operation evaluated where phase and pstage do not select it stops under its
name, which is the model's choice (log 9, log 10). -/
def Obligations.OutsideItsTurnNothingRuns : Prop :=
  (∀ (w : CmdWord) (s : State), busy s = true → exec (decodeCommand w) s = .next s) ∧
  ∀ s : State,
    (¬(s.phase = .pad ∧ s.pstage = .msg) → exec .padMsg s = .refused (.notSelected "PAD.MSG")) ∧
    (¬(s.phase = .pad ∧ s.pstage = .pending) → exec .padPending s = .refused (.notSelected "PAD.PENDING")) ∧
    (s.phase ≠ .expand → exec .expand s = .refused (.notSelected "EXPAND")) ∧
    (s.phase ≠ .round → exec .round s = .refused (.notSelected "ROUND")) ∧
    (s.phase ≠ .accum → exec .accum s = .refused (.notSelected "ACCUM")) ∧
    (s.phase ≠ .assemble → exec .assemble s = .refused (.notSelected "ASSEMBLE"))

/-- 60_exceptions.md R246: a quiescent core to which no command and no reset arrives keeps all its state. -/
def Obligations.QuiescentCoreKeepsItsState : Prop :=
  ∀ s : State, cmdReady s = true → rst s = false → cmd s = none →
    step s = .next { s with cmdIn := s.cmdIn.tail, rstIn := s.rstIn.tail }

/-- 70_reset_and_hazards.md R260: at any step, also while busy, an asserted rst sets every register to its reset value,
and a word that was presented is not accepted and stays presented. What nothing resets is the model's own fields (log 16). -/
def Obligations.ResetEventClearsEveryRegister : Prop :=
  ∀ s : State, rst s = true →
    ∃ s', step s = .next s' ∧
      s'.phase = .idle ∧ s'.cause = .none ∧ s'.D = Vector.replicate 32 0 ∧ s'.H = Vector.replicate 8 0 ∧
      s'.Rw = Vector.replicate 8 0 ∧ s'.W = Vector.replicate 64 0 ∧ s'.BLK = Vector.replicate 64 0 ∧ s'.blen = 0 ∧
      s'.L = 0 ∧ s'.pstage = .msg ∧ s'.t = 0 ∧ s'.cfg = s.cfg ∧ s'.rstIn = s.rstIn.tail ∧
      (∀ w rest, s.cmdIn = some w :: rest → s'.cmdIn = some w :: rest)

/-- 10_state.md R45 and 70_reset_and_hazards.md R261: the reset values, and the outputs that they give. -/
def Obligations.ResetValuesAndOutputs : Prop :=
  let s := State.reset
  s.phase = .idle ∧ s.cause = .none ∧ s.D = Vector.replicate 32 0 ∧ s.H = Vector.replicate 8 0 ∧
  s.Rw = Vector.replicate 8 0 ∧ s.W = Vector.replicate 64 0 ∧ s.BLK = Vector.replicate 64 0 ∧ s.blen = 0 ∧ s.L = 0 ∧
  s.pstage = .msg ∧ s.t = 0 ∧ cmdReady s = true ∧ status s = 0x0000 ∧ digestPort s = 0

/-- 45_host_commands.md R213: the whole control flow of the core, row by row, and no other transition exists. The second
case, a step of a quiescent core with no word presented, is no row of that table: it is the model's pause step, which
leaves the phase as it is (log 2). -/
def Obligations.PhaseTransitionTable : Prop :=
  ∀ s s' : State, step s = .next s' →
    (rst s = true ∧ s'.phase = .idle) ∨
    (rst s = false ∧ cmdReady s = true ∧ cmd s = none ∧ s'.phase = s.phase) ∨
    (rst s = false ∧ cmdReady s = true ∧ ∃ w, cmd s = some w ∧
      ((s.phase ≠ .error ∧ legal w = true ∧ opField w = 1 ∧ s'.phase = .absorb) ∨
       (s.phase = .error ∧ legal w = true ∧ opField w = 1 ∧ s'.phase = .absorb) ∨
       (s.phase ≠ .error ∧ legal w = true ∧ opField w = 0 ∧ s'.phase = s.phase) ∨
       (s.phase = .error ∧ ¬(legal w = true ∧ opField w = 1) ∧ s'.phase = .error) ∨
       (s.phase ≠ .error ∧ legal w = false ∧ s'.phase = .error ∧ s'.cause = .cmd) ∨
       ((s.phase = .idle ∨ s.phase = .done) ∧ legal w = true ∧ (opField w = 2 ∨ opField w = 3) ∧
         s'.phase = .error ∧ s'.cause = .seq) ∨
       (s.phase = .absorb ∧ legal w = true ∧ opField w = 2 ∧ s.L = s.cfg.maxMsgBytes ∧
         s'.phase = .error ∧ s'.cause = .len) ∨
       (s.phase = .absorb ∧ legal w = true ∧ opField w = 2 ∧ s.L ≠ s.cfg.maxMsgBytes ∧ s.blen ≠ 63 ∧
         s'.phase = .absorb) ∨
       (s.phase = .absorb ∧ legal w = true ∧ opField w = 2 ∧ s.L ≠ s.cfg.maxMsgBytes ∧ s.blen = 63 ∧
         s'.phase = .expand) ∨
       (s.phase = .absorb ∧ legal w = true ∧ opField w = 3 ∧ s'.phase = .pad))) ∨
    (rst s = false ∧
      ((s.phase = .pad ∧ (s.pstage = .msg ∨ s.pstage = .pending) ∧ s'.phase = .expand) ∨
       (s.phase = .expand ∧ s'.phase = .round ∧ s'.t = 0) ∨
       (s.phase = .round ∧ s.t ≠ 63 ∧ s'.phase = .round ∧ s'.t = s.t + 1) ∨
       (s.phase = .round ∧ s.t = 63 ∧ s'.phase = .accum ∧ s'.t = 0) ∨
       (s.phase = .accum ∧ s.pstage = .msg ∧ s'.phase = .absorb) ∨
       (s.phase = .accum ∧ s.pstage = .pending ∧ s'.phase = .pad) ∨
       (s.phase = .accum ∧ s.pstage = .last ∧ s'.phase = .assemble) ∨
       (s.phase = .assemble ∧ s'.phase = .done)))

/-- 10_state.md R20 and R33: each register is written only by the operations that R20 lists for it (reset apart). -/
def Obligations.RegistersChangeOnlyByTheirWriters : Prop :=
  ∀ s s' : State, rst s = false → step s = .next s' →
    let inits := transfers s = true ∧ ∃ w, cmd s = some w ∧ legal w = true ∧ opField w = 1
    let writes := transfers s = true ∧ ∃ w, cmd s = some w ∧ legal w = true ∧ opField w = 2
    let enters := s.phase ≠ .error ∧ s'.phase = .error
    (s'.H ≠ s.H → inits ∨ s.phase = .accum) ∧
    (s'.Rw ≠ s.Rw → s.phase = .expand ∨ s.phase = .round) ∧
    (s'.W ≠ s.W → s.phase = .expand) ∧
    (s'.BLK ≠ s.BLK → writes ∨ s.phase = .pad) ∧
    (s'.blen ≠ s.blen → inits ∨ writes) ∧
    (s'.L ≠ s.L → inits ∨ writes) ∧
    (s'.pstage ≠ s.pstage → inits ∨ s.phase = .pad) ∧
    (s'.t ≠ s.t → s.phase = .expand ∨ s.phase = .round) ∧
    (s'.D ≠ s.D → inits ∨ enters ∨ s.phase = .assemble) ∧
    (s'.cause ≠ s.cause → inits ∨ enters)

/-- 40_padder.md R108: PAD with pstage = LAST is never reached, and the model refuses such a state by name, as that rule
and 10_state.md R47 allow; the refusal is the model's choice (log 6). -/
def Obligations.PadAfterLastIsRefused : Prop :=
  ∀ s : State, rst s = false → s.phase = .pad → s.pstage = .last → step s = .refused (.noMicroOp .padAfterLast)

/-! ## Outputs -/

/-- 10_state.md R37, R38 and R39: cmd_ready, the phase codes, and every field of the status word. -/
def Obligations.StatusWordFields : Prop :=
  (∀ s : State,
    (status s).extractLsb' 0 4 = s.phase.code ∧
    (status s).getLsbD 4 = !cmdReady s ∧
    (status s).getLsbD 5 = decide (s.phase = .done) ∧
    (status s).getLsbD 6 = decide (s.phase = .error) ∧
    (status s).getLsbD 7 = false ∧
    (status s).extractLsb' 8 2 = s.cause.code ∧
    (status s).extractLsb' 10 6 = 0 ∧
    (cmdReady s = true ↔ s.phase = .idle ∨ s.phase = .absorb ∨ s.phase = .done ∨ s.phase = .error)) ∧
  [Phase.idle, .absorb, .pad, .expand, .round, .accum, .assemble, .done, .error].map (fun p => p.code.toNat) =
    [0, 1, 2, 3, 4, 5, 6, 7, 8] ∧
  [Cause.none, .len, .seq, .cmd].map (fun c => c.code.toNat) = [0, 1, 2, 3]

/-- 44_accumulator_digest.md R185: where each digest byte stands on the port, what the port shows after ASSEMBLE, and that
it is all zeros whenever DVALID = 0, in every state that meets the invariants. -/
def Obligations.DigestPortLayout : Prop :=
  (∀ (s : State) (i : Fin 32), (digestPort s).extractLsb' (8 * (31 - i.val)) 8 = s.D[i.val]) ∧
  (∀ (s s' : State), exec .assemble s = .next s' →
    (digestPort s').extractLsb' 224 32 = s.H[0] ∧ (digestPort s').extractLsb' 0 32 = s.H[7]) ∧
  (∀ s : State, Inv s → dvalid s = false → digestPort s = 0)

/-- 20_memory.md R70: while the core is in DONE no step changes what the digest port shows. -/
def Obligations.DigestStableInDone : Prop :=
  ∀ s s' : State, s.phase = .done → step s = .next s' → s'.phase = .done → digestPort s' = digestPort s

/-- 44_accumulator_digest.md R186: 64 lowercase hex characters, two for each byte, the high nibble first. -/
def Obligations.HexSpelling : Prop :=
  ∀ D : Digest, (hexDigest D).length = 64 ∧ ∀ i : Fin 32,
    (hexDigest D)[2 * i.val]? = "0123456789abcdef".toList[D[i.val].toNat / 16]? ∧
    (hexDigest D)[2 * i.val + 1]? = "0123456789abcdef".toList[D[i.val].toNat % 16]?

/-! ## Micro-operations -/

/-- 40_padder.md R106: the padder's first stage. Byte j of BLK[56..63] is byte j − 56 of the big-endian 8·L. -/
def Obligations.PadFirstStage : Prop :=
  ∀ s : State, s.phase = .pad → s.pstage = .msg →
    ∃ s', exec .padMsg s = .next s' ∧ s'.phase = .expand ∧ busy s' = true ∧
      s'.pstage = (if s.blen.toNat ≤ 55 then .last else .pending) ∧
      (∀ j : Fin 64,
        (j.val < s.blen.toNat → s'.BLK[j.val] = s.BLK[j.val]) ∧
        (j.val = s.blen.toNat → s'.BLK[j.val] = 0x80) ∧
        (s.blen.toNat < j.val → j.val < 56 ∨ 55 < s.blen.toNat → s'.BLK[j.val] = 0x00) ∧
        (s.blen.toNat ≤ 55 → 56 ≤ j.val →
          s'.BLK[j.val] = BitVec.ofNat 8 (8 * s.L.toNat / 2 ^ (8 * (63 - j.val))))) ∧
      { s' with BLK := s.BLK, pstage := s.pstage, phase := s.phase } = s

/-- 40_padder.md R107: the padder's second stage. -/
def Obligations.PadSecondStage : Prop :=
  ∀ s : State, s.phase = .pad → s.pstage = .pending →
    ∃ s', exec .padPending s = .next s' ∧ s'.phase = .expand ∧ busy s' = true ∧ s'.pstage = .last ∧
      (∀ j : Fin 64,
        (j.val < 56 → s'.BLK[j.val] = 0x00) ∧
        (56 ≤ j.val → s'.BLK[j.val] = BitVec.ofNat 8 (8 * s.L.toNat / 2 ^ (8 * (63 - j.val))))) ∧
      { s' with BLK := s.BLK, pstage := s.pstage, phase := s.phase } = s

/-- 42_schedule_expander.md R137 with R135, R136 and R138, and 43_compressor.md R150: EXPAND writes the schedule of the
block in BLK, seeds the working registers with H, clears t, and changes nothing else. -/
def Obligations.ExpandWritesScheduleAndSeeds : Prop :=
  ∀ s : State, s.phase = .expand →
    ∃ s', exec .expand s = .next s' ∧
      (∀ j : Fin 16, s'.W[j.val] =
        s.BLK[4 * j.val] ++ s.BLK[4 * j.val + 1] ++ s.BLK[4 * j.val + 2] ++ s.BLK[4 * j.val + 3]) ∧
      (∀ k : Fin 48, s'.W[k.val + 16] =
        s'.W[k.val] + ssig0 s'.W[k.val + 1] + s'.W[k.val + 9] + ssig1 s'.W[k.val + 14]) ∧
      s'.Rw = s.H ∧ s'.t = 0 ∧ s'.phase = .round ∧ busy s' = true ∧
      { s' with W := s.W, Rw := s.Rw, t := s.t, phase := s.phase } = s

/-- 43_compressor.md R158 with R155, R156 and R157: one round, every right-hand side read before it, and the move of t. -/
def Obligations.RoundUpdatesWorkingRegisters : Prop :=
  ∀ s : State, s.phase = .round →
    let T1 := s.h + bsig1 s.e + ch s.e s.f s.g + Config.K[s.t.toNat]'s.t.isLt + s.W[s.t.toNat]'s.t.isLt
    let T2 := bsig0 s.a + maj s.a s.b s.c
    exec .round s = .next
      { s with
        Rw := #v[T1 + T2, s.a, s.b, s.c, s.d + T1, s.e, s.f, s.g]
        t := if s.t = 63 then 0 else s.t + 1
        phase := if s.t = 63 then .accum else .round }

/-- 44_accumulator_digest.md R181 with R180: eight additions modulo 2^32, lane by lane, and the phase that pstage chooses;
nothing else changes. -/
def Obligations.AccumAddsAndChooses : Prop :=
  ∀ s : State, s.phase = .accum →
    ∃ s', exec .accum s = .next s' ∧
      (∀ k : Fin 8, s'.H[k.val] = s.H[k.val] + s.Rw[k.val]) ∧
      (s.pstage = .msg → s'.phase = .absorb ∧ cmdReady s' = true) ∧
      (s.pstage = .pending → s'.phase = .pad ∧ busy s' = true) ∧
      (s.pstage = .last → s'.phase = .assemble ∧ busy s' = true) ∧
      { s' with H := s.H, phase := s.phase } = s

/-- 44_accumulator_digest.md R184 with R183: the digest bytes are the big-endian bytes of H[0] to H[7]; nothing else
changes but the phase. -/
def Obligations.AssembleWritesDigest : Prop :=
  ∀ s : State, s.phase = .assemble →
    ∃ s', exec .assemble s = .next s' ∧ s'.phase = .done ∧ busy s' = false ∧ dvalid s' = true ∧
      (∀ (k : Fin 8) (j : Fin 4), s'.D[4 * k.val + j.val] = (s.H[k.val]).extractLsb' (24 - 8 * j.val) 8) ∧
      { s' with D := s.D, phase := s.phase } = s

/-! ## Functions. That evaluating one yields its value in funcOut, and the field itself, are the model's choice (log 7). -/

/-- 00_scope.md R13: bit i of rotr(x, n) is bit (i + n) mod 32 of x, and rotr(x, 0) = x. -/
def Obligations.RotrRotates : Prop :=
  ∀ (x : Word) (n : Fin 32) (s : State),
    ∃ r, exec (.fnRotr x n) s = .next { s with funcOut := .word r } ∧
      (∀ i : Fin 32, r.getLsbD i.val = x.getLsbD ((i.val + n.val) % 32)) ∧ (n = 0 → r = x)

/-- 00_scope.md R14: bit i of shr(x, n) is bit i + n of x when i + n < 32, and 0 otherwise. -/
def Obligations.ShrShifts : Prop :=
  ∀ (x : Word) (n : Fin 32) (s : State),
    ∃ r, exec (.fnShr x n) s = .next { s with funcOut := .word r } ∧
      ∀ i : Fin 32, r.getLsbD i.val = if i.val + n.val < 32 then x.getLsbD (i.val + n.val) else false

/-- 00_scope.md R15: add32 is the integer sum of its operands modulo 2^32, and the same in any order. -/
def Obligations.AddWrapsInAnyOrder : Prop :=
  ∀ (x : Word) (xs : List Word) (s : State),
    ∃ r, exec (.fnAdd32 x xs) s = .next { s with funcOut := .word r } ∧
      r.toNat = (x.toNat + (xs.map BitVec.toNat).sum) % 2 ^ 32 ∧
      ∀ (y : Word) (ys : List Word), (x :: xs).Perm (y :: ys) →
        exec (.fnAdd32 y ys) s = .next { s with funcOut := .word r }

/-- 42_schedule_expander.md R130 and R131: σ0 and σ1 bit by bit, their corner cases and examples. -/
def Obligations.ScheduleSigmas : Prop :=
  (∀ (x : Word) (s : State),
    (∃ r, exec (.fnSsig0 x) s = .next { s with funcOut := .word r } ∧ ∀ i : Fin 32,
      r.getLsbD i.val =
        ((x.getLsbD ((i.val + 7) % 32) ^^ x.getLsbD ((i.val + 18) % 32)) ^^ (decide (i.val + 3 < 32) && x.getLsbD (i.val + 3)))) ∧
    (∃ r, exec (.fnSsig1 x) s = .next { s with funcOut := .word r } ∧ ∀ i : Fin 32,
      r.getLsbD i.val =
        ((x.getLsbD ((i.val + 17) % 32) ^^ x.getLsbD ((i.val + 19) % 32)) ^^ (decide (i.val + 10 < 32) && x.getLsbD (i.val + 10))))) ∧
  (∀ x y : Word, ssig0 (x ^^^ y) = ssig0 x ^^^ ssig0 y ∧ ssig1 (x ^^^ y) = ssig1 x ^^^ ssig1 y) ∧
  (∀ x : Word, (ssig0 x).extractLsb' 29 3 = x.extractLsb' 4 3 ^^^ x.extractLsb' 15 3) ∧
  ssig0 0 = 0 ∧ ssig0 0xFFFFFFFF = 0x1FFFFFFF ∧ ssig0 0x12345678 = 0xe7fce6ee ∧ ssig0 0x00000001 = 0x02004000 ∧
  ssig1 0 = 0 ∧ ssig1 0xFFFFFFFF = 0x003FFFFF ∧ ssig1 0x12345678 = 0xa1f78649 ∧ ssig1 0x80000000 = 0x00205000

/-- 43_compressor.md R151 and R152: Σ0 and Σ1 bit by bit, that Σ0 is a bijection and linear over XOR, their corner cases
and examples. -/
def Obligations.CompressorSigmas : Prop :=
  (∀ (x : Word) (s : State),
    (∃ r, exec (.fnBsig0 x) s = .next { s with funcOut := .word r } ∧ ∀ i : Fin 32,
      r.getLsbD i.val =
        ((x.getLsbD ((i.val + 2) % 32) ^^ x.getLsbD ((i.val + 13) % 32)) ^^ x.getLsbD ((i.val + 22) % 32))) ∧
    (∃ r, exec (.fnBsig1 x) s = .next { s with funcOut := .word r } ∧ ∀ i : Fin 32,
      r.getLsbD i.val =
        ((x.getLsbD ((i.val + 6) % 32) ^^ x.getLsbD ((i.val + 11) % 32)) ^^ x.getLsbD ((i.val + 25) % 32)))) ∧
  (∀ x y : Word, bsig0 (x ^^^ y) = bsig0 x ^^^ bsig0 y) ∧ Function.Bijective bsig0 ∧
  bsig0 0 = 0 ∧ bsig0 0xFFFFFFFF = 0xFFFFFFFF ∧ bsig0 0x6a09e667 = 0xce20b47e ∧ bsig0 0x00000001 = 0x40080400 ∧
  bsig1 0 = 0 ∧ bsig1 0xFFFFFFFF = 0xFFFFFFFF ∧ bsig1 0x510e527f = 0x3587272b ∧ bsig1 0x80000000 = 0x02100040

/-- 43_compressor.md R153 and R154: Ch chooses and Maj takes the majority, bit by bit, with their corner cases and
examples. -/
def Obligations.ChooseAndMajority : Prop :=
  (∀ (e f g : Word) (s : State),
    ∃ r, exec (.fnCh e f g) s = .next { s with funcOut := .word r } ∧
      ∀ i : Fin 32, r.getLsbD i.val = if e.getLsbD i.val = true then f.getLsbD i.val else g.getLsbD i.val) ∧
  (∀ (a b c : Word) (s : State),
    ∃ r, exec (.fnMaj a b c) s = .next { s with funcOut := .word r } ∧
      ∀ i : Fin 32, r.getLsbD i.val =
        decide (2 ≤ (a.getLsbD i.val).toNat + (b.getLsbD i.val).toNat + (c.getLsbD i.val).toNat)) ∧
  (∀ x y z : Word, ch 0xFFFFFFFF y z = y ∧ ch 0 y z = z ∧ ch x y y = y ∧
    maj x x y = x ∧ maj 0xFFFFFFFF 0 z = z ∧ maj x y z = maj y x z ∧ maj x y z = maj x z y) ∧
  ch 0x510e527f 0x9b05688c 0x1f83d9ab = 0x1f85c98c ∧ ch 0xff00ff00 0x12345678 0x9abcdef0 = 0x12bc56f0 ∧
  maj 0x6a09e667 0xbb67ae85 0x3c6ef372 = 0x3a6fe667 ∧ maj 0xf0f0f0f0 0xcccccccc 0xaaaaaaaa = 0xe8e8e8e8

/-- 40_padder.md R100 to R103: pad(M) is M, 0x80, Z = (55 − L) mod 64 zero bytes and the big-endian 8·L, and is
N = floor((L + 8)/64) + 1 blocks long. -/
def Obligations.PadAppendsTheRule : Prop :=
  ∀ (m : List Byte) (s : State), m.length < 2 ^ 61 →
    ∃ p, exec (.fnPad m) s = .next { s with funcOut := .bytes p } ∧
      p = m ++ [0x80] ++ List.replicate ((55 + 63 * m.length) % 64) 0x00 ++
        (List.range 8).map (fun k => BitVec.ofNat 8 (8 * m.length / 2 ^ (8 * (7 - k)))) ∧
      8 * p.length % 512 = 0 ∧ p.length = 64 * ((m.length + 8) / 64 + 1) ∧
      (∀ q, 8 * m.length + 1 + 64 ≤ 512 * q → 8 * p.length ≤ 512 * q)

/-- 40_padder.md R104: pad is defined only for L < 2^61; a longer message fails with a signalled error, which the model
gives as a fault by name (log 8). -/
def Obligations.OverlongPadFaults : Prop :=
  ∀ (m : List Byte) (s : State), 2 ^ 61 ≤ m.length → exec (.fnPad m) s = .fault .lengthOverflow

/-- 41_block_splitter.md R120 and R121: the blocks are 64 bytes each, in order, with no remainder. -/
def Obligations.SplitPartitionsExactly : Prop :=
  ∀ (p : List Byte) (s : State), p.length % 64 = 0 →
    ∃ bs, exec (.fnSplit p) s = .next { s with funcOut := .blocks bs } ∧
      bs.length = p.length / 64 ∧ (bs.map Vector.toList).flatten = p

/-- 41_block_splitter.md R120 states no result for a length that is no multiple of 64; that split runs there too, with
a free value for its blocks, is the model's choice (log 8). -/
def Obligations.SplitRunsOutsideItsDomain : Prop :=
  ∀ (p : List Byte) (s : State), p.length % 64 ≠ 0 →
    ∃ bs, exec (.fnSplit p) s = .next { s with funcOut := .blocks bs }

/-- 42_schedule_expander.md R135, R136 and R138: expand(B). -/
def Obligations.ExpandFunctionRecurrence : Prop :=
  ∀ (B : Block) (s : State),
    ∃ W : Schedule, exec (.fnExpand B) s = .next { s with funcOut := .schedule W } ∧
      (∀ j : Fin 16, W[j.val] = B[4 * j.val] ++ B[4 * j.val + 1] ++ B[4 * j.val + 2] ++ B[4 * j.val + 3]) ∧
      (∀ k : Fin 48, W[k.val + 16] = W[k.val] + ssig0 W[k.val + 1] + W[k.val + 9] + ssig1 W[k.val + 14])

/-- 43_compressor.md R159: compress(S, W) seeds the registers from S and applies 64 rounds in order; it does not add S
back. -/
def Obligations.CompressRunsSixtyFourRounds : Prop :=
  ∀ (S : HashState) (W : Schedule) (s : State),
    ∃ r : List HashState, r.length = 65 ∧ r[0]? = some S ∧
      (∀ (t : Fin 64) (x y : HashState), r[t.val]? = some x → r[t.val + 1]? = some y →
        let T1 := x[7] + bsig1 x[4] + ch x[4] x[5] x[6] + Config.K[t.val] + W[t.val]
        let T2 := bsig0 x[0] + maj x[0] x[1] x[2]
        y = #v[T1 + T2, x[0], x[1], x[2], x[3] + T1, x[4], x[5], x[6]]) ∧
      ∃ z, r[64]? = some z ∧ exec (.fnCompress S W) s = .next { s with funcOut := .hashState z }

/-- 44_accumulator_digest.md R180 and R183: accumulate adds lane by lane, and assemble concatenates the big-endian bytes
of the words. -/
def Obligations.AccumulateAndAssembleFunctions : Prop :=
  (∀ (S Rw : HashState) (s : State),
    ∃ S' : HashState, exec (.fnAccumulate S Rw) s = .next { s with funcOut := .hashState S' } ∧
      ∀ k : Fin 8, S'[k.val] = S[k.val] + Rw[k.val]) ∧
  (∀ (S : HashState) (s : State),
    ∃ D : Digest, exec (.fnAssemble S) s = .next { s with funcOut := .digest D } ∧
      ∀ (k : Fin 8) (j : Fin 4), D[4 * k.val + j.val] = (S[k.val]).extractLsb' (24 - 8 * j.val) 8)

/-- The model's own fields stay out of the machine: no step writes MAX_MSG_BYTES or funcOut, and the registers after a
step do not depend on funcOut. That the two fields exist is the model's choice (log 3, log 7). -/
def Obligations.ModelFieldsStayOut : Prop :=
  ∀ s s' : State, step s = .next s' →
    s'.cfg = s.cfg ∧ s'.funcOut = s.funcOut ∧
    ∀ v : FuncValue, step { s with funcOut := v } = .next { s' with funcOut := v }

/-- 44_accumulator_digest.md R189: the source's known vectors. -/
def Obligations.KnownVectors : Prop :=
  hexDigest (Machine.hash []) = "e3b0c44298fc1c149afbf4c8996fb92427ae41e4649b934ca495991b7852b855".toList ∧
  hexDigest (Machine.hash [0x61, 0x62, 0x63]) = "ba7816bf8f01cfea414140de5dae2223b00361a396177a9cb410ff61f20015ad".toList

/-! ## Invariants and whole-machine rules -/

/-- The state after reset meets the invariants of 10_state.md R46. -/
def Obligations.InvariantsAtReset : Prop := Inv State.reset

/-- 10_state.md R46, items 1 to 8: every step from a state that meets the invariants answers a next state, and that state
meets them; a step never faults and never refuses there. -/
def Obligations.EveryStepKeepsTheInvariants : Prop :=
  ∀ s : State, Inv s → ∃ s', step s = .next s' ∧ Inv s'

/-- 10_state.md R46 item 9: from IDLE, while no legal INIT is presented, the core stays in IDLE and ERROR, over any number
of steps and resets. -/
def Obligations.OnlyInitOpensAJob : Prop :=
  ∀ (n : Nat) (s : State), s.phase = .idle →
    (∀ w, some w ∈ s.cmdIn → ¬(legal w = true ∧ opField w = 1)) →
    ∃ s', runSteps n s = .next s' ∧ (s'.phase = .idle ∨ s'.phase = .error)

/-- 41_block_splitter.md R124 and 70_reset_and_hazards.md R270: a block's EXPAND, its 64 ROUNDs and its ACCUM take 66
steps, the core is busy before each of them, and they leave H with the block added by R187's fold and BLK, the counters,
D and cause as they were. -/
def Obligations.BlockCompressesInSixtySixSteps : Prop :=
  ∀ s : State, s.phase = .expand → (∀ x ∈ s.rstIn, x = false) →
    ∃ s', runSteps 66 s = .next s' ∧
      s'.H = accumulate s.H (compress s.H (expand s.BLK)) ∧
      (s.pstage = .msg → s'.phase = .absorb) ∧ (s.pstage = .pending → s'.phase = .pad) ∧
      (s.pstage = .last → s'.phase = .assemble) ∧
      s'.BLK = s.BLK ∧ s'.blen = s.blen ∧ s'.L = s.L ∧ s'.pstage = s.pstage ∧ s'.D = s.D ∧ s'.cause = s.cause ∧
      (∀ k, k < 66 → ∃ q, runSteps k s = .next q ∧ busy q = true ∧ cmdReady q = false)

/-- 70_reset_and_hazards.md R271: a busy period ends within 135 Core micro-operations, from every busy state that meets
the invariants, if no reset cuts it short. -/
def Obligations.BusyPeriodEnds : Prop :=
  ∀ s : State, Inv s → busy s = true → (∀ x ∈ s.rstIn, x = false) →
    ∃ n s', n ≤ 135 ∧ runSteps n s = .next s' ∧ (s'.phase = .absorb ∨ s'.phase = .done) ∧
      ∀ k, k < n → ∃ q, runSteps k s = .next q ∧ busy q = true

/-- 45_host_commands.md R203: an accepted INIT opens a job that has absorbed nothing. -/
def Obligations.InitOpensTheEmptyJob : Prop :=
  ∀ (data : Byte) (s s' : State), cmdReady s = true → exec (.init data) s = .next s' → InJob [] s'

/-- 10_state.md R46 item 10 and 40_padder.md R110: every step keeps the state of a job in agreement with the functional
definition. H is state_n for the bytes absorbed, BLK holds the unfinished block, the block that EXPAND reads is the next
one of split(pad(M)), the working registers are those of the rounds done, and in DONE the digest is hash(M). -/
def Obligations.EveryStepTracksTheJob : Prop :=
  ∀ (m : List Byte) (s s' : State), InJob m s → rst s = false → step s = .next s' →
    InJob (absorbedAfter m s) s'

/-- 44_accumulator_digest.md R188: from any quiescent state, if the Host presents INIT, a WRITE for each byte of M and
FINISH, with any pauses between them, and no reset comes, the core reaches DONE with cause = 0 and D = hash(M), every
word of the job taken. It raises no error on the way: a state in ERROR before DONE is the one it started in. -/
def Obligations.HardwareComputesHash : Prop :=
  ∀ (m : List Byte) (s : State) (job rest : List (Option CmdWord)),
    cmdReady s = true → (∀ x ∈ s.rstIn, x = false) → m.length ≤ s.cfg.maxMsgBytes.toNat →
    s.cmdIn = job ++ rest → job.reduceOption = jobWords m →
    ∃ n s', runSteps n s = .next s' ∧ s'.phase = .done ∧ s'.cause = .none ∧ s'.D = Machine.hash m ∧
      (∃ pauses, rest = pauses ++ s'.cmdIn ∧ ∀ x ∈ pauses, x = none) ∧
      ∀ k, k ≤ n → ∃ q, runSteps k s = .next q ∧
        (q.phase = .error → { q with cmdIn := s.cmdIn, rstIn := s.rstIn } = s)

/-- 70_reset_and_hazards.md R270: a whole job of L bytes, presented without pauses, takes one step for each of its L + 2
words and 66·N + P + 1 Core micro-operations, N = floor((L + 8)/64) + 1 blocks and P = 1 or 2 PAD steps. -/
def Obligations.JobTakesCountedSteps : Prop :=
  ∀ (m : List Byte) (s : State) (rest : List (Option CmdWord)),
    cmdReady s = true → (∀ x ∈ s.rstIn, x = false) → m.length ≤ s.cfg.maxMsgBytes.toNat →
    s.cmdIn = present (jobWords m) ++ rest →
    ∃ s' , runSteps
        (m.length + 2 + (66 * ((m.length + 8) / 64 + 1) + (if m.length % 64 ≤ 55 then 1 else 2) + 1)) s = .next s' ∧
      s'.phase = .done ∧ s'.D = Machine.hash m ∧
      ∀ k, k < m.length + 2 + (66 * ((m.length + 8) / 64 + 1) + (if m.length % 64 ≤ 55 then 1 else 2) + 1) →
        ∃ q, runSteps k s = .next q ∧ (1 ≤ k → q.phase ≠ .done)

/-- 10_state.md R44 and R45: outside a job no output depends on a hidden register. Two states that agree on phase, cause
and D, on the ports and on MAX_MSG_BYTES, in IDLE, DONE or ERROR, and differ in any way in H, a..h, W, BLK, blen, L,
pstage and t, show the same outputs after any number of steps. -/
def Obligations.HiddenRegistersAreUnobservable : Prop :=
  ∀ (s r : State) (n : Nat), s.phase = .idle ∨ s.phase = .done ∨ s.phase = .error →
    r.phase = s.phase → r.cause = s.cause → r.D = s.D → r.cmdIn = s.cmdIn → r.rstIn = s.rstIn → r.cfg = s.cfg →
    observed (runSteps n r) = observed (runSteps n s)
end

