-- ==== Sys2Proof/Laws/Encoding.lean ====
section
/-! SUPPORT. The fields and the bits of a command word that is written from its fields (30_encoding.md R80). -/

namespace Sys2Proof

theorem commandWord_getLsbD (op rsv : BitVec 4) (data : Byte) (i : Nat) (hi : i < 16) :
    (commandWord op rsv data).getLsbD i =
      if i < 8 then data.getLsbD i else if i < 12 then rsv.getLsbD (i - 8) else op.getLsbD (i - 12) := by
  unfold commandWord
  rw [BitVec.getLsbD_append]
  by_cases h : i < 8
  · simp [h]
  · rw [BitVec.getLsbD_append]
    by_cases h' : i < 12
    · have : i - 8 < 4 := by omega
      simp [h, h', this]
    · have : ¬ i - 8 < 4 := by omega
      simp [h, h', this, Nat.sub_sub]

@[simp] theorem opField_commandWord (op rsv : BitVec 4) (data : Byte) : opField (commandWord op rsv data) = op := by
  apply BitVec.eq_of_getLsbD_eq
  intro i hi
  have h : 12 + i < 16 := by omega
  simp only [opField, BitVec.getLsbD_extractLsb', hi, decide_true, Bool.true_and, commandWord_getLsbD _ _ _ _ h]
  simp; omega

@[simp] theorem rsvField_commandWord (op rsv : BitVec 4) (data : Byte) : rsvField (commandWord op rsv data) = rsv := by
  apply BitVec.eq_of_getLsbD_eq
  intro i hi
  have h : 8 + i < 16 := by omega
  have h' : 8 + i < 12 := by omega
  simp only [rsvField, BitVec.getLsbD_extractLsb', hi, decide_true, Bool.true_and, commandWord_getLsbD _ _ _ _ h, h']
  simp

@[simp] theorem dataField_commandWord (op rsv : BitVec 4) (data : Byte) :
    dataField (commandWord op rsv data) = data := by
  apply BitVec.eq_of_getLsbD_eq
  intro i hi
  have h : i < 16 := by omega
  simp only [dataField, BitVec.getLsbD_extractLsb', hi, decide_true, Bool.true_and, Nat.zero_add,
    commandWord_getLsbD _ _ _ _ h, if_true]

/-- A command word is its three fields (30_encoding.md R80). -/
theorem commandWord_fields (w : CmdWord) : commandWord (opField w) (rsvField w) (dataField w) = w := by
  apply BitVec.eq_of_getLsbD_eq
  intro i hi
  rw [commandWord_getLsbD _ _ _ _ hi]
  by_cases h : i < 8
  · simp [h, dataField]
  · by_cases h' : i < 12
    · have h1 : i - 8 < 4 := by omega
      have h2 : 8 + (i - 8) = i := by omega
      simp [h, h', rsvField, h1, h2]
    · have h1 : i - 12 < 4 := by omega
      have h2 : 12 + (i - 12) = i := by omega
      simp [h, h', opField, h1, h2]

/-- The bits of the fields, which the ILLEGAL rows are told apart by. -/
theorem extractLsb'_commandWord_op (op rsv : BitVec 4) (data : Byte) (n : Nat) :
    (commandWord op rsv data).extractLsb' 12 n = op.extractLsb' 0 n := by
  apply BitVec.eq_of_getLsbD_eq
  intro i hi
  by_cases h : 12 + i < 16
  · simp only [BitVec.getLsbD_extractLsb', hi, decide_true, Bool.true_and, commandWord_getLsbD _ _ _ _ h]
    simp; omega
  · rw [BitVec.getLsbD_extractLsb', BitVec.getLsbD_extractLsb', BitVec.getLsbD_of_ge _ _ (by omega),
      BitVec.getLsbD_of_ge op _ (by omega)]

theorem extractLsb'_commandWord_rsv (op rsv : BitVec 4) (data : Byte) (k n : Nat) (h : k + n ≤ 4) :
    (commandWord op rsv data).extractLsb' (8 + k) n = rsv.extractLsb' k n := by
  apply BitVec.eq_of_getLsbD_eq
  intro i hi
  have h1 : 8 + k + i < 16 := by omega
  have h2 : 8 + k + i < 12 := by omega
  have h3 : 8 + k + i - 8 = k + i := by omega
  simp only [BitVec.getLsbD_extractLsb', hi, decide_true, Bool.true_and, commandWord_getLsbD _ _ _ _ h1, h2, h3]
  simp; omega

theorem legal_commandWord (op rsv : BitVec 4) (data : Byte) :
    legal (commandWord op rsv data) = (decide (op.toNat ≤ 3) && decide (rsv = 0)) := by
  simp [legal]

theorem legal_iff (w : CmdWord) : legal w = true ↔ (opField w).toNat ≤ 3 ∧ rsvField w = 0 := by
  simp [legal]

/-- The ILLEGAL row of a word, by its fields. -/
theorem decodeIllegal_commandWord (op rsv : BitVec 4) (data : Byte) :
    decodeIllegal (commandWord op rsv data) =
      if op.getLsbD 3 = false ∧ op.getLsbD 2 = true then .illegalOp4to7 (op.extractLsb' 0 2) rsv data
      else if op.getLsbD 3 = true then .illegalOp8to15 (op.extractLsb' 0 3) rsv data
      else if rsv.getLsbD 0 = true then .illegalRsv8 (op.extractLsb' 0 2) (rsv.extractLsb' 1 3) data
      else if rsv.getLsbD 1 = true then .illegalRsv9 (op.extractLsb' 0 2) (rsv.extractLsb' 2 2) data
      else if rsv.getLsbD 2 = true then .illegalRsv10 (op.extractLsb' 0 2) (rsv.extractLsb' 3 1) data
      else .illegalRsv11 (op.extractLsb' 0 2) data := by
  have e1 := extractLsb'_commandWord_rsv op rsv data 1 3 (by omega)
  have e2 := extractLsb'_commandWord_rsv op rsv data 2 2 (by omega)
  have e3 := extractLsb'_commandWord_rsv op rsv data 3 1 (by omega)
  unfold decodeIllegal
  simp only [rsvField_commandWord, dataField_commandWord, extractLsb'_commandWord_op]
  rw [commandWord_getLsbD _ _ _ _ (by omega), commandWord_getLsbD _ _ _ _ (by omega),
    commandWord_getLsbD _ _ _ _ (by omega), commandWord_getLsbD _ _ _ _ (by omega),
    commandWord_getLsbD _ _ _ _ (by omega)]
  simp_all

end Sys2Proof
end

