-- ==== Sys2Proof/Laws/Functions.lean ====
section
/-! SUPPORT. One specification lemma for each function of the core, so that no proof unfolds one. -/

namespace Sys2Proof.Machine

/-! ## add32 -/

@[simp] theorem add32_nil : add32 [] = 0 := rfl

@[simp] theorem add32_cons (x : Word) (xs : List Word) : add32 (x :: xs) = x + add32 xs := by
  apply BitVec.eq_of_toNat_eq
  simp [add32, BitVec.toNat_add]

/-! ## rotr and shr -/

theorem rotr_getLsbD (x : Word) (n : Nat) (hn : n < 32) (i : Nat) (hi : i < 32) :
    (rotr x n).getLsbD i = x.getLsbD ((i + n) % 32) := by
  unfold rotr
  simp only [BitVec.getLsbD_or, BitVec.getLsbD_ushiftRight, BitVec.getLsbD_shiftLeft, hi, decide_true, Bool.true_and]
  by_cases h : i + n < 32
  · rw [Nat.mod_eq_of_lt h, Nat.add_comm n i]
    have : i < 32 - n := by omega
    simp [this]
  · have h1 : ¬ i < 32 - n := by omega
    have h2 : (i + n) % 32 = i - (32 - n) := by omega
    rw [h2, BitVec.getLsbD_of_ge x (n + i) (by omega)]
    simp [h1]

theorem shr_getLsbD (x : Word) (n i : Nat) : (shr x n).getLsbD i = x.getLsbD (i + n) := by
  unfold shr
  rw [BitVec.getLsbD_ushiftRight, Nat.add_comm]

/-! ## The round constants -/

/-- A round constant by the row and the column of its table. -/
theorem K_getElem (t : Nat) (ht : t < 64) :
    Config.K[t] = (Config.kRows[t / 8]'(by omega)).extractLsb' (32 * (7 - t % 8)) 32 := by
  unfold Config.K
  rw [Vector.getElem_ofFn]

/-! ## Vectors built by position -/

theorem padFirstBlock_getElem (blk : Block) (blen : BitVec 6) (L : BitVec 61) (j : Nat) (hj : j < 64) :
    (padFirstBlock blk blen L)[j] =
      if j < blen.toNat then blk[j]
      else if j = blen.toNat then 0x80
      else if 56 ≤ j ∧ blen.toNat ≤ 55 then be64Byte (lengthField L.toNat) (j - 56)
      else 0x00 := by
  unfold padFirstBlock
  rw [Vector.getElem_ofFn]

theorem padSecondBlock_getElem (L : BitVec 61) (j : Nat) (hj : j < 64) :
    (padSecondBlock L)[j] = if j < 56 then 0x00 else be64Byte (lengthField L.toNat) (j - 56) := by
  unfold padSecondBlock
  rw [Vector.getElem_ofFn]

theorem blockAt_getElem (p : List Byte) (n j : Nat) (hj : j < 64) :
    (blockAt p n)[j] = p[64 * n + j]?.getD 0 := by
  unfold blockAt
  rw [Vector.getElem_ofFn]

theorem nativeWords_getElem (B : Block) (j : Nat) (hj : j < 16) :
    (nativeWords B)[j]'(by omega) =
      be32 (B[4 * j]'(by omega)) (B[4 * j + 1]'(by omega)) (B[4 * j + 2]'(by omega)) (B[4 * j + 3]'(by omega)) := by
  unfold nativeWords
  rw [Vector.getElem_ofFn]
  simp [hj]

theorem accumulate_getElem (S R : HashState) (k : Nat) (hk : k < 8) : (accumulate S R)[k] = S[k] + R[k] := by
  unfold accumulate
  rw [Vector.getElem_ofFn]
  simp

theorem assemble_getElem (S : HashState) (i : Nat) (hi : i < 32) :
    (assemble S)[i] = wordByte (S[i / 4]'(by omega)) (i % 4) := by
  unfold assemble
  rw [Vector.getElem_ofFn]

/-! ## The schedule -/

theorem expandUpTo_getElem_done (B : Block) (n j : Nat) (hj : j < 64) (hjn : j < n + 16) :
    (expandUpTo B (n + 1))[j] = (expandUpTo B n)[j] := by
  simp only [expandUpTo]
  split
  · rw [Vector.getElem_set_ne]; omega
  · rfl

theorem expandUpTo_getElem_new (B : Block) (n : Nat) (hn : n < 48) :
    (expandUpTo B (n + 1))[n + 16]'(by omega) =
      (expandUpTo B n)[n]'(by omega) + ssig0 ((expandUpTo B n)[n + 1]'(by omega)) +
        (expandUpTo B n)[n + 9]'(by omega) + ssig1 ((expandUpTo B n)[n + 14]'(by omega)) := by
  have h : n + 16 < 64 := by omega
  simp only [expandUpTo, h, dite_true, Vector.getElem_set_self]
  simp [BitVec.add_assoc]

/-- A word computed by step n is never written again. -/
theorem expandUpTo_getElem_le (B : Block) (n m j : Nat) (hnm : n ≤ m) (hj : j < 64) (hjn : j < n + 16) :
    (expandUpTo B m)[j] = (expandUpTo B n)[j] := by
  induction m, hnm using Nat.le_induction with
  | base => rfl
  | succ m hm ih => rw [expandUpTo_getElem_done B m j hj (by omega), ih]

/-- The words 0 to 15 of expand(B) (42_schedule_expander.md R135). -/
theorem expand_getElem_native (B : Block) (j : Nat) (hj : j < 16) :
    (expand B)[j]'(by omega) =
      be32 (B[4 * j]'(by omega)) (B[4 * j + 1]'(by omega)) (B[4 * j + 2]'(by omega)) (B[4 * j + 3]'(by omega)) := by
  unfold expand
  rw [expandUpTo_getElem_le B 0 48 j (by omega) (by omega) (by omega)]
  exact nativeWords_getElem B j hj

/-- The words 16 to 63 of expand(B) (42_schedule_expander.md R136). -/
theorem expand_getElem_recurrence (B : Block) (n : Nat) (hn : n < 48) :
    (expand B)[n + 16]'(by omega) =
      (expand B)[n]'(by omega) + ssig0 ((expand B)[n + 1]'(by omega)) + (expand B)[n + 9]'(by omega) +
        ssig1 ((expand B)[n + 14]'(by omega)) := by
  unfold expand
  rw [expandUpTo_getElem_le B (n + 1) 48 (n + 16) (by omega) (by omega) (by omega), expandUpTo_getElem_new B n hn,
    expandUpTo_getElem_le B n 48 n (by omega) (by omega) (by omega),
    expandUpTo_getElem_le B n 48 (n + 1) (by omega) (by omega) (by omega),
    expandUpTo_getElem_le B n 48 (n + 9) (by omega) (by omega) (by omega),
    expandUpTo_getElem_le B n 48 (n + 14) (by omega) (by omega) (by omega)]

/-! ## The rounds -/

theorem t1_eq (r : HashState) (W : Schedule) (t : BitVec 6) :
    t1 r W t = r[7] + bsig1 r[4] + ch r[4] r[5] r[6] + Config.K[t.toNat]'t.isLt + W[t.toNat]'t.isLt := by
  simp [t1, kWord, wWord, BitVec.add_assoc]

theorem t2_eq (r : HashState) : t2 r = bsig0 r[0] + maj r[0] r[1] r[2] := by simp [t2]

@[simp] theorem compressUpTo_zero (S : HashState) (W : Schedule) : compressUpTo S W 0 = S := rfl

theorem compressUpTo_succ (S : HashState) (W : Schedule) (n : Nat) :
    compressUpTo S W (n + 1) = roundRegs W (BitVec.ofNat 6 n) (compressUpTo S W n) := rfl

/-! ## The padder and the splitter -/

/-- Step 2 of pad appends (55 − L) mod 64 zeros to L + 1 bytes (40_padder.md R103). -/
theorem zeroFill_eq (n : Nat) (p : List Byte) (h : (120 - p.length % 64) % 64 ≤ n) :
    zeroFill n p = p ++ List.replicate ((120 - p.length % 64) % 64) 0x00 := by
  induction n generalizing p with
  | zero =>
    have : (120 - p.length % 64) % 64 = 0 := by omega
    simp [zeroFill, this]
  | succ n ih =>
    unfold zeroFill
    split
    · have : (120 - p.length % 64) % 64 = 0 := by omega
      simp [this]
    · have h1 : (120 - p.length % 64) % 64 = (120 - (p.length + 1) % 64) % 64 + 1 := by omega
      rw [ih _ (by simp; omega)]
      simp only [List.length_append, List.length_cons, List.length_nil, Nat.zero_add]
      rw [h1, List.replicate_succ, List.append_assoc]
      rfl

/-- The number Z of zero bytes that pad appends (40_padder.md R103). -/
def zeroCount (L : Nat) : Nat := (55 + 63 * L) % 64

/-- pad(M) as one expression (40_padder.md R102, R103). -/
theorem pad_eq (m : List Byte) :
    pad m = m ++ [0x80] ++ List.replicate (zeroCount m.length) 0x00 ++ be64 (lengthField m.length) := by
  unfold pad zeroCount
  rw [zeroFill_eq 64 _ (by omega)]
  have : (120 - (m ++ [(0x80 : Byte)]).length % 64) % 64 = (55 + 63 * m.length) % 64 := by
    simp; omega
  rw [this]

@[simp] theorem be64_length (v : BitVec 64) : (be64 v).length = 8 := by simp [be64]

theorem be64_getElem? (v : BitVec 64) (k : Nat) (hk : k < 8) : (be64 v)[k]? = some (be64Byte v k) := by
  simp [be64, hk]

/-- The padded length (40_padder.md R101). -/
theorem pad_length (m : List Byte) : (pad m).length = 64 * ((m.length + 8) / 64 + 1) := by
  rw [pad_eq]; simp [zeroCount]; omega

theorem split_length (p : List Byte) : (split p).length = p.length / 64 := by simp [split]

theorem split_getElem? (p : List Byte) (n : Nat) (hn : n < p.length / 64) : (split p)[n]? = some (blockAt p n) := by
  simp [split, hn]

/-- The bytes of the padded message, by position (40_padder.md R102). -/
theorem pad_getElem? (m : List Byte) (i : Nat) (hi : i < (pad m).length) :
    (pad m)[i]? =
      if h : i < m.length then some m[i]
      else if i = m.length then some 0x80
      else if (pad m).length ≤ i + 8 then some (be64Byte (lengthField m.length) (i + 8 - (pad m).length))
      else some 0x00 := by
  have hl := pad_length m
  have hz : zeroCount m.length = 64 * ((m.length + 8) / 64 + 1) - m.length - 9 := by unfold zeroCount; omega
  rw [hl] at hi ⊢
  rw [pad_eq]
  split
  · rename_i h
    rw [List.getElem?_append_left (by simp; omega), List.getElem?_append_left (by simp; omega),
      List.getElem?_append_left h, List.getElem?_eq_getElem h]
  · split
    · rename_i h h'
      subst h'
      rw [List.getElem?_append_left (by simp), List.getElem?_append_left (by simp)]
      simp
    · split
      · rename_i h h' h''
        rw [List.getElem?_append_right (by simp; omega)]
        simp only [List.length_append, List.length_cons, List.length_nil, List.length_replicate, hz]
        rw [be64_getElem? _ _ (by omega)]
        congr 2; omega
      · rename_i h h' h''
        rw [List.getElem?_append_left (by simp; omega), List.getElem?_append_right (by simp; omega)]
        rw [List.getElem?_replicate]
        simp; omega

/-! ## The fold -/

theorem foldBlocks_append (bs : List Block) (B : Block) : foldBlocks (bs ++ [B]) = blockStep (foldBlocks bs) B := by
  simp [foldBlocks]

@[simp] theorem hashStateAfter_zero (m : List Byte) : hashStateAfter m 0 = ivWords := rfl

/-- state_{n+1} from state_n and the block n (44_accumulator_digest.md R187). -/
theorem hashStateAfter_succ (m : List Byte) (n : Nat) (B : Block) (h : (split (pad m))[n]? = some B) :
    hashStateAfter m (n + 1) = accumulate (hashStateAfter m n) (compress (hashStateAfter m n) (expand B)) := by
  unfold hashStateAfter
  rw [List.take_add_one, h]
  exact foldBlocks_append _ _

theorem hash_eq (m : List Byte) : hash m = assemble (hashStateAfter m ((m.length + 8) / 64 + 1)) := by
  unfold hash hashStateAfter
  rw [List.take_of_length_le]
  rw [split_length, pad_length]; omega

/-! ## The blocks of a padded message -/

/-- A block as a piece of the byte sequence. -/
theorem blockAt_toList (p : List Byte) (n : Nat) (h : 64 * n + 64 ≤ p.length) : (blockAt p n).toList = (p.drop (64 * n)).take 64 := by
  apply List.ext_getElem
  · rw [Vector.length_toList, List.length_take, List.length_drop]; omega
  · intro i h1 h2
    rw [Vector.length_toList] at h1
    rw [Vector.getElem_toList, blockAt_getElem _ _ _ h1, List.getElem_take, List.getElem_drop, List.getElem?_eq_getElem (by omega)]
    rfl

theorem lt_split_pad_length (m : List Byte) (n : Nat) (hn : n ≤ (m.length + 8) / 64) : n < (pad m).length / 64 := by
  rw [pad_length]; omega

/-- A block of the padded message that lies in the message itself. -/
theorem split_pad_message (m : List Byte) (n : Nat) (hn : 64 * n + 64 ≤ m.length) (B : Block)
    (hB : ∀ j : Fin 64, m[64 * n + j.val]? = some B[j.val]) : (split (pad m))[n]? = some B := by
  rw [split_getElem? _ _ (lt_split_pad_length m n (by omega))]
  refine congrArg _ ?_
  apply Vector.ext; intro j hj
  rw [blockAt_getElem _ _ _ hj, pad_getElem? _ _ (by rw [pad_length]; omega), dif_pos (by omega)]
  have := hB ⟨j, hj⟩
  rw [List.getElem?_eq_getElem (by simp; omega)] at this
  simpa using this

/-- state_n depends on the first n blocks alone. -/
theorem hashStateAfter_congr (m m' : List Byte) (n : Nat) (h : ∀ k, k < n → (split (pad m))[k]? = (split (pad m'))[k]?) :
    hashStateAfter m n = hashStateAfter m' n := by
  unfold hashStateAfter
  refine congrArg _ ?_
  apply List.ext_getElem?
  intro i
  by_cases hi : i < n
  · rw [List.getElem?_take_of_lt hi, List.getElem?_take_of_lt hi, h i hi]
  · rw [List.getElem?_take, List.getElem?_take, if_neg hi, if_neg hi]

/-- One more byte changes no block that is already full. -/
theorem hashStateAfter_snoc (m : List Byte) (b : Byte) (n : Nat) (h : n ≤ m.length / 64) :
    hashStateAfter (m ++ [b]) n = hashStateAfter m n := by
  apply hashStateAfter_congr
  intro k hk
  have : ∀ j : Fin 64, 64 * k + j.val < m.length := by intro j; omega
  rw [split_pad_message m k (by omega) (blockAt (pad m) k)]
  · apply split_pad_message (m ++ [b]) k (by simp; omega)
    intro j
    rw [List.getElem?_append_left (this j), blockAt_getElem _ _ _ j.isLt, pad_getElem? _ _ (by rw [pad_length]; have := this j; omega), dif_pos (this j), List.getElem?_eq_getElem (this j)]; rfl
  · intro j
    rw [blockAt_getElem _ _ _ j.isLt, pad_getElem? _ _ (by rw [pad_length]; have := this j; omega), dif_pos (this j), List.getElem?_eq_getElem (this j)]; rfl

end Sys2Proof.Machine
end

