-- ==== Sys2Proof/Laws/State.lean ====
section
/-! SUPPORT. One lemma per field for each named update of the state, so that no proof unfolds a record update. -/

namespace Sys2Proof.Machine

/-! ## The reset event -/

@[simp] theorem resetRegisters_H (s : State) : (resetRegisters s).H = Vector.replicate 8 0 := rfl
@[simp] theorem resetRegisters_Rw (s : State) : (resetRegisters s).Rw = Vector.replicate 8 0 := rfl
@[simp] theorem resetRegisters_W (s : State) : (resetRegisters s).W = Vector.replicate 64 0 := rfl
@[simp] theorem resetRegisters_BLK (s : State) : (resetRegisters s).BLK = Vector.replicate 64 0 := rfl
@[simp] theorem resetRegisters_blen (s : State) : (resetRegisters s).blen = 0 := rfl
@[simp] theorem resetRegisters_L (s : State) : (resetRegisters s).L = 0 := rfl
@[simp] theorem resetRegisters_pstage (s : State) : (resetRegisters s).pstage = .msg := rfl
@[simp] theorem resetRegisters_t (s : State) : (resetRegisters s).t = 0 := rfl
@[simp] theorem resetRegisters_D (s : State) : (resetRegisters s).D = zeroDigest := rfl
@[simp] theorem resetRegisters_cause (s : State) : (resetRegisters s).cause = .none := rfl
@[simp] theorem resetRegisters_phase (s : State) : (resetRegisters s).phase = .idle := rfl
@[simp] theorem resetRegisters_cmdIn (s : State) : (resetRegisters s).cmdIn = s.cmdIn := rfl
@[simp] theorem resetRegisters_rstIn (s : State) : (resetRegisters s).rstIn = s.rstIn := rfl
@[simp] theorem resetRegisters_cfg (s : State) : (resetRegisters s).cfg = s.cfg := rfl
@[simp] theorem resetRegisters_funcOut (s : State) : (resetRegisters s).funcOut = s.funcOut := rfl

/-! ## raiseError -/

@[simp] theorem raiseError_H (c : Cause) (s : State) : (raiseError c s).H = s.H := rfl
@[simp] theorem raiseError_Rw (c : Cause) (s : State) : (raiseError c s).Rw = s.Rw := rfl
@[simp] theorem raiseError_W (c : Cause) (s : State) : (raiseError c s).W = s.W := rfl
@[simp] theorem raiseError_BLK (c : Cause) (s : State) : (raiseError c s).BLK = s.BLK := rfl
@[simp] theorem raiseError_blen (c : Cause) (s : State) : (raiseError c s).blen = s.blen := rfl
@[simp] theorem raiseError_L (c : Cause) (s : State) : (raiseError c s).L = s.L := rfl
@[simp] theorem raiseError_pstage (c : Cause) (s : State) : (raiseError c s).pstage = s.pstage := rfl
@[simp] theorem raiseError_t (c : Cause) (s : State) : (raiseError c s).t = s.t := rfl
@[simp] theorem raiseError_D (c : Cause) (s : State) : (raiseError c s).D = zeroDigest := rfl
@[simp] theorem raiseError_cause (c : Cause) (s : State) : (raiseError c s).cause = c := rfl
@[simp] theorem raiseError_phase (c : Cause) (s : State) : (raiseError c s).phase = .error := rfl
@[simp] theorem raiseError_cmdIn (c : Cause) (s : State) : (raiseError c s).cmdIn = s.cmdIn := rfl
@[simp] theorem raiseError_rstIn (c : Cause) (s : State) : (raiseError c s).rstIn = s.rstIn := rfl
@[simp] theorem raiseError_cfg (c : Cause) (s : State) : (raiseError c s).cfg = s.cfg := rfl
@[simp] theorem raiseError_funcOut (c : Cause) (s : State) : (raiseError c s).funcOut = s.funcOut := rfl

/-! ## startJob -/

@[simp] theorem startJob_H (s : State) : (startJob s).H = ivWords := rfl
@[simp] theorem startJob_Rw (s : State) : (startJob s).Rw = s.Rw := rfl
@[simp] theorem startJob_W (s : State) : (startJob s).W = s.W := rfl
@[simp] theorem startJob_BLK (s : State) : (startJob s).BLK = s.BLK := rfl
@[simp] theorem startJob_blen (s : State) : (startJob s).blen = 0 := rfl
@[simp] theorem startJob_L (s : State) : (startJob s).L = 0 := rfl
@[simp] theorem startJob_pstage (s : State) : (startJob s).pstage = .msg := rfl
@[simp] theorem startJob_t (s : State) : (startJob s).t = s.t := rfl
@[simp] theorem startJob_D (s : State) : (startJob s).D = zeroDigest := rfl
@[simp] theorem startJob_cause (s : State) : (startJob s).cause = .none := rfl
@[simp] theorem startJob_phase (s : State) : (startJob s).phase = .absorb := rfl
@[simp] theorem startJob_cmdIn (s : State) : (startJob s).cmdIn = s.cmdIn := rfl
@[simp] theorem startJob_rstIn (s : State) : (startJob s).rstIn = s.rstIn := rfl
@[simp] theorem startJob_cfg (s : State) : (startJob s).cfg = s.cfg := rfl
@[simp] theorem startJob_funcOut (s : State) : (startJob s).funcOut = s.funcOut := rfl

/-! ## passPause -/

@[simp] theorem passPause_H (s : State) : (passPause s).H = s.H := rfl
@[simp] theorem passPause_Rw (s : State) : (passPause s).Rw = s.Rw := rfl
@[simp] theorem passPause_W (s : State) : (passPause s).W = s.W := rfl
@[simp] theorem passPause_BLK (s : State) : (passPause s).BLK = s.BLK := rfl
@[simp] theorem passPause_blen (s : State) : (passPause s).blen = s.blen := rfl
@[simp] theorem passPause_L (s : State) : (passPause s).L = s.L := rfl
@[simp] theorem passPause_pstage (s : State) : (passPause s).pstage = s.pstage := rfl
@[simp] theorem passPause_t (s : State) : (passPause s).t = s.t := rfl
@[simp] theorem passPause_D (s : State) : (passPause s).D = s.D := rfl
@[simp] theorem passPause_cause (s : State) : (passPause s).cause = s.cause := rfl
@[simp] theorem passPause_phase (s : State) : (passPause s).phase = s.phase := rfl
@[simp] theorem passPause_cmdIn (s : State) : (passPause s).cmdIn = dropPause s.cmdIn := rfl
@[simp] theorem passPause_rstIn (s : State) : (passPause s).rstIn = s.rstIn := rfl
@[simp] theorem passPause_cfg (s : State) : (passPause s).cfg = s.cfg := rfl
@[simp] theorem passPause_funcOut (s : State) : (passPause s).funcOut = s.funcOut := rfl

/-! ## finishJob -/

@[simp] theorem finishJob_H (s : State) : (finishJob s).H = s.H := rfl
@[simp] theorem finishJob_Rw (s : State) : (finishJob s).Rw = s.Rw := rfl
@[simp] theorem finishJob_W (s : State) : (finishJob s).W = s.W := rfl
@[simp] theorem finishJob_BLK (s : State) : (finishJob s).BLK = s.BLK := rfl
@[simp] theorem finishJob_blen (s : State) : (finishJob s).blen = s.blen := rfl
@[simp] theorem finishJob_L (s : State) : (finishJob s).L = s.L := rfl
@[simp] theorem finishJob_pstage (s : State) : (finishJob s).pstage = s.pstage := rfl
@[simp] theorem finishJob_t (s : State) : (finishJob s).t = s.t := rfl
@[simp] theorem finishJob_D (s : State) : (finishJob s).D = s.D := rfl
@[simp] theorem finishJob_cause (s : State) : (finishJob s).cause = s.cause := rfl
@[simp] theorem finishJob_phase (s : State) : (finishJob s).phase = .pad := rfl
@[simp] theorem finishJob_cmdIn (s : State) : (finishJob s).cmdIn = s.cmdIn := rfl
@[simp] theorem finishJob_rstIn (s : State) : (finishJob s).rstIn = s.rstIn := rfl
@[simp] theorem finishJob_cfg (s : State) : (finishJob s).cfg = s.cfg := rfl
@[simp] theorem finishJob_funcOut (s : State) : (finishJob s).funcOut = s.funcOut := rfl

/-! ## padFirst -/

@[simp] theorem padFirst_H (s : State) : (padFirst s).H = s.H := by simp only [padFirst]
@[simp] theorem padFirst_Rw (s : State) : (padFirst s).Rw = s.Rw := by simp only [padFirst]
@[simp] theorem padFirst_W (s : State) : (padFirst s).W = s.W := by simp only [padFirst]
@[simp] theorem padFirst_BLK (s : State) : (padFirst s).BLK = padFirstBlock s.BLK s.blen s.L := by simp only [padFirst]
@[simp] theorem padFirst_blen (s : State) : (padFirst s).blen = s.blen := by simp only [padFirst]
@[simp] theorem padFirst_L (s : State) : (padFirst s).L = s.L := by simp only [padFirst]
@[simp] theorem padFirst_pstage (s : State) : (padFirst s).pstage = if s.blen.toNat ≤ 55 then .last else .pending := by simp only [padFirst]
@[simp] theorem padFirst_t (s : State) : (padFirst s).t = s.t := by simp only [padFirst]
@[simp] theorem padFirst_D (s : State) : (padFirst s).D = s.D := by simp only [padFirst]
@[simp] theorem padFirst_cause (s : State) : (padFirst s).cause = s.cause := by simp only [padFirst]
@[simp] theorem padFirst_phase (s : State) : (padFirst s).phase = .expand := by simp only [padFirst]
@[simp] theorem padFirst_cmdIn (s : State) : (padFirst s).cmdIn = s.cmdIn := by simp only [padFirst]
@[simp] theorem padFirst_rstIn (s : State) : (padFirst s).rstIn = s.rstIn := by simp only [padFirst]
@[simp] theorem padFirst_cfg (s : State) : (padFirst s).cfg = s.cfg := by simp only [padFirst]
@[simp] theorem padFirst_funcOut (s : State) : (padFirst s).funcOut = s.funcOut := by simp only [padFirst]

/-! ## padSecond -/

@[simp] theorem padSecond_H (s : State) : (padSecond s).H = s.H := by simp only [padSecond]
@[simp] theorem padSecond_Rw (s : State) : (padSecond s).Rw = s.Rw := by simp only [padSecond]
@[simp] theorem padSecond_W (s : State) : (padSecond s).W = s.W := by simp only [padSecond]
@[simp] theorem padSecond_BLK (s : State) : (padSecond s).BLK = padSecondBlock s.L := by simp only [padSecond]
@[simp] theorem padSecond_blen (s : State) : (padSecond s).blen = s.blen := by simp only [padSecond]
@[simp] theorem padSecond_L (s : State) : (padSecond s).L = s.L := by simp only [padSecond]
@[simp] theorem padSecond_pstage (s : State) : (padSecond s).pstage = .last := by simp only [padSecond]
@[simp] theorem padSecond_t (s : State) : (padSecond s).t = s.t := by simp only [padSecond]
@[simp] theorem padSecond_D (s : State) : (padSecond s).D = s.D := by simp only [padSecond]
@[simp] theorem padSecond_cause (s : State) : (padSecond s).cause = s.cause := by simp only [padSecond]
@[simp] theorem padSecond_phase (s : State) : (padSecond s).phase = .expand := by simp only [padSecond]
@[simp] theorem padSecond_cmdIn (s : State) : (padSecond s).cmdIn = s.cmdIn := by simp only [padSecond]
@[simp] theorem padSecond_rstIn (s : State) : (padSecond s).rstIn = s.rstIn := by simp only [padSecond]
@[simp] theorem padSecond_cfg (s : State) : (padSecond s).cfg = s.cfg := by simp only [padSecond]
@[simp] theorem padSecond_funcOut (s : State) : (padSecond s).funcOut = s.funcOut := by simp only [padSecond]

/-! ## expandAndSeed -/

@[simp] theorem expandAndSeed_H (s : State) : (expandAndSeed s).H = s.H := by simp only [expandAndSeed]
@[simp] theorem expandAndSeed_Rw (s : State) : (expandAndSeed s).Rw = s.H := by simp only [expandAndSeed]
@[simp] theorem expandAndSeed_W (s : State) : (expandAndSeed s).W = expand s.BLK := by simp only [expandAndSeed]
@[simp] theorem expandAndSeed_BLK (s : State) : (expandAndSeed s).BLK = s.BLK := by simp only [expandAndSeed]
@[simp] theorem expandAndSeed_blen (s : State) : (expandAndSeed s).blen = s.blen := by simp only [expandAndSeed]
@[simp] theorem expandAndSeed_L (s : State) : (expandAndSeed s).L = s.L := by simp only [expandAndSeed]
@[simp] theorem expandAndSeed_pstage (s : State) : (expandAndSeed s).pstage = s.pstage := by simp only [expandAndSeed]
@[simp] theorem expandAndSeed_t (s : State) : (expandAndSeed s).t = 0 := by simp only [expandAndSeed]
@[simp] theorem expandAndSeed_D (s : State) : (expandAndSeed s).D = s.D := by simp only [expandAndSeed]
@[simp] theorem expandAndSeed_cause (s : State) : (expandAndSeed s).cause = s.cause := by simp only [expandAndSeed]
@[simp] theorem expandAndSeed_phase (s : State) : (expandAndSeed s).phase = .round := by simp only [expandAndSeed]
@[simp] theorem expandAndSeed_cmdIn (s : State) : (expandAndSeed s).cmdIn = s.cmdIn := by simp only [expandAndSeed]
@[simp] theorem expandAndSeed_rstIn (s : State) : (expandAndSeed s).rstIn = s.rstIn := by simp only [expandAndSeed]
@[simp] theorem expandAndSeed_cfg (s : State) : (expandAndSeed s).cfg = s.cfg := by simp only [expandAndSeed]
@[simp] theorem expandAndSeed_funcOut (s : State) : (expandAndSeed s).funcOut = s.funcOut := by simp only [expandAndSeed]

/-! ## accumulateHash -/

@[simp] theorem accumulateHash_H (s : State) : (accumulateHash s).H = accumulate s.H s.Rw := by simp only [accumulateHash]
@[simp] theorem accumulateHash_Rw (s : State) : (accumulateHash s).Rw = s.Rw := by simp only [accumulateHash]
@[simp] theorem accumulateHash_W (s : State) : (accumulateHash s).W = s.W := by simp only [accumulateHash]
@[simp] theorem accumulateHash_BLK (s : State) : (accumulateHash s).BLK = s.BLK := by simp only [accumulateHash]
@[simp] theorem accumulateHash_blen (s : State) : (accumulateHash s).blen = s.blen := by simp only [accumulateHash]
@[simp] theorem accumulateHash_L (s : State) : (accumulateHash s).L = s.L := by simp only [accumulateHash]
@[simp] theorem accumulateHash_pstage (s : State) : (accumulateHash s).pstage = s.pstage := by simp only [accumulateHash]
@[simp] theorem accumulateHash_t (s : State) : (accumulateHash s).t = s.t := by simp only [accumulateHash]
@[simp] theorem accumulateHash_D (s : State) : (accumulateHash s).D = s.D := by simp only [accumulateHash]
@[simp] theorem accumulateHash_cause (s : State) : (accumulateHash s).cause = s.cause := by simp only [accumulateHash]
@[simp] theorem accumulateHash_phase (s : State) : (accumulateHash s).phase = afterAccum s.pstage := by simp only [accumulateHash]
@[simp] theorem accumulateHash_cmdIn (s : State) : (accumulateHash s).cmdIn = s.cmdIn := by simp only [accumulateHash]
@[simp] theorem accumulateHash_rstIn (s : State) : (accumulateHash s).rstIn = s.rstIn := by simp only [accumulateHash]
@[simp] theorem accumulateHash_cfg (s : State) : (accumulateHash s).cfg = s.cfg := by simp only [accumulateHash]
@[simp] theorem accumulateHash_funcOut (s : State) : (accumulateHash s).funcOut = s.funcOut := by simp only [accumulateHash]

/-! ## assembleDigest -/

@[simp] theorem assembleDigest_H (s : State) : (assembleDigest s).H = s.H := by simp only [assembleDigest]
@[simp] theorem assembleDigest_Rw (s : State) : (assembleDigest s).Rw = s.Rw := by simp only [assembleDigest]
@[simp] theorem assembleDigest_W (s : State) : (assembleDigest s).W = s.W := by simp only [assembleDigest]
@[simp] theorem assembleDigest_BLK (s : State) : (assembleDigest s).BLK = s.BLK := by simp only [assembleDigest]
@[simp] theorem assembleDigest_blen (s : State) : (assembleDigest s).blen = s.blen := by simp only [assembleDigest]
@[simp] theorem assembleDigest_L (s : State) : (assembleDigest s).L = s.L := by simp only [assembleDigest]
@[simp] theorem assembleDigest_pstage (s : State) : (assembleDigest s).pstage = s.pstage := by simp only [assembleDigest]
@[simp] theorem assembleDigest_t (s : State) : (assembleDigest s).t = s.t := by simp only [assembleDigest]
@[simp] theorem assembleDigest_D (s : State) : (assembleDigest s).D = assemble s.H := by simp only [assembleDigest]
@[simp] theorem assembleDigest_cause (s : State) : (assembleDigest s).cause = s.cause := by simp only [assembleDigest]
@[simp] theorem assembleDigest_phase (s : State) : (assembleDigest s).phase = .done := by simp only [assembleDigest]
@[simp] theorem assembleDigest_cmdIn (s : State) : (assembleDigest s).cmdIn = s.cmdIn := by simp only [assembleDigest]
@[simp] theorem assembleDigest_rstIn (s : State) : (assembleDigest s).rstIn = s.rstIn := by simp only [assembleDigest]
@[simp] theorem assembleDigest_cfg (s : State) : (assembleDigest s).cfg = s.cfg := by simp only [assembleDigest]
@[simp] theorem assembleDigest_funcOut (s : State) : (assembleDigest s).funcOut = s.funcOut := by simp only [assembleDigest]

/-! ## absorbByte -/

@[simp] theorem absorbByte_H (b : Byte) (s : State) : (absorbByte b s).H = s.H := by
  unfold absorbByte; dsimp only; split <;> rfl
@[simp] theorem absorbByte_Rw (b : Byte) (s : State) : (absorbByte b s).Rw = s.Rw := by
  unfold absorbByte; dsimp only; split <;> rfl
@[simp] theorem absorbByte_W (b : Byte) (s : State) : (absorbByte b s).W = s.W := by
  unfold absorbByte; dsimp only; split <;> rfl
@[simp] theorem absorbByte_BLK (b : Byte) (s : State) : (absorbByte b s).BLK = s.BLK.set s.blen.toNat b s.blen.isLt := by
  unfold absorbByte; dsimp only; split <;> rfl
@[simp] theorem absorbByte_blen (b : Byte) (s : State) : (absorbByte b s).blen = if s.blen = 63 then 0 else s.blen + 1 := by
  unfold absorbByte; dsimp only; split <;> rfl
@[simp] theorem absorbByte_L (b : Byte) (s : State) : (absorbByte b s).L = s.L + 1 := by
  unfold absorbByte; dsimp only; split <;> rfl
@[simp] theorem absorbByte_pstage (b : Byte) (s : State) : (absorbByte b s).pstage = s.pstage := by
  unfold absorbByte; dsimp only; split <;> rfl
@[simp] theorem absorbByte_t (b : Byte) (s : State) : (absorbByte b s).t = s.t := by
  unfold absorbByte; dsimp only; split <;> rfl
@[simp] theorem absorbByte_D (b : Byte) (s : State) : (absorbByte b s).D = s.D := by
  unfold absorbByte; dsimp only; split <;> rfl
@[simp] theorem absorbByte_cause (b : Byte) (s : State) : (absorbByte b s).cause = s.cause := by
  unfold absorbByte; dsimp only; split <;> rfl
@[simp] theorem absorbByte_phase (b : Byte) (s : State) : (absorbByte b s).phase = if s.blen = 63 then .expand else s.phase := by
  unfold absorbByte; dsimp only; split <;> rfl
@[simp] theorem absorbByte_cmdIn (b : Byte) (s : State) : (absorbByte b s).cmdIn = s.cmdIn := by
  unfold absorbByte; dsimp only; split <;> rfl
@[simp] theorem absorbByte_rstIn (b : Byte) (s : State) : (absorbByte b s).rstIn = s.rstIn := by
  unfold absorbByte; dsimp only; split <;> rfl
@[simp] theorem absorbByte_cfg (b : Byte) (s : State) : (absorbByte b s).cfg = s.cfg := by
  unfold absorbByte; dsimp only; split <;> rfl
@[simp] theorem absorbByte_funcOut (b : Byte) (s : State) : (absorbByte b s).funcOut = s.funcOut := by
  unfold absorbByte; dsimp only; split <;> rfl

/-! ## roundAndCount -/

@[simp] theorem roundAndCount_H (s : State) : (roundAndCount s).H = s.H := by
  unfold roundAndCount; dsimp only; split <;> rfl
@[simp] theorem roundAndCount_Rw (s : State) : (roundAndCount s).Rw = roundRegs s.W s.t s.Rw := by
  unfold roundAndCount; dsimp only; split <;> rfl
@[simp] theorem roundAndCount_W (s : State) : (roundAndCount s).W = s.W := by
  unfold roundAndCount; dsimp only; split <;> rfl
@[simp] theorem roundAndCount_BLK (s : State) : (roundAndCount s).BLK = s.BLK := by
  unfold roundAndCount; dsimp only; split <;> rfl
@[simp] theorem roundAndCount_blen (s : State) : (roundAndCount s).blen = s.blen := by
  unfold roundAndCount; dsimp only; split <;> rfl
@[simp] theorem roundAndCount_L (s : State) : (roundAndCount s).L = s.L := by
  unfold roundAndCount; dsimp only; split <;> rfl
@[simp] theorem roundAndCount_pstage (s : State) : (roundAndCount s).pstage = s.pstage := by
  unfold roundAndCount; dsimp only; split <;> rfl
@[simp] theorem roundAndCount_t (s : State) : (roundAndCount s).t = if s.t = 63 then 0 else s.t + 1 := by
  unfold roundAndCount; dsimp only; split <;> rfl
@[simp] theorem roundAndCount_D (s : State) : (roundAndCount s).D = s.D := by
  unfold roundAndCount; dsimp only; split <;> rfl
@[simp] theorem roundAndCount_cause (s : State) : (roundAndCount s).cause = s.cause := by
  unfold roundAndCount; dsimp only; split <;> rfl
@[simp] theorem roundAndCount_phase (s : State) : (roundAndCount s).phase = if s.t = 63 then .accum else s.phase := by
  unfold roundAndCount; dsimp only; split <;> rfl
@[simp] theorem roundAndCount_cmdIn (s : State) : (roundAndCount s).cmdIn = s.cmdIn := by
  unfold roundAndCount; dsimp only; split <;> rfl
@[simp] theorem roundAndCount_rstIn (s : State) : (roundAndCount s).rstIn = s.rstIn := by
  unfold roundAndCount; dsimp only; split <;> rfl
@[simp] theorem roundAndCount_cfg (s : State) : (roundAndCount s).cfg = s.cfg := by
  unfold roundAndCount; dsimp only; split <;> rfl
@[simp] theorem roundAndCount_funcOut (s : State) : (roundAndCount s).funcOut = s.funcOut := by
  unfold roundAndCount; dsimp only; split <;> rfl

end Sys2Proof.Machine
end

