-- ==== Sys2Proof/Laws/Ops.lean ====
section
/-! SUPPORT. For each shared operation, once, everything that it can do. -/

namespace Sys2Proof.Machine

/-! ## Phases -/

theorem cmdReady_iff (s : State) :
    cmdReady s = true ↔ s.phase = .idle ∨ s.phase = .absorb ∨ s.phase = .done ∨ s.phase = .error := by
  unfold cmdReady busy; cases s.phase <;> simp [Phase.isBusy]

theorem busy_iff (s : State) :
    busy s = true ↔
      s.phase = .pad ∨ s.phase = .expand ∨ s.phase = .round ∨ s.phase = .accum ∨ s.phase = .assemble := by
  unfold busy; cases s.phase <;> simp [Phase.isBusy]

theorem cmdReady_eq_not_busy (s : State) : cmdReady s = !busy s := rfl

/-! ## Acceptance -/

theorem acceptCommand_ready {f : State → State} {s : State} (h : cmdReady s = true) :
    acceptCommand f s = .next (f s) := by simp [acceptCommand, h]

theorem acceptCommand_busy {f : State → State} {s : State} (h : cmdReady s = false) :
    acceptCommand f s = .next s := by simp [acceptCommand, h]

/-- A command always answers a next state: its effect where it is accepted, the same state where it is not. -/
theorem acceptCommand_next {f : State → State} {s s' : State} (h : acceptCommand f s = .next s') :
    (cmdReady s = true ∧ s' = f s) ∨ (cmdReady s = false ∧ s' = s) := by
  cases hr : cmdReady s <;> simp [acceptCommand, hr] at h <;> simp [h]

@[simp] theorem unlessError_error {f : State → State} {s : State} (h : s.phase = .error) : unlessError f s = s := by
  simp [unlessError, h]

@[simp] theorem unlessError_other {f : State → State} {s : State} (h : s.phase ≠ .error) : unlessError f s = f s := by
  simp [unlessError, h]

@[simp] theorem inJob_absorb {f : State → State} {s : State} (h : s.phase = .absorb) : inJob f s = f s := by
  simp [inJob, h]

@[simp] theorem inJob_other {f : State → State} {s : State} (h : s.phase ≠ .absorb) :
    inJob f s = raiseError .seq s := by simp [inJob, h]

/-! ## Micro-operations -/

/-- A micro-operation answers a next state exactly where it is selected, and that state is its effect. -/
theorem whenSelected_next {m : String} {sel : Bool} {x s' : State} :
    whenSelected m sel x = .next s' ↔ sel = true ∧ s' = x := by
  cases sel <;> simp [whenSelected, eq_comm]

/-! ## Functions -/

/-- Evaluating a function writes funcOut and nothing else. -/
theorem yieldValue_next {v : FuncValue} {s s' : State} :
    yieldValue v s = .next s' ↔ s' = { s with funcOut := v } := by
  simp [yieldValue, eq_comm]

/-! ## Ports -/

@[simp] theorem dropPause_nil : dropPause [] = [] := rfl
@[simp] theorem dropPause_none (l : List (Option CmdWord)) : dropPause (none :: l) = l := rfl
@[simp] theorem dropPause_some (w : CmdWord) (l : List (Option CmdWord)) :
    dropPause (some w :: l) = some w :: l := rfl

/-- A passed pause presents no word and loses none. -/
theorem dropPause_reduceOption (l : List (Option CmdWord)) :
    (dropPause l).reduceOption = l.reduceOption := by
  cases l with
  | nil => rfl
  | cons x l => cases x <;> simp

/-! ## Commands as functions of the state

What each command does to a quiescent core; a busy core takes none of them. -/

/-- The effect of a decoded word on a quiescent core, in the order of 60_exceptions.md R236. -/
theorem exec_command (w : CmdWord) (s : State) :
    exec (decodeCommand w) s = acceptCommand
      (if legal w = true then
        if opField w = 0 then id
        else if opField w = 1 then startJob
        else if opField w = 2 then unlessError (inJob (writeInJob (dataField w)))
        else unlessError (inJob finishJob)
      else unlessError (raiseError .cmd)) s := by
  unfold decodeCommand
  split
  · unfold decodeLegal; repeat' split
    all_goals simp_all [exec, execNop, execInit, execWrite, execFinish]
  · unfold decodeIllegal; repeat' split
    all_goals
      simp_all [exec, illegalWord, execIllegalOp4to7, execIllegalOp8to15, execIllegalRsv8, execIllegalRsv9,
        execIllegalRsv10, execIllegalRsv11]

end Sys2Proof.Machine
end

