-- ==== Sys2Proof/Laws/PerInstr.lean ====
section
/-! SUPPORT. The family Encoding: an instruction with a code is what its code decodes to. One lemma per constructor of
Instr. -/

namespace Sys2Proof.Laws.Encoding

/-- Every code of the instruction decodes to it. -/
def Statement (i : Instr) : Prop := ∀ c, encode i = some c → decode c = .ok i

theorem nop (data : Byte) : Statement (.nop data) := by
  rintro c ⟨⟩; simp [decode, decodeCommand, legal_commandWord, decodeLegal]
theorem init (data : Byte) : Statement (.init data) := by
  rintro c ⟨⟩; simp [decode, decodeCommand, legal_commandWord, decodeLegal]
theorem write (b : Byte) : Statement (.write b) := by
  rintro c ⟨⟩; simp [decode, decodeCommand, legal_commandWord, decodeLegal]
theorem finish (data : Byte) : Statement (.finish data) := by
  rintro c ⟨⟩; simp [decode, decodeCommand, legal_commandWord, decodeLegal]

theorem illegalOp4to7 (op : BitVec 2) (rsv : BitVec 4) (data : Byte) : Statement (.illegalOp4to7 op rsv data) := by
  rintro c ⟨⟩
  have h : ∀ op : BitVec 2, ¬(0b01#2 ++ op).toNat ≤ 3 ∧ (0b01#2 ++ op).getLsbD 3 = false ∧
      (0b01#2 ++ op).getLsbD 2 = true ∧ (0b01#2 ++ op).extractLsb' 0 2 = op := by decide
  obtain ⟨h1, h2, h3, h4⟩ := h op
  simp only [decode, decodeCommand, legal_commandWord, decodeIllegal_commandWord, h1, h2, h3, h4]
  simp
theorem illegalOp8to15 (op : BitVec 3) (rsv : BitVec 4) (data : Byte) : Statement (.illegalOp8to15 op rsv data) := by
  rintro c ⟨⟩
  have h : ∀ op : BitVec 3, ¬(0b1#1 ++ op).toNat ≤ 3 ∧ (0b1#1 ++ op).getLsbD 3 = true ∧
      (0b1#1 ++ op).extractLsb' 0 3 = op := by decide
  obtain ⟨h1, h2, h3⟩ := h op
  simp only [decode, decodeCommand, legal_commandWord, decodeIllegal_commandWord, h1, h2, h3]
  simp

/-- OP = 00oo is a legal OP, and no bit of it marks an ILLEGAL row. -/
theorem legalOp (op : BitVec 2) : (0b00#2 ++ op).getLsbD 3 = false ∧ (0b00#2 ++ op).getLsbD 2 = false ∧
    (0b00#2 ++ op).extractLsb' 0 2 = op := by
  revert op; decide

theorem illegalRsv8 (op : BitVec 2) (rsv : BitVec 3) (data : Byte) : Statement (.illegalRsv8 op rsv data) := by
  rintro c ⟨⟩
  have h : ∀ rsv : BitVec 3, rsv ++ 0b1#1 ≠ 0#4 ∧ (rsv ++ 0b1#1).getLsbD 0 = true ∧
      (rsv ++ 0b1#1).extractLsb' 1 3 = rsv := by decide
  obtain ⟨h1, h2, h3⟩ := h rsv
  obtain ⟨o1, o2, o3⟩ := legalOp op
  simp only [decode, decodeCommand, legal_commandWord, decodeIllegal_commandWord, h2, h3, o1, o2, o3]
  simp [h1]
theorem illegalRsv9 (op : BitVec 2) (rsv : BitVec 2) (data : Byte) : Statement (.illegalRsv9 op rsv data) := by
  rintro c ⟨⟩
  have h : ∀ rsv : BitVec 2, rsv ++ 0b10#2 ≠ 0#4 ∧ (rsv ++ 0b10#2).getLsbD 0 = false ∧
      (rsv ++ 0b10#2).getLsbD 1 = true ∧ (rsv ++ 0b10#2).extractLsb' 2 2 = rsv := by decide
  obtain ⟨h1, h2, h3, h4⟩ := h rsv
  obtain ⟨o1, o2, o3⟩ := legalOp op
  simp only [decode, decodeCommand, legal_commandWord, decodeIllegal_commandWord, h2, h3, h4, o1, o2, o3]
  simp [h1]
theorem illegalRsv10 (op : BitVec 2) (rsv : BitVec 1) (data : Byte) : Statement (.illegalRsv10 op rsv data) := by
  rintro c ⟨⟩
  have h : ∀ rsv : BitVec 1, rsv ++ 0b100#3 ≠ 0#4 ∧ (rsv ++ 0b100#3).getLsbD 0 = false ∧
      (rsv ++ 0b100#3).getLsbD 1 = false ∧ (rsv ++ 0b100#3).getLsbD 2 = true ∧
      (rsv ++ 0b100#3).extractLsb' 3 1 = rsv := by decide
  obtain ⟨h1, h2, h3, h4, h5⟩ := h rsv
  obtain ⟨o1, o2, o3⟩ := legalOp op
  simp only [decode, decodeCommand, legal_commandWord, decodeIllegal_commandWord, h2, h3, h4, h5, o1, o2, o3]
  simp [h1]
theorem illegalRsv11 (op : BitVec 2) (data : Byte) : Statement (.illegalRsv11 op data) := by
  rintro c ⟨⟩
  obtain ⟨o1, o2, o3⟩ := legalOp op
  simp only [decode, decodeCommand, legal_commandWord, decodeIllegal_commandWord, o1, o2, o3]
  simp

theorem padMsg : Statement .padMsg := by rintro c ⟨⟩; rfl
theorem padPending : Statement .padPending := by rintro c ⟨⟩; rfl
theorem expand : Statement .expand := by rintro c ⟨⟩; rfl
theorem round : Statement .round := by rintro c ⟨⟩; rfl
theorem accum : Statement .accum := by rintro c ⟨⟩; rfl
theorem assemble : Statement .assemble := by rintro c ⟨⟩; rfl

theorem fnRotr (x : Word) (n : Fin 32) : Statement (.fnRotr x n) := by rintro c ⟨⟩
theorem fnShr (x : Word) (n : Fin 32) : Statement (.fnShr x n) := by rintro c ⟨⟩
theorem fnAdd32 (x : Word) (xs : List Word) : Statement (.fnAdd32 x xs) := by rintro c ⟨⟩
theorem fnSsig0 (x : Word) : Statement (.fnSsig0 x) := by rintro c ⟨⟩
theorem fnSsig1 (x : Word) : Statement (.fnSsig1 x) := by rintro c ⟨⟩
theorem fnBsig0 (x : Word) : Statement (.fnBsig0 x) := by rintro c ⟨⟩
theorem fnBsig1 (x : Word) : Statement (.fnBsig1 x) := by rintro c ⟨⟩
theorem fnCh (e f g : Word) : Statement (.fnCh e f g) := by rintro c ⟨⟩
theorem fnMaj (a b c : Word) : Statement (.fnMaj a b c) := by rintro c ⟨⟩
theorem fnPad (m : List Byte) : Statement (.fnPad m) := by rintro c ⟨⟩
theorem fnSplit (p : List Byte) : Statement (.fnSplit p) := by rintro c ⟨⟩
theorem fnExpand (B : Block) : Statement (.fnExpand B) := by rintro c ⟨⟩
theorem fnCompress (S : HashState) (W : Schedule) : Statement (.fnCompress S W) := by rintro c ⟨⟩
theorem fnAccumulate (S Rw : HashState) : Statement (.fnAccumulate S Rw) := by rintro c ⟨⟩
theorem fnAssemble (S : HashState) : Statement (.fnAssemble S) := by rintro c ⟨⟩

end Sys2Proof.Laws.Encoding
end

