-- ==== Sys2Proof/Laws/Step.lean ====
section
/-! SUPPORT. What one step can do, said once, and how runs compose. -/

namespace Sys2Proof.Machine

/-! ## The effect of an accepted word -/

/-- The effect of a word on a quiescent core, in the order of 60_exceptions.md R236. -/
def commandEffect (w : CmdWord) : State → State :=
  if legal w = true then
    if opField w = 0 then id
    else if opField w = 1 then startJob
    else if opField w = 2 then unlessError (inJob (writeInJob (dataField w)))
    else unlessError (inJob finishJob)
  else unlessError (raiseError .cmd)

theorem exec_decodeCommand (w : CmdWord) (s : State) :
    exec (decodeCommand w) s = acceptCommand (commandEffect w) s := exec_command w s

/-- Everything an accepted word can do: A says that it opens a job, B that its byte is absorbed. -/
theorem commandEffect_cases (w : CmdWord) (s : State) :
    let A := legal w = true ∧ opField w = 1
    let B := legal w = true ∧ opField w = 2 ∧ s.phase = .absorb ∧ s.L ≠ s.cfg.maxMsgBytes
    (¬A ∧ ¬B ∧ commandEffect w s = s) ∨
    (A ∧ commandEffect w s = startJob s) ∨
    (¬A ∧ ¬B ∧ ∃ c, c ≠ .none ∧ s.phase ≠ .error ∧ commandEffect w s = raiseError c s) ∨
    (¬A ∧ B ∧ commandEffect w s = absorbByte (dataField w) s) ∨
    (¬A ∧ ¬B ∧ s.phase = .absorb ∧ commandEffect w s = finishJob s) := by
  intro A B
  unfold commandEffect
  by_cases hl : legal w = true
  · rw [if_pos hl]
    by_cases h0 : opField w = 0
    · rw [if_pos h0]; left; simp [A, B, h0]
    rw [if_neg h0]
    by_cases h1 : opField w = 1
    · rw [if_pos h1]; right; left; exact ⟨⟨hl, h1⟩, rfl⟩
    rw [if_neg h1]
    have hA : ¬ A := fun h => h1 h.2
    by_cases he : s.phase = .error
    · have hB : ¬ B := fun h => by have := h.2.2.1; rw [he] at this; cases this
      split <;> (left; exact ⟨hA, hB, unlessError_error he⟩)
    by_cases ha : s.phase = .absorb
    · by_cases h2 : opField w = 2
      · rw [if_pos h2, unlessError_other he, inJob_absorb ha, writeInJob]
        by_cases hL : s.L = s.cfg.maxMsgBytes
        · rw [if_pos hL]; right; right; left; exact ⟨hA, fun h => h.2.2.2 hL, .len, by simp, he, rfl⟩
        · rw [if_neg hL]; right; right; right; left; exact ⟨hA, ⟨hl, h2, ha, hL⟩, rfl⟩
      · rw [if_neg h2, unlessError_other he, inJob_absorb ha]
        right; right; right; right; exact ⟨hA, fun h => h2 h.2.1, ha, rfl⟩
    · have hB : ¬ B := fun h => ha h.2.2.1
      split <;> (right; right; left; rw [unlessError_other he, inJob_other ha]; exact ⟨hA, hB, .seq, by simp, he, rfl⟩)
  · rw [if_neg hl]
    have hA : ¬ A := fun h => hl h.1
    have hB : ¬ B := fun h => hl h.1
    by_cases he : s.phase = .error
    · left; exact ⟨hA, hB, unlessError_error he⟩
    · right; right; left; rw [unlessError_other he]; exact ⟨hA, hB, .cmd, by simp, he, rfl⟩

/-- The state in which the word or micro-operation of this step runs: this step's reset sample is past. -/
def pastSample (s : State) : State := { s with rstIn := s.rstIn.tail }

@[simp] theorem pastSample_H (s : State) : (pastSample s).H = s.H := rfl
@[simp] theorem pastSample_Rw (s : State) : (pastSample s).Rw = s.Rw := rfl
@[simp] theorem pastSample_W (s : State) : (pastSample s).W = s.W := rfl
@[simp] theorem pastSample_BLK (s : State) : (pastSample s).BLK = s.BLK := rfl
@[simp] theorem pastSample_blen (s : State) : (pastSample s).blen = s.blen := rfl
@[simp] theorem pastSample_L (s : State) : (pastSample s).L = s.L := rfl
@[simp] theorem pastSample_pstage (s : State) : (pastSample s).pstage = s.pstage := rfl
@[simp] theorem pastSample_t (s : State) : (pastSample s).t = s.t := rfl
@[simp] theorem pastSample_D (s : State) : (pastSample s).D = s.D := rfl
@[simp] theorem pastSample_cause (s : State) : (pastSample s).cause = s.cause := rfl
@[simp] theorem pastSample_phase (s : State) : (pastSample s).phase = s.phase := rfl
@[simp] theorem pastSample_cmdIn (s : State) : (pastSample s).cmdIn = s.cmdIn := rfl
@[simp] theorem pastSample_rstIn (s : State) : (pastSample s).rstIn = s.rstIn.tail := rfl
@[simp] theorem pastSample_cfg (s : State) : (pastSample s).cfg = s.cfg := rfl
@[simp] theorem pastSample_funcOut (s : State) : (pastSample s).funcOut = s.funcOut := rfl

@[simp] theorem busy_pastSample (s : State) : busy (pastSample s) = busy s := rfl
@[simp] theorem cmdReady_pastSample (s : State) : cmdReady (pastSample s) = cmdReady s := rfl

theorem step_reset {s : State} (h : rst s = true) :
    step s = .next (passPause (resetRegisters (pastSample s))) := by
  unfold step sampledStep pastSample
  unfold rst at h
  split <;> simp_all

theorem step_agent {s : State} (h : rst s = false) : step s = agentStep (pastSample s) := by
  unfold step sampledStep pastSample
  unfold rst at h
  split <;> simp_all
  rename_i h0
  have : { s with rstIn := [] } = s := by rw [← h0]
  rw [this]

theorem step_command {s : State} {w : CmdWord} {rest : List (Option CmdWord)} (hr : rst s = false)
    (hq : cmdReady s = true) (hc : s.cmdIn = some w :: rest) :
    step s = .next (commandEffect w { pastSample s with cmdIn := rest }) := by
  have hb : busy (pastSample s) = false := by simpa [cmdReady] using hq
  have hc' : (pastSample s).cmdIn = some w :: rest := hc
  rw [step_agent hr]
  simp only [agentStep, hb, hostStep, hc']
  rw [if_neg (by simp), exec_decodeCommand]
  exact acceptCommand_ready hq

theorem step_pause {s : State} (hr : rst s = false) (hq : cmdReady s = true) (hc : cmd s = none) :
    step s = .next { pastSample s with cmdIn := s.cmdIn.tail } := by
  have hb : busy (pastSample s) = false := by simpa [cmdReady] using hq
  rw [step_agent hr, agentStep, if_neg (by simp [hb]), hostStep]
  unfold cmd at hc
  rcases hs : s.cmdIn with _ | ⟨_ | w, rest⟩
  · have : { pastSample s with cmdIn := [] } = pastSample s := by rw [← hs]; rfl
    simp only [pastSample_cmdIn, hs, List.tail_nil]
    exact congrArg _ this.symm
  · simp [hs]
  · simp [hs] at hc

/-- The effect of the micro-operation that phase and pstage select; the state itself where none is selected. -/
def microEffect (s : State) : State :=
  match s.phase with
  | .pad => match s.pstage with
    | .msg => padFirst s
    | .pending => padSecond s
    | .last => s
  | .expand => expandAndSeed s
  | .round => roundAndCount s
  | .accum => accumulateHash s
  | .assemble => assembleDigest s
  | .idle => s
  | .absorb => s
  | .done => s
  | .error => s

theorem microEffect_padMsg {s : State} (h : s.phase = .pad) (h' : s.pstage = .msg) : microEffect s = padFirst s := by
  simp only [microEffect, h, h']
theorem microEffect_padPending {s : State} (h : s.phase = .pad) (h' : s.pstage = .pending) :
    microEffect s = padSecond s := by simp only [microEffect, h, h']
theorem microEffect_expand {s : State} (h : s.phase = .expand) : microEffect s = expandAndSeed s := by
  simp only [microEffect, h]
theorem microEffect_round {s : State} (h : s.phase = .round) : microEffect s = roundAndCount s := by
  simp only [microEffect, h]
theorem microEffect_accum {s : State} (h : s.phase = .accum) : microEffect s = accumulateHash s := by
  simp only [microEffect, h]
theorem microEffect_assemble {s : State} (h : s.phase = .assemble) : microEffect s = assembleDigest s := by
  simp only [microEffect, h]

theorem step_micro {s : State} (hr : rst s = false) (hb : busy s = true)
    (hp : ¬(s.phase = .pad ∧ s.pstage = .last)) :
    step s = .next (microEffect (passPause (pastSample s))) := by
  have hb' : busy (pastSample s) = true := hb
  rw [step_agent hr, agentStep, if_pos hb', coreStep]
  rcases (busy_iff s).1 hb with h | h | h | h | h
  · rcases hst : s.pstage with _ | _ | _
    · simp [h, hst, decodeMicroOp, Phase.code, PStage.code, exec, execPadMsg, whenSelected,
        microEffect_padMsg]
    · simp [h, hst, decodeMicroOp, Phase.code, PStage.code, exec, execPadPending, whenSelected,
        microEffect_padPending]
    · exact absurd ⟨h, hst⟩ hp
  · simp [h, decodeMicroOp, Phase.code, exec, execExpand, whenSelected, microEffect_expand]
  · simp [h, decodeMicroOp, Phase.code, exec, execRound, whenSelected, microEffect_round]
  · simp [h, decodeMicroOp, Phase.code, exec, execAccum, whenSelected, microEffect_accum]
  · simp [h, decodeMicroOp, Phase.code, exec, execAssemble, whenSelected, microEffect_assemble]

theorem step_padAfterLast {s : State} (hr : rst s = false) (h : s.phase = .pad) (h' : s.pstage = .last) :
    step s = .refused (.noMicroOp .padAfterLast) := by
  have hb' : busy (pastSample s) = true := (busy_iff s).2 (.inl h)
  rw [step_agent hr, agentStep, if_pos hb', coreStep]
  simp [h, h', decodeMicroOp, Phase.code, PStage.code]

/-- Everything a step that answers a next state can have done. -/
theorem step_cases {s s' : State} (h : step s = .next s') :
    (rst s = true ∧ s' = passPause (resetRegisters (pastSample s))) ∨
    (rst s = false ∧ cmdReady s = true ∧ cmd s = none ∧ s' = { pastSample s with cmdIn := s.cmdIn.tail }) ∨
    (rst s = false ∧ cmdReady s = true ∧ ∃ w rest, cmd s = some w ∧ s.cmdIn = some w :: rest ∧
      s' = commandEffect w { pastSample s with cmdIn := rest }) ∨
    (rst s = false ∧ busy s = true ∧ ¬(s.phase = .pad ∧ s.pstage = .last) ∧
      s' = microEffect (passPause (pastSample s))) := by
  rcases hr : rst s with _ | _
  · rcases hb : busy s with _ | _
    · have hq : cmdReady s = true := by simp [cmdReady, hb]
      rcases hc : s.cmdIn with _ | ⟨_ | w, rest⟩
      · have hn : cmd s = none := by simp [cmd, hc]
        rw [step_pause hr hq hn] at h
        exact .inr (.inl ⟨rfl, hq, hn, by cases h; rw [hc]⟩)
      · have hn : cmd s = none := by simp [cmd, hc]
        rw [step_pause hr hq hn] at h
        exact .inr (.inl ⟨rfl, hq, hn, by cases h; rw [hc]⟩)
      · rw [step_command hr hq hc] at h
        exact .inr (.inr (.inl ⟨rfl, hq, w, rest, by simp [cmd, hc], rfl, by cases h; rfl⟩))
    · by_cases hp : s.phase = .pad ∧ s.pstage = .last
      · rw [step_padAfterLast hr hp.1 hp.2] at h; cases h
      · rw [step_micro hr hb hp] at h
        exact .inr (.inr (.inr ⟨rfl, rfl, hp, by cases h; rfl⟩))
  · rw [step_reset hr] at h
    exact .inl ⟨rfl, by cases h; rfl⟩

/-! ## Runs -/

@[simp] theorem runSteps_zero (s : State) : runSteps 0 s = .next s := rfl

theorem runSteps_succ {n : Nat} {s s' : State} (h : step s = .next s') : runSteps (n + 1) s = runSteps n s' := by
  simp only [runSteps, h]

theorem runSteps_one {s s' : State} (h : step s = .next s') : runSteps 1 s = .next s' := by
  rw [runSteps_succ h, runSteps_zero]

/-- Two runs, one after the other. -/
theorem runSteps_add {m n : Nat} {s s' : State} (h : runSteps m s = .next s') :
    runSteps (m + n) s = runSteps n s' := by
  induction m generalizing s with
  | zero => simp only [runSteps_zero, Host.Outcome.next.injEq] at h; simp [h]
  | succ m ih =>
    cases hs : step s with
    | next q =>
      rw [runSteps_succ hs] at h
      rw [Nat.succ_add, runSteps_succ hs]
      exact ih h
    | fault r => simp [runSteps, hs] at h
    | refused r => simp [runSteps, hs] at h

/-- The last step of a run. -/
theorem runSteps_snoc {n : Nat} {s q s' : State} (h : runSteps n s = .next q) (h' : step q = .next s') :
    runSteps (n + 1) s = .next s' := by
  rw [runSteps_add h, runSteps_one h']

/-! ## Reset samples -/

theorem rst_false {s : State} (h : ∀ x ∈ s.rstIn, x = false) : rst s = false := by
  unfold rst
  cases hs : s.rstIn with
  | nil => rfl
  | cons x l => simp [h x (by simp [hs])]

theorem tail_false {l : List Bool} (h : ∀ x ∈ l, x = false) : ∀ x ∈ l.tail, x = false :=
  fun x hx => h x (List.mem_of_mem_tail hx)

end Sys2Proof.Machine
end

