-- ==== Sys2Proof/Tests/Slice0.lean ====
section
/-! SUPPORT. Tests with results taken from 95_test_vectors.md (T1 to T7) or worked out by hand from the rules, and for each
statement with hypotheses a concrete state and operands that meet them. -/

set_option Elab.async false

namespace Sys2Proof.Tests

open Sys2Proof Sys2Proof.Machine

/-! ## Small states -/

/-- The state after reset, put into a phase and a padding stage; in ERROR the cause is SEQ. -/
def inPhase (p : Phase) (st : PStage := .msg) : State :=
  { State.reset with phase := p, pstage := st, cause := if p = .error then .seq else .none }

/-- A quiescent or busy state with one word presented. -/
def presented (p : Phase) (w : CmdWord) : State := { inPhase p with cmdIn := [some w] }

/-- ABSORB with L = n bytes counted, blen = n mod 64, and a limit. -/
def absorbed (n limit : Nat) : State :=
  { inPhase .absorb with
    L := BitVec.ofNat 61 n, blen := BitVec.ofNat 6 n, cfg := { maxMsgBytes := BitVec.ofNat 61 limit } }

/-- PAD with blen = n, L = n and a buffer of bytes 0x61. -/
def padding (n : Nat) (st : PStage := .msg) : State :=
  { inPhase .pad st with
    L := BitVec.ofNat 61 n, blen := BitVec.ofNat 6 n, BLK := Vector.replicate 64 0x61 }

/-- The padded block of "abc" (T2.2). -/
def abcBlock : Block :=
  Vector.ofFn fun j => if j.val = 63 then 0x18 else [0x61, 0x62, 0x63, 0x80][j.val]?.getD 0

/-- The registers after the 64 rounds of the "abc" block (T3.3, t = 63). -/
def abcRegs : HashState :=
  #v[0x506e3058, 0xd39a2165, 0x04d24d6c, 0xb85e2ce9, 0x5ef50f24, 0xfb121210, 0x948d25b6, 0x961f4894]

/-- The hash state of "abc" (T5). -/
def abcHash : HashState :=
  #v[0xba7816bf, 0x8f01cfea, 0x414140de, 0x5dae2223, 0xb00361a3, 0x96177a9c, 0xb410ff61, 0xf20015ad]

/-- Whether an outcome is a next state with a property. -/
def answers (r : Result) (f : State → Bool) : Bool :=
  match r with
  | .next s => f s
  | .fault _ => false
  | .refused _ => false

theorem answers_spec {r : Result} {f : State → Bool} (h : answers r f = true) : ∃ s, r = .next s ∧ f s = true := by
  cases r with
  | next s => exact ⟨s, rfl, h⟩
  | fault e => cases h
  | refused e => cases h

/-! ## WellFormed -/

theorem test_wf_accepts_empty_pad : (Instr.fnPad []).wf = true := by decide
theorem test_wf_refuses_long_pad : (Instr.fnPad (List.replicate (2 ^ 61) 0)).wf = false := by
  simp only [Instr.wf, padDomain, List.length_replicate, Nat.lt_irrefl, decide_false]
theorem test_wf_accepts_whole_split : (Instr.fnSplit (List.replicate 64 0)).wf = true := by decide
theorem test_wf_refuses_partial_split : (Instr.fnSplit [0x80]).wf = false := by decide
theorem test_cfg_refuses_zero_limit : Config.wf { maxMsgBytes := 0 } = false := by decide

/-! ## Decoding: words written out from 30_encoding.md R80 to R83 as OP, RSV, DATA -/

theorem test_decode_nop : decodeCommand (0b0000#4 ++ 0b0000#4 ++ 0b11111111#8) = .nop 0xff := by decide
theorem test_decode_init : decodeCommand (0b0001#4 ++ 0b0000#4 ++ 0b00000000#8) = .init 0x00 := by decide
theorem test_decode_write : decodeCommand (0b0010#4 ++ 0b0000#4 ++ 0b01100001#8) = .write 0x61 := by decide
theorem test_decode_finish : decodeCommand (0b0011#4 ++ 0b0000#4 ++ 0b01010101#8) = .finish 0x55 := by decide
theorem test_decode_illegalOp4to7 :
    decodeCommand (0b0110#4 ++ 0b1001#4 ++ 0b00000001#8) = .illegalOp4to7 0b10 0b1001 0x01 := by decide
theorem test_decode_illegalOp8to15 :
    decodeCommand (0b1111#4 ++ 0b1111#4 ++ 0b11111111#8) = .illegalOp8to15 0b111 0b1111 0xff := by decide
theorem test_decode_illegalRsv8 :
    decodeCommand (0b0011#4 ++ 0b1111#4 ++ 0b00000000#8) = .illegalRsv8 0b11 0b111 0x00 := by decide
theorem test_decode_illegalRsv9 :
    decodeCommand (0b0010#4 ++ 0b0110#4 ++ 0b01100001#8) = .illegalRsv9 0b10 0b01 0x61 := by decide
theorem test_decode_illegalRsv10 :
    decodeCommand (0b0001#4 ++ 0b1100#4 ++ 0b10000000#8) = .illegalRsv10 0b01 0b1 0x80 := by decide
theorem test_decode_illegalRsv11 :
    decodeCommand (0b0000#4 ++ 0b1000#4 ++ 0b00000000#8) = .illegalRsv11 0b00 0x00 := by decide

/-- The legal column of T6.1. -/
theorem test_legal_words :
    [0x0000, 0x00ff, 0x1000, 0x10ff, 0x2000, 0x2061, 0x20ff, 0x3000, 0x3055].all legal = true ∧
    [0x0100, 0x2100, 0x3f00, 0x4000, 0x8061, 0xf0ff, 0xffff].any legal = false := by decide

/-- The disassembly column of T6.1. -/
theorem test_disassembly :
    [0x00ff, 0x10ff, 0x2061, 0x3055, 0x0100, 0xffff].map disassemble =
      ["NOP".toList, "INIT".toList, "WRITE 0x61".toList, "FINISH".toList, ".word 0x0100".toList,
        ".word 0xffff".toList] := by decide

/-- The phase codes of 10_state.md R38 select the micro-operations; every other code is refused by name. -/
theorem test_decode_microOps :
    decodeMicroOp 0b0010 0b00 = .ok .padMsg ∧ decodeMicroOp 0b0010 0b01 = .ok .padPending ∧
    decodeMicroOp 0b0011 0b00 = .ok .expand ∧ decodeMicroOp 0b0100 0b10 = .ok .round ∧
    decodeMicroOp 0b0101 0b01 = .ok .accum ∧ decodeMicroOp 0b0110 0b10 = .ok .assemble := by decide
theorem test_decode_refuses_microOps :
    decodeMicroOp 0b0010 0b10 = .error .padAfterLast ∧ decodeMicroOp 0b0010 0b11 = .error .unusedStage ∧
    decodeMicroOp 0b0000 0b00 = .error (.quiescentPhase 0) ∧ decodeMicroOp 0b1000 0b00 = .error (.quiescentPhase 8) ∧
    decodeMicroOp 0b1001 0b00 = .error (.unusedPhase 9) ∧ decodeMicroOp 0b1111 0b00 = .error (.unusedPhase 15) := by
  decide

/-- The match values of the opcode table, one for each of its rows with an encoding. -/
theorem test_table_words :
    [0x0000, 0x1000, 0x2000, 0x3000, 0x4000, 0x8000, 0x0100, 0x0200, 0x0400, 0x0800].map (decodeTableWord 16) =
      [some (.nop 0), some (.init 0), some (.write 0), some (.finish 0), some (.illegalOp4to7 0 0 0),
        some (.illegalOp8to15 0 0 0), some (.illegalRsv8 0 0 0), some (.illegalRsv9 0 0 0),
        some (.illegalRsv10 0 0 0), some (.illegalRsv11 0 0)] ∧
    [0x2, 0x12, 0x3, 0x4, 0x5, 0x6].map (decodeTableWord 8) =
      [some .padMsg, some .padPending, some .expand, some .round, some .accum, some .assemble] ∧
    decodeTableWord 16 0x10000 = none ∧ decodeTableWord 8 0 = none := by decide

/-! ## The placed instruction is the one that the next step runs -/

theorem test_fetch_write :
    answers (step (State.reset.withFetchWord 16 0x2061)) (fun s => decide (status s = 0x0248 ∧ s.cmdIn = [])) = true := by
  decide
theorem test_fetch_round :
    answers (step (State.reset.withFetchWord 8 0x4)) (fun s => decide (s.phase = .round ∧ s.t = 1)) = true := by
  decide +kernel
theorem test_fetch_padPending :
    answers (step (State.reset.withFetchWord 8 0x12)) (fun s => decide (s.phase = .expand ∧ s.pstage = .last)) = true := by
  decide +kernel

/-! ## Commands: the cells of T6.2, and the steps of T8 -/

theorem test_nop : [Phase.idle, .absorb, .done, .error].all
    (fun p => answers (step (presented p 0x0000)) fun s => decide (s = inPhase p)) = true := by decide +kernel
theorem test_init : [Phase.idle, .absorb, .done, .error].all
    (fun p => answers (step (presented p 0x10ff)) fun s => decide (status s = 0x0001 ∧ s.H[0] = 0x6a09e667)) = true := by
  decide +kernel
theorem test_write_absorbs : answers (exec (.write 0x62) (absorbed 1 2))
    (fun s => decide (status s = 0x0001 ∧ s.L = 2 ∧ s.blen = 2 ∧ s.BLK[1] = 0x62)) = true := by decide +kernel
/-- T8 P7: the third byte of a job whose limit is 2. -/
theorem test_write_at_limit : answers (exec (.write 0x63) (absorbed 2 2))
    (fun s => decide (status s = 0x0148 ∧ s.L = 2 ∧ s.BLK[2] = 0x00)) = true := by decide +kernel
theorem test_finish : answers (exec (.finish 0) (absorbed 1 2)) (fun s => decide (status s = 0x0012)) = true := by
  decide +kernel
theorem test_finish_in_done : answers (exec (.finish 0) (inPhase .done)) (fun s => decide (status s = 0x0248)) = true := by
  decide +kernel
theorem test_illegal_words : [Phase.idle, .absorb, .done].all (fun p =>
    [0x4000, 0x8061, 0x0100, 0x0200, 0x0400, 0x0800].all fun w =>
      answers (step (presented p w)) fun s => decide (status s = 0x0348)) = true := by decide +kernel
theorem test_illegal_words_in_error : [0x4000, 0xffff, 0x0100, 0x0200, 0x0400, 0x0800].all (fun w =>
    answers (step (presented .error w)) fun s => decide (status s = 0x0248)) = true := by decide +kernel

/-! ## Micro-operations -/

/-- T2.1, L = 55: 0x80 at byte 55 and no zero byte before the length 0x1b8. -/
theorem test_padMsg_55 : answers (exec .padMsg (padding 55)) (fun s => decide
    (s.pstage = .last ∧ s.BLK[54] = 0x61 ∧ s.BLK[55] = 0x80 ∧ s.BLK[56] = 0x00 ∧ s.BLK[62] = 0x01 ∧
      s.BLK[63] = 0xb8)) = true := by decide +kernel
/-- T2.3, L = 56: the length does not fit. -/
theorem test_padMsg_56 : answers (exec .padMsg (padding 56)) (fun s => decide
    (s.pstage = .pending ∧ s.BLK[55] = 0x61 ∧ s.BLK[56] = 0x80 ∧ s.BLK[63] = 0x00)) = true := by decide +kernel
/-- T2.3, L = 63: the second block is zeros and the length 0x1f8. -/
theorem test_padPending : answers (exec .padPending (padding 63 .pending)) (fun s => decide
    (s.pstage = .last ∧ s.BLK[0] = 0x00 ∧ s.BLK[55] = 0x00 ∧ s.BLK[62] = 0x01 ∧ s.BLK[63] = 0xf8)) = true := by
  decide +kernel
/-- T3.1: words of the "abc" schedule. -/
theorem test_expand : answers (exec .expand { inPhase .expand with BLK := abcBlock, H := Config.IV, t := 5 }) (fun s => decide
    (s.phase = .round ∧ s.t = 0 ∧ s.Rw = Config.IV ∧ s.W[0] = 0x61626380 ∧ s.W[15] = 0x00000018 ∧
      s.W[17] = 0x000f0000 ∧ s.W[18] = 0x7da86405 ∧ s.W[63] = 0x12b1edeb)) = true := by decide +kernel
/-- T3.2: round 0 of the "abc" block. -/
theorem test_round_0 : answers (exec .round
    { inPhase .round with Rw := Config.IV, W := Vector.replicate 64 0x61626380 }) (fun s => decide
    (s.phase = .round ∧ s.t = 1 ∧ s.Rw =
      #v[0x5d6aebcd, 0x6a09e667, 0xbb67ae85, 0x3c6ef372, 0xfa2a4622, 0x510e527f, 0x9b05688c, 0x1f83d9ab])) = true := by
  decide +kernel
/-- T3.3: round 63 of the "abc" block, from the row t = 62, with W[63] = 12b1edeb. -/
theorem test_round_63 : answers (exec .round
    { inPhase .round with
      t := 63, W := Vector.replicate 64 0x12b1edeb
      Rw := #v[0xd39a2165, 0x04d24d6c, 0xb85e2ce9, 0xb6ae8fff, 0xfb121210, 0x948d25b6, 0x961f4894, 0xb21bad3d] })
    (fun s => decide (s.phase = .accum ∧ s.t = 0 ∧ s.Rw = abcRegs)) = true := by decide +kernel
/-- T5: the accumulation of "abc". -/
theorem test_accum : answers (exec .accum { inPhase .accum .last with H := Config.IV, Rw := abcRegs }) (fun s => decide
    (s.phase = .assemble ∧ s.H = abcHash)) = true := by decide +kernel
/-- T5: the digest of "abc". -/
theorem test_assemble : answers (exec .assemble { inPhase .assemble .last with H := abcHash }) (fun s => decide
    (status s = 0x0027 ∧ digestPort s = 0xba7816bf8f01cfea414140de5dae2223b00361a396177a9cb410ff61f20015ad)) = true := by
  decide +kernel

/-! ## Round constants: the columns +0, +4 and +7 of the table of 10_state.md R31 -/

theorem test_K_column_0 : (List.range 8).map (fun r => Config.K[8 * r]?.getD 0) =
    [0x428a2f98, 0xd807aa98, 0xe49b69c1, 0x983e5152, 0x27b70a85, 0xa2bfe8a1, 0x19a4c116, 0x748f82ee] := by decide +kernel
theorem test_K_column_4 : (List.range 8).map (fun r => Config.K[8 * r + 4]?.getD 0) =
    [0x3956c25b, 0x72be5d74, 0x2de92c6f, 0xc6e00bf3, 0x650a7354, 0xd192e819, 0x391c0cb3, 0x90befffa] := by decide +kernel
theorem test_K_column_7 : (List.range 8).map (fun r => Config.K[8 * r + 7]?.getD 0) =
    [0xab1c5ed5, 0xc19bf174, 0x76f988da, 0x14292967, 0x92722c85, 0x106aa070, 0x682e6ff3, 0xc67178f2] := by decide +kernel

/-! ## Functions -/

/-- Whether evaluating a function yields a value. -/
def yields (i : Instr) (v : FuncValue) : Bool := answers (exec i State.reset) fun s => decide (s.funcOut = v)

/-- T4.1 and the corner rotr(x, 0) = x of 00_scope.md R13. -/
theorem test_rotr : yields (.fnRotr 0x12345678 7) (.word 0xf02468ac) = true ∧
    yields (.fnRotr 0x12345678 0) (.word 0x12345678) = true := by decide +kernel
theorem test_shr : yields (.fnShr 0x12345678 10) (.word 0x00048d15) = true ∧
    yields (.fnShr 0x12345678 0) (.word 0x12345678) = true := by decide +kernel
/-- T4.4. -/
theorem test_add32 : yields (.fnAdd32 0xffffffff (List.replicate 4 0xffffffff)) (.word 0xfffffffb) = true ∧
    yields (.fnAdd32 0x6a09e667 [0x506e3058]) (.word 0xba7816bf) = true := by decide +kernel
/-- T4.2. -/
theorem test_sigmas : yields (.fnSsig0 0x80000000) (.word 0x11002000) = true ∧
    yields (.fnSsig1 0x6a09e667) (.word 0xcfe5da3c) = true ∧
    yields (.fnBsig0 0x12345678) (.word 0x66146474) = true ∧
    yields (.fnBsig1 0x6a09e667) (.word 0x55b65510) = true := by decide +kernel
/-- T4.3. -/
theorem test_ch_maj : yields (.fnCh 0xff00ff00 0x12345678 0x9abcdef0) (.word 0x12bc56f0) = true ∧
    yields (.fnMaj 0xf0f0f0f0 0xcccccccc 0xaaaaaaaa) (.word 0xe8e8e8e8) = true := by decide +kernel
/-- T2.2. -/
theorem test_pad : yields (.fnPad [0x61, 0x62, 0x63]) (.bytes abcBlock.toList) = true := by decide +kernel
theorem test_split : yields (.fnSplit (abcBlock.toList ++ List.replicate 64 0x00))
    (.blocks [abcBlock, Vector.replicate 64 0x00]) = true := by decide +kernel
/-- T3.1, T3.3 and T5. -/
theorem test_compress : yields (.fnCompress Config.IV (expand abcBlock)) (.hashState abcRegs) = true := by decide +kernel
theorem test_accumulate : yields (.fnAccumulate Config.IV abcRegs) (.hashState abcHash) = true := by decide +kernel
theorem test_fn_expand : answers (exec (.fnExpand abcBlock) State.reset) (fun s =>
    match s.funcOut with
    | .schedule W => decide (W[16] = 0x61626380 ∧ W[32] = 0x93f5997f ∧ W[60] = 0xa43fcf15)
    | _ => false) = true := by decide +kernel
/-- T5: assemble of the words 00010203 to 1c1d1e1f gives D[j] = j. -/
theorem test_fn_assemble : yields (.fnAssemble
    #v[0x00010203, 0x04050607, 0x08090a0b, 0x0c0d0e0f, 0x10111213, 0x14151617, 0x18191a1b, 0x1c1d1e1f])
    (.digest (Vector.ofFn fun j => BitVec.ofNat 8 j.val)) = true := by decide +kernel
/-- T7: a digest outside the statements. -/
theorem test_hash_a : hexDigest (Machine.hash [0x61]) =
    "ca978112ca1bbdcafac231b39a23dc4da786eff8147c4e72b9807785afee48bb".toList := by decide +kernel

/-! ## Status values (T6.3) -/

theorem test_status :
    [Phase.idle, .absorb, .pad, .expand, .round, .accum, .assemble, .done, .error].map (fun p => status (inPhase p)) =
      [0x0000, 0x0001, 0x0012, 0x0013, 0x0014, 0x0015, 0x0016, 0x0027, 0x0248] := by decide +kernel

/-! ## Witnesses: for each statement with hypotheses, states and operands that meet them, clause by clause -/

theorem reaches {r : Result} {P : State → Prop} [DecidablePred P]
    (h : answers r (fun s => decide (P s)) = true) : ∃ s, r = .next s ∧ P s := by
  obtain ⟨s, hr, hp⟩ := answers_spec h
  exact ⟨s, hr, of_decide_eq_true hp⟩

theorem witness_OpcodeMapByMatchAndMask :
    (0x00ff : CmdWord) &&& 0xFF00 = 0x0000 ∧ (0x10ff : CmdWord) &&& 0xFF00 = 0x1000 ∧
    (0x20ff : CmdWord) &&& 0xFF00 = 0x2000 ∧ (0x30ff : CmdWord) &&& 0xFF00 = 0x3000 ∧
    4 ≤ (0x4000 : CmdWord).toNat / 2 ^ 12 ∧ 4 ≤ (0xffff : CmdWord).toNat / 2 ^ 12 := by decide

theorem witness_LegalWordsExactly :
    legal 0x30ff = true ∧ legal 0x4000 = false ∧ legal 0x3100 = false ∧
    cmdReady (inPhase .idle) = true ∧ (inPhase .idle).phase ≠ .error ∧
    cmdReady (inPhase .done) = true ∧ (inPhase .done).phase ≠ .error ∧ (inPhase .error).phase = .error := by decide

theorem witness_DecodeEncodeRoundTrip :
    encode (.write 0xff) = some (.command 0x20ff) ∧ encode (.illegalRsv11 3 0xff) = some (.command 0x38ff) ∧
    encode .padPending = some (.select 2 1) ∧
    decode (.command 0xffff) = .ok (.illegalOp8to15 7 15 0xff) ∧ decode (.select 6 2) = .ok .assemble := by decide

theorem witness_InitStartsAJob :
    (inPhase .idle).phase = .idle ∧ (inPhase .absorb).phase = .absorb ∧ (inPhase .done).phase = .done ∧
    (inPhase .error).phase = .error := by decide

/-- Each clause at its boundary: L one below the limit and at it, blen 0, 62 and 63. -/
theorem witness_WriteAbsorbsOneByte :
    (inPhase .idle).phase = .idle ∧ (inPhase .done).phase = .done ∧
    ((absorbed 1 1).phase = .absorb ∧ (absorbed 1 1).L = (absorbed 1 1).cfg.maxMsgBytes) ∧
    ((absorbed 0 1).phase = .absorb ∧ (absorbed 0 1).L ≠ (absorbed 0 1).cfg.maxMsgBytes ∧ (absorbed 0 1).blen ≠ 63) ∧
    ((absorbed 62 63).phase = .absorb ∧ (absorbed 62 63).L ≠ (absorbed 62 63).cfg.maxMsgBytes ∧
      (absorbed 62 63).blen ≠ 63) ∧
    ((absorbed 63 64).phase = .absorb ∧ (absorbed 63 64).L ≠ (absorbed 63 64).cfg.maxMsgBytes ∧
      (absorbed 63 64).blen = 63) := by decide

theorem witness_FinishStartsPadding :
    (inPhase .absorb).phase = .absorb ∧ (inPhase .idle).phase = .idle ∧ (inPhase .done).phase = .done := by decide

theorem witness_IllegalWordsRaiseCmd :
    (inPhase .idle).phase = .idle ∧ (inPhase .absorb).phase = .absorb ∧ (inPhase .done).phase = .done := by decide

theorem witness_ErrorIgnoresAllButInit :
    (inPhase .error).phase = .error ∧ (legal 0x10ff = true ∧ opField 0x10ff = 1) ∧
    ¬(legal 0x1100 = true ∧ opField 0x1100 = 1) ∧ ¬(legal 0x2061 = true ∧ opField 0x2061 = 1) := by decide

theorem witness_DataIsTheMessageByte :
    (legal 0x1000 = true ∧ legal 0x10ff = true ∧ opField 0x1000 = opField 0x10ff ∧ opField 0x1000 ≠ 2) ∧
    (legal 0x20ff = true ∧ opField 0x20ff = 2 ∧ (absorbed 63 64).phase = .absorb ∧
      (absorbed 63 64).L ≠ (absorbed 63 64).cfg.maxMsgBytes) := by decide

theorem witness_ErrorEntryIsPrecise :
    (inPhase .idle).phase ≠ .error ∧ ∃ s', exec (.write 0x41) (inPhase .idle) = .next s' ∧ s'.phase = .error :=
  ⟨by decide, reaches (by decide +kernel)⟩

/-- A ready state, a word and the state they give, for each clause of the check order. -/
theorem witness_ErrorChecksInOrder :
    (cmdReady (inPhase .error) = true ∧
      ∃ s', exec (decodeCommand 0x4000) (inPhase .error) = .next s' ∧ s'.phase = .error) ∧
    (cmdReady (inPhase .idle) = true ∧ legal 0x2100 = false ∧
      ∃ s', exec (decodeCommand 0x2100) (inPhase .idle) = .next s' ∧ s'.cause = .cmd) ∧
    (legal 0x2000 = true ∧ opField 0x2000 = 2 ∧ (inPhase .done).phase ≠ .absorb ∧
      ∃ s', exec (decodeCommand 0x2000) (inPhase .done) = .next s' ∧ s'.cause = .seq) ∧
    ((absorbed 1 1).L = (absorbed 1 1).cfg.maxMsgBytes ∧
      ∃ s', exec (decodeCommand 0x2000) (absorbed 1 1) = .next s' ∧ s'.cause = .len) ∧
    (legal 0x00ff = true ∧ opField 0x00ff = 0 ∧
      ∃ s', exec (decodeCommand 0x00ff) (inPhase .done) = .next s' ∧ s'.phase = .done) ∧
    ((absorbed 0 1).L ≠ (absorbed 0 1).cfg.maxMsgBytes ∧
      ∃ s', exec (decodeCommand 0x2000) (absorbed 0 1) = .next s' ∧ s'.L = 1) ∧
    (legal 0x3000 = true ∧ opField 0x3000 = 3 ∧
      ∃ s', exec (decodeCommand 0x3000) (absorbed 0 1) = .next s' ∧ s'.phase = .pad) :=
  ⟨⟨by decide, reaches (by decide +kernel)⟩, ⟨by decide, by decide, reaches (by decide +kernel)⟩,
    ⟨by decide, by decide, by decide, reaches (by decide +kernel)⟩, ⟨by decide, reaches (by decide +kernel)⟩,
    ⟨by decide, by decide, reaches (by decide +kernel)⟩, ⟨by decide, reaches (by decide +kernel)⟩,
    ⟨by decide, by decide, reaches (by decide +kernel)⟩⟩

theorem witness_OnlyInitOrResetLeavesError :
    (presented .error 0x1100).phase = .error ∧
    (∃ s', step (presented .error 0x1100) = .next s' ∧ s'.phase = .error) ∧
    (∃ s', step (presented .error 0x1000) = .next s' ∧ s'.phase ≠ .error) ∧
    (∃ s', step { presented .error 0x1100 with rstIn := [true] } = .next s' ∧ s'.phase ≠ .error) :=
  ⟨by decide, reaches (by decide +kernel), reaches (by decide +kernel), reaches (by decide +kernel)⟩

theorem witness_StepRunsThePresentedCommand :
    (rst (presented .idle 0x2061) = false ∧ (presented .idle 0x2061).cmdIn = [some 0x2061] ∧
      cmdReady (presented .idle 0x2061) = true) ∧
    (cmdReady (presented .accum 0x2061) = false ∧
      ∃ s', step (presented .accum 0x2061) = .next s' ∧ s'.phase = .absorb) :=
  ⟨by decide, by decide, reaches (by decide +kernel)⟩

theorem witness_StepRunsTheSelectedMicroOp :
    rst (inPhase .pad) = false ∧ ((inPhase .pad).phase = .pad ∧ (inPhase .pad).pstage = .msg) ∧
    ((inPhase .pad .pending).phase = .pad ∧ (inPhase .pad .pending).pstage = .pending) ∧
    (inPhase .expand).phase = .expand ∧ (inPhase .round).phase = .round ∧ (inPhase .accum).phase = .accum ∧
    (inPhase .assemble).phase = .assemble := by decide

theorem witness_OutsideItsTurnNothingRuns :
    busy (inPhase .round) = true ∧ ¬((inPhase .pad .pending).phase = .pad ∧ (inPhase .pad .pending).pstage = .msg) ∧
    ¬((inPhase .pad).phase = .pad ∧ (inPhase .pad).pstage = .pending) ∧ (inPhase .idle).phase ≠ .expand ∧
    (inPhase .expand).phase ≠ .round ∧ (inPhase .round).phase ≠ .accum ∧ (inPhase .done).phase ≠ .assemble := by decide

theorem witness_QuiescentCoreKeepsItsState :
    (cmdReady (inPhase .error) = true ∧ rst (inPhase .error) = false ∧ cmd (inPhase .error) = none) ∧
    (cmd { inPhase .absorb with cmdIn := [none, some 0x2061] } = none) := by decide

theorem witness_ResetEventClearsEveryRegister :
    rst { presented .round 0x2061 with rstIn := [true, false] } = true ∧
    (presented .round 0x2061).cmdIn = [some 0x2061] := by decide

/-- One step for each row of the table, and one with no event. -/
theorem witness_PhaseTransitionTable :
    [presented .idle 0x1000, presented .error 0x1000, presented .done 0x0000, presented .error 0x3000,
      presented .absorb 0x0800, presented .idle 0x2000, presented .done 0x3000,
      { absorbed 1 1 with cmdIn := [some 0x2000] }, { absorbed 62 99 with cmdIn := [some 0x2000] },
      { absorbed 63 99 with cmdIn := [some 0x2000] }, presented .absorb 0x3000, inPhase .pad, inPhase .pad .pending,
      inPhase .expand, { inPhase .round with t := 62 }, { inPhase .round with t := 63 }, inPhase .accum,
      inPhase .accum .pending, inPhase .accum .last, inPhase .assemble .last, inPhase .done,
      { inPhase .round with rstIn := [true] }].map
        (fun s => answers (step s) fun _ => true) = List.replicate 22 true := by decide +kernel

theorem witness_RegistersChangeOnlyByTheirWriters :
    rst (presented .absorb 0x2061) = false ∧ (∃ s', step (presented .absorb 0x2061) = .next s' ∧ s'.L ≠ 0) ∧
    (∃ s', step { inPhase .accum with Rw := abcRegs } = .next s' ∧ s'.H ≠ (inPhase .accum).H) ∧
    (∃ s', step { inPhase .expand with BLK := abcBlock, H := abcHash, t := 1 } = .next s' ∧
      s'.W ≠ (inPhase .expand).W ∧ s'.Rw ≠ (inPhase .expand).Rw ∧ s'.t ≠ 1) ∧
    (∃ s', step (padding 0) = .next s' ∧ s'.BLK ≠ (padding 0).BLK ∧ s'.pstage ≠ .msg) ∧
    (∃ s', step { inPhase .assemble .last with H := abcHash } = .next s' ∧ s'.D ≠ (inPhase .assemble).D) ∧
    (∃ s', step (presented .error 0x1000) = .next s' ∧ s'.cause ≠ (inPhase .error).cause) :=
  ⟨by decide, reaches (by decide +kernel), reaches (by decide +kernel), reaches (by decide +kernel),
    reaches (by decide +kernel), reaches (by decide +kernel), reaches (by decide +kernel)⟩

theorem witness_PadAfterLastIsRefused :
    rst (inPhase .pad .last) = false ∧ (inPhase .pad .last).phase = .pad ∧ (inPhase .pad .last).pstage = .last := by
  decide

theorem witness_DigestPortLayout :
    (∃ s', exec .assemble { inPhase .assemble .last with H := abcHash } = .next s' ∧ s'.phase = .done) ∧
    Inv (absorbed 63 64) ∧ dvalid (absorbed 63 64) = false := by
  refine ⟨reaches (by decide +kernel), ?_, by decide⟩
  constructor <;> (try unfold inBlock) <;> decide

theorem witness_DigestStableInDone :
    (presented .done 0x0000).phase = .done ∧ ∃ s', step (presented .done 0x0000) = .next s' ∧ s'.phase = .done :=
  ⟨by decide, reaches (by decide +kernel)⟩

/-- Both sides of the choice, and its boundary values blen = 0, 55, 56 and 63. -/
theorem witness_PadFirstStage :
    [0, 55, 56, 63].all (fun n => decide ((padding n).phase = .pad ∧ (padding n).pstage = .msg)) = true ∧
    (padding 55).blen.toNat ≤ 55 ∧ 55 < (padding 56).blen.toNat ∧ (padding 63).blen.toNat = 63 := by decide

theorem witness_PadSecondStage :
    (padding 56 .pending).phase = .pad ∧ (padding 56 .pending).pstage = .pending := by decide

theorem witness_ExpandWritesScheduleAndSeeds : (inPhase .expand).phase = .expand := by decide

/-- Both moves of t. -/
theorem witness_RoundUpdatesWorkingRegisters :
    ({ inPhase .round with t := 63 } : State).phase = .round ∧ ({ inPhase .round with t := 62 } : State).phase = .round := by
  decide

theorem witness_AccumAddsAndChooses :
    [PStage.msg, .pending, .last].map (fun st => ((inPhase .accum st).phase, (inPhase .accum st).pstage)) =
      [(.accum, .msg), (.accum, .pending), (.accum, .last)] := by decide

theorem witness_AssembleWritesDigest : (inPhase .assemble .last).phase = .assemble := by decide

theorem witness_RotrRotates : (0 : Fin 32) = 0 ∧ (31 : Fin 32) ≠ 0 := by decide

theorem witness_AddWrapsInAnyOrder :
    ([0xffffffff, 0x00000001, 0x00000002] : List Word).Perm [0x00000002, 0xffffffff, 0x00000001] := by decide

theorem witness_PadAppendsTheRule :
    ([] : List Byte).length < 2 ^ 61 ∧ (List.replicate 56 (0x61 : Byte)).length < 2 ^ 61 ∧
    8 * (List.replicate 56 (0x61 : Byte)).length + 1 + 64 ≤ 512 * 2 ∧
    (List.replicate (2 ^ 61 - 1) (0x61 : Byte)).length < 2 ^ 61 :=
  ⟨by decide, by decide, by decide, lt_of_eq_of_lt List.length_replicate (by norm_num)⟩

theorem witness_OverlongPadFaults : 2 ^ 61 ≤ (List.replicate (2 ^ 61) (0x61 : Byte)).length :=
  le_of_eq List.length_replicate.symm

theorem witness_SplitPartitionsExactly :
    ([] : List Byte).length % 64 = 0 ∧ (List.replicate 64 (0x61 : Byte)).length % 64 = 0 := by decide

theorem witness_SplitRunsOutsideItsDomain :
    (List.replicate 63 (0x61 : Byte)).length % 64 ≠ 0 ∧ (List.replicate 65 (0x61 : Byte)).length % 64 ≠ 0 := by decide

theorem witness_ModelFieldsStayOut : ∃ s', step (presented .idle 0x1000) = .next s' ∧ s'.phase = .absorb :=
  reaches (by decide +kernel)

theorem witness_EveryStepKeepsTheInvariants : Inv (absorbed 63 64) ∧ Inv (padding 63) := by
  constructor <;> constructor <;> (try unfold inBlock) <;> decide

/-- Words that are no legal INIT, among them one with INIT's OP, and a pause. -/
theorem witness_OnlyInitOpensAJob :
    ({ inPhase .idle with cmdIn := [some 0x2061, none, some 0x1100] } : State).phase = .idle ∧
    ∀ w, some w ∈ ({ inPhase .idle with cmdIn := [some 0x2061, none, some 0x1100] } : State).cmdIn →
      ¬(legal w = true ∧ opField w = 1) := by
  refine ⟨rfl, ?_⟩
  intro w hw
  simp only [List.mem_cons, Option.some.injEq, reduceCtorEq, List.not_mem_nil, or_false, false_or] at hw
  rcases hw with rfl | rfl <;> decide

theorem witness_BlockCompressesInSixtySixSteps :
    [PStage.msg, .pending, .last].all (fun st => decide ((inPhase .expand st).phase = .expand)) = true ∧
    ∀ x ∈ ({ inPhase .expand with rstIn := [false, false] } : State).rstIn, x = false := by decide

/-- The longest busy period, 135 micro-operations, starts here. -/
theorem witness_BusyPeriodEnds :
    Inv (padding 63) ∧ busy (padding 63) = true ∧ ∀ x ∈ (padding 63).rstIn, x = false := by
  refine ⟨?_, by decide, by decide⟩
  constructor <;> (try unfold inBlock) <;> decide

theorem witness_InitOpensTheEmptyJob :
    cmdReady (inPhase .error) = true ∧ ∃ s', exec (.init 0) (inPhase .error) = .next s' ∧ s'.phase = .absorb :=
  ⟨by decide, reaches (by decide +kernel)⟩

/-- The job of no bytes, with a WRITE presented: the step takes it to the job of one byte. -/
theorem witness_EveryStepTracksTheJob :
    InJob [] { startJob (inPhase .idle) with cmdIn := [some 0x2061] } ∧
    rst { startJob (inPhase .idle) with cmdIn := [some 0x2061] } = false ∧
    (∃ s', step { startJob (inPhase .idle) with cmdIn := [some 0x2061] } = .next s' ∧ s'.L = 1) ∧
    absorbedAfter [] { startJob (inPhase .idle) with cmdIn := [some 0x2061] } = [0x61] := by
  refine ⟨?_, by decide, reaches (by decide +kernel), by decide +kernel⟩
  constructor <;> simp [startJob, inBlock, accumsDone, ivWords]

/-- Two bytes at a limit of two, with pauses, from ERROR. -/
theorem witness_HardwareComputesHash :
    let job : List (Option CmdWord) :=
      [none, some 0x1000, some 0x2061, none, none, some 0x2062, some 0x3000, none]
    let s : State := { inPhase .error with cmdIn := job ++ [some 0x1000], cfg := { maxMsgBytes := 2 } }
    cmdReady s = true ∧ (∀ x ∈ s.rstIn, x = false) ∧ [0x61, 0x62].length ≤ s.cfg.maxMsgBytes.toNat ∧
    s.cmdIn = job ++ [some 0x1000] ∧ job.reduceOption = jobWords [0x61, 0x62] := by decide

theorem witness_JobTakesCountedSteps :
    let s : State := { inPhase .done with cmdIn := present (jobWords [0x61]) ++ [none, some 0x0000] }
    cmdReady s = true ∧ (∀ x ∈ s.rstIn, x = false) ∧ [(0x61 : Byte)].length ≤ s.cfg.maxMsgBytes.toNat ∧
    s.cmdIn = present (jobWords [0x61]) ++ [none, some 0x0000] := by decide

/-- Two states in DONE that differ in every hidden register. -/
theorem witness_HiddenRegistersAreUnobservable :
    let s : State := { inPhase .done with D := assemble abcHash }
    let r : State := { s with
      H := abcHash, Rw := abcRegs, W := Vector.replicate 64 1, BLK := abcBlock, blen := 9, L := 1, pstage := .pending, t := 7 }
    s.phase = .done ∧ r.phase = s.phase ∧ r.cause = s.cause ∧ r.D = s.D ∧ r.cmdIn = s.cmdIn ∧ r.rstIn = s.rstIn ∧
    r.cfg = s.cfg ∧ r.H ≠ s.H := by
  intro s r
  exact ⟨rfl, rfl, rfl, rfl, rfl, rfl, rfl, by decide +kernel⟩

end Sys2Proof.Tests
end

section
/-! The word functions of 00_scope.md R13 to R15 (O36, O37, O38): the value of each as a fact about `rotr`, `shr` or
`add32`, and the row of the opcode table that yields it. -/

namespace Sys2Proof.Machine

/-! ## Evaluating a function row -/

theorem exec_fnRotr (x : Word) (n : Fin 32) (s : State) :
    exec (.fnRotr x n) s = .next { s with funcOut := .word (rotr x n.val) } := rfl

theorem exec_fnShr (x : Word) (n : Fin 32) (s : State) :
    exec (.fnShr x n) s = .next { s with funcOut := .word (shr x n.val) } := rfl

theorem exec_fnAdd32 (x : Word) (xs : List Word) (s : State) :
    exec (.fnAdd32 x xs) s = .next { s with funcOut := .word (add32 (x :: xs)) } := rfl

/-! ## The values -/

@[simp] theorem rotr_zero (x : Word) : rotr x 0 = x := by
  apply BitVec.eq_of_getLsbD_eq
  intro i hi
  rw [rotr_getLsbD x 0 (by decide) i hi, Nat.add_zero, Nat.mod_eq_of_lt hi]

/-- Bits past the top of the word are the zeros that shr shifts in (00_scope.md R14). -/
theorem shr_getLsbD_eq_ite (x : Word) (n i : Nat) :
    (shr x n).getLsbD i = if i + n < 32 then x.getLsbD (i + n) else false := by
  rw [shr_getLsbD]
  split
  · rfl
  · next h => exact BitVec.getLsbD_of_ge x (i + n) (Nat.le_of_not_lt h)

theorem toNat_add32 (xs : List Word) : (add32 xs).toNat = (xs.map BitVec.toNat).sum % 2 ^ 32 :=
  BitVec.toNat_ofNat _ _

/-- The integer sum does not depend on the order of the operands, so neither does add32 (00_scope.md R15). -/
theorem add32_perm {xs ys : List Word} (h : xs.Perm ys) : add32 xs = add32 ys := by
  have hsum : (xs.map BitVec.toNat).sum = (ys.map BitVec.toNat).sum := (h.map _).sum_eq
  rw [add32, add32, hsum]

/-! ## The obligations -/

/-- Settles O36: the bits of rotr, with `rotr_zero` for the amount 0. -/
theorem rotrRotates : Obligations.RotrRotates := by
  intro x n s
  refine ⟨rotr x n.val, exec_fnRotr x n s, fun i => rotr_getLsbD x n.val n.isLt i.val i.isLt, ?_⟩
  rintro rfl
  exact rotr_zero x

/-- Settles O37, by the bits of shr. -/
theorem shrShifts : Obligations.ShrShifts := fun x n s =>
  ⟨shr x n.val, exec_fnShr x n s, fun i => shr_getLsbD_eq_ite x n.val i.val⟩

/-- Settles O38: the value of the sum, and its invariance under a permutation of the operands. -/
theorem addWrapsInAnyOrder : Obligations.AddWrapsInAnyOrder := by
  intro x xs s
  refine ⟨add32 (x :: xs), exec_fnAdd32 x xs s, toNat_add32 (x :: xs), fun y ys hperm => ?_⟩
  rw [exec_fnAdd32, add32_perm hperm]

end Sys2Proof.Machine
end

section
/-! The model's own fields (O49; log 3, log 7): every effect that a step can have keeps cfg and commutes with replacing
funcOut. That a step keeps funcOut follows from the latter. -/

namespace Sys2Proof.Machine

/-- The state that differs from `s` in funcOut alone. -/
def withFuncOut (v : FuncValue) (s : State) : State := { s with funcOut := v }

@[simp] theorem withFuncOut_funcOut (v : FuncValue) (s : State) : (withFuncOut v s).funcOut = v := rfl
@[simp] theorem withFuncOut_phase (v : FuncValue) (s : State) : (withFuncOut v s).phase = s.phase := rfl
@[simp] theorem withFuncOut_pstage (v : FuncValue) (s : State) : (withFuncOut v s).pstage = s.pstage := rfl

/-- An effect on the state that neither writes the model's own fields nor reads funcOut. -/
structure KeepsModelFields (f : State → State) : Prop where
  cfg : ∀ s, (f s).cfg = s.cfg
  commutes : ∀ v s, f (withFuncOut v s) = withFuncOut v (f s)

/-- An effect that does not depend on funcOut but writes it would differ from itself after the field is rewritten to the
value it has already. -/
theorem KeepsModelFields.funcOut {f : State → State} (h : KeepsModelFields f) (s : State) :
    (f s).funcOut = s.funcOut := by
  have hself : f s = withFuncOut s.funcOut (f s) := h.commutes s.funcOut s
  rw [hself, withFuncOut_funcOut]

theorem KeepsModelFields.comp {f g : State → State} (hf : KeepsModelFields f) (hg : KeepsModelFields g) :
    KeepsModelFields (fun s => f (g s)) where
  cfg s := (hf.cfg (g s)).trans (hg.cfg s)
  commutes v s := (congrArg f (hg.commutes v s)).trans (hf.commutes v (g s))

/-! ## The updates that a step is made of -/

theorem keepsModelFields_pastSample : KeepsModelFields pastSample := ⟨pastSample_cfg, fun _ _ => rfl⟩
theorem keepsModelFields_passPause : KeepsModelFields passPause := ⟨passPause_cfg, fun _ _ => rfl⟩
theorem keepsModelFields_resetRegisters : KeepsModelFields resetRegisters := ⟨resetRegisters_cfg, fun _ _ => rfl⟩
theorem keepsModelFields_cmdIn (rest : List (Option CmdWord)) : KeepsModelFields (fun s => { s with cmdIn := rest }) :=
  ⟨fun _ => rfl, fun _ _ => rfl⟩
theorem keepsModelFields_id : KeepsModelFields id := ⟨fun _ => rfl, fun _ _ => rfl⟩
theorem keepsModelFields_raiseError (c : Cause) : KeepsModelFields (raiseError c) := ⟨raiseError_cfg c, fun _ _ => rfl⟩
theorem keepsModelFields_startJob : KeepsModelFields startJob := ⟨startJob_cfg, fun _ _ => rfl⟩
theorem keepsModelFields_finishJob : KeepsModelFields finishJob := ⟨finishJob_cfg, fun _ _ => rfl⟩
theorem keepsModelFields_padFirst : KeepsModelFields padFirst := ⟨padFirst_cfg, fun _ _ => rfl⟩
theorem keepsModelFields_padSecond : KeepsModelFields padSecond := ⟨padSecond_cfg, fun _ _ => rfl⟩
theorem keepsModelFields_expandAndSeed : KeepsModelFields expandAndSeed := ⟨expandAndSeed_cfg, fun _ _ => rfl⟩
theorem keepsModelFields_accumulateHash : KeepsModelFields accumulateHash := ⟨accumulateHash_cfg, fun _ _ => rfl⟩
theorem keepsModelFields_assembleDigest : KeepsModelFields assembleDigest := ⟨assembleDigest_cfg, fun _ _ => rfl⟩

theorem KeepsModelFields.ite {p : State → Prop} [DecidablePred p] {f g : State → State}
    (hp : ∀ v s, p (withFuncOut v s) ↔ p s) (hf : KeepsModelFields f) (hg : KeepsModelFields g) :
    KeepsModelFields (fun s => if p s then f s else g s) where
  cfg s := by split <;> simp [hf.cfg, hg.cfg]
  commutes v s := by by_cases h : p s <;> simp [hp, h, hf.commutes, hg.commutes]

theorem keepsModelFields_absorbByte (b : Byte) : KeepsModelFields (absorbByte b) where
  cfg := absorbByte_cfg b
  commutes v s := by
    simp only [absorbByte, apply_ite (withFuncOut v)]
    rfl

theorem keepsModelFields_roundAndCount : KeepsModelFields roundAndCount where
  cfg := roundAndCount_cfg
  commutes v s := by
    simp only [roundAndCount, apply_ite (withFuncOut v)]
    rfl

/-! ## Commands -/

theorem KeepsModelFields.unlessError {f : State → State} (hf : KeepsModelFields f) : KeepsModelFields (unlessError f) :=
  .ite (fun _ _ => Iff.rfl) keepsModelFields_id hf

theorem KeepsModelFields.inJob {f : State → State} (hf : KeepsModelFields f) : KeepsModelFields (inJob f) :=
  .ite (fun _ _ => Iff.rfl) hf (keepsModelFields_raiseError .seq)

theorem keepsModelFields_writeInJob (b : Byte) : KeepsModelFields (writeInJob b) :=
  .ite (fun _ _ => Iff.rfl) (keepsModelFields_raiseError .len) (keepsModelFields_absorbByte b)

theorem keepsModelFields_commandEffect (w : CmdWord) : KeepsModelFields (commandEffect w) := by
  unfold commandEffect
  repeat' split
  · exact keepsModelFields_id
  · exact keepsModelFields_startJob
  · exact (keepsModelFields_writeInJob _).inJob.unlessError
  · exact keepsModelFields_finishJob.inJob.unlessError
  · exact (keepsModelFields_raiseError .cmd).unlessError

/-! ## Micro-operations -/

theorem keepsModelFields_microEffect : KeepsModelFields microEffect where
  cfg s := by
    unfold microEffect
    repeat' split
    all_goals simp
  commutes v s := by
    simp only [microEffect, withFuncOut_phase, withFuncOut_pstage]
    cases s.phase with
    | pad =>
      cases s.pstage with
      | msg => exact keepsModelFields_padFirst.commutes v s
      | pending => exact keepsModelFields_padSecond.commutes v s
      | last => rfl
    | expand => exact keepsModelFields_expandAndSeed.commutes v s
    | round => exact keepsModelFields_roundAndCount.commutes v s
    | accum => exact keepsModelFields_accumulateHash.commutes v s
    | assemble => exact keepsModelFields_assembleDigest.commutes v s
    | idle | absorb | done | error => rfl

/-- A step that answers a next state applies an effect that keeps the model's own fields, and the same effect from every
state that differs in funcOut alone. -/
theorem step_keepsModelFields {s s' : State} (h : step s = .next s') :
    ∃ f, KeepsModelFields f ∧ s' = f s ∧ ∀ v, step (withFuncOut v s) = .next (f (withFuncOut v s)) := by
  obtain ⟨hr, rfl⟩ | ⟨hr, hq, hc, rfl⟩ | ⟨hr, hq, w, rest, -, hc, rfl⟩ | ⟨hr, hb, hp, rfl⟩ := step_cases h
  · exact ⟨_, keepsModelFields_passPause.comp (keepsModelFields_resetRegisters.comp keepsModelFields_pastSample), rfl,
      fun v => step_reset hr⟩
  · exact ⟨_, (keepsModelFields_cmdIn s.cmdIn.tail).comp keepsModelFields_pastSample, rfl, fun v => step_pause hr hq hc⟩
  · exact ⟨_, (keepsModelFields_commandEffect w).comp
      ((keepsModelFields_cmdIn rest).comp keepsModelFields_pastSample), rfl, fun v => step_command hr hq hc⟩
  · exact ⟨_, keepsModelFields_microEffect.comp (keepsModelFields_passPause.comp keepsModelFields_pastSample), rfl,
      fun v => step_micro hr hb hp⟩

/-- Settles O49: the effect of a step keeps both fields and commutes with replacing funcOut. -/
theorem modelFieldsStayOut : Obligations.ModelFieldsStayOut := by
  intro s s' h
  obtain ⟨f, hf, rfl, hstep⟩ := step_keepsModelFields h
  refine ⟨hf.cfg s, hf.funcOut s, fun v => ?_⟩
  calc step (withFuncOut v s) = .next (f (withFuncOut v s)) := hstep v
    _ = .next (withFuncOut v (f s)) := by rw [hf.commutes]

end Sys2Proof.Machine
end

section
/-! What the proofs about a step or a run share: a step answers a next state outside PAD with pstage = LAST, the six
micro-operations case by case, the one induction over a run, and the command port. -/

namespace Sys2Proof.Machine

/-- The one state in which a step has no next state is that of 40_padder.md R108. -/
theorem exists_step_next {s : State} (hp : ¬(s.phase = .pad ∧ s.pstage = .last)) : ∃ s', step s = .next s' := by
  cases hr : rst s with
  | true => exact ⟨_, step_reset hr⟩
  | false =>
    cases hb : busy s with
    | true => exact ⟨_, step_micro hr hb hp⟩
    | false =>
      have hq : cmdReady s = true := by simp [cmdReady, hb]
      rcases hc : s.cmdIn with _ | ⟨_ | w, rest⟩
      · exact ⟨_, step_pause hr hq (by simp [cmd, hc])⟩
      · exact ⟨_, step_pause hr hq (by simp [cmd, hc])⟩
      · exact ⟨_, step_command hr hq hc⟩

/-- Which micro-operation a busy core runs (30_encoding.md R84). -/
theorem microEffect_cases {s : State} (hb : busy s = true) (hp : ¬(s.phase = .pad ∧ s.pstage = .last)) :
    (s.phase = .pad ∧ s.pstage = .msg ∧ microEffect s = padFirst s) ∨
    (s.phase = .pad ∧ s.pstage = .pending ∧ microEffect s = padSecond s) ∨
    (s.phase = .expand ∧ microEffect s = expandAndSeed s) ∨
    (s.phase = .round ∧ microEffect s = roundAndCount s) ∨
    (s.phase = .accum ∧ microEffect s = accumulateHash s) ∨
    (s.phase = .assemble ∧ microEffect s = assembleDigest s) := by
  rcases (busy_iff s).1 hb with h | h | h | h | h
  · cases hst : s.pstage with
    | msg => exact .inl ⟨h, rfl, microEffect_padMsg h hst⟩
    | pending => exact .inr (.inl ⟨h, rfl, microEffect_padPending h hst⟩)
    | last => exact absurd ⟨h, hst⟩ hp
  · exact .inr (.inr (.inl ⟨h, microEffect_expand h⟩))
  · exact .inr (.inr (.inr (.inl ⟨h, microEffect_round h⟩)))
  · exact .inr (.inr (.inr (.inr (.inl ⟨h, microEffect_accum h⟩))))
  · exact .inr (.inr (.inr (.inr (.inr ⟨h, microEffect_assemble h⟩))))

/-- What every step keeps, and never stops at, holds at the end of a run of any length. -/
theorem runSteps_keeps {P : State → Prop} (hP : ∀ s, P s → ∃ s', step s = .next s' ∧ P s') (n : Nat) {s : State}
    (h : P s) : ∃ s', runSteps n s = .next s' ∧ P s' := by
  induction n generalizing s with
  | zero => exact ⟨s, rfl, h⟩
  | succ n ih =>
    obtain ⟨q, hq, hPq⟩ := hP s h
    rw [runSteps_succ hq]
    exact ih hPq

theorem phase_ne_round_of_cmdReady {s : State} (hq : cmdReady s = true) : s.phase ≠ .round := by
  rintro h
  simp [cmdReady, busy, h, Phase.isBusy] at hq

/-! ## The command port -/

theorem cmdIn_of_cmd {s : State} {w : CmdWord} (h : cmd s = some w) : ∃ rest, s.cmdIn = some w :: rest := by
  unfold cmd at h
  split at h <;> simp_all

theorem transfers_of_cmd {s : State} {w : CmdWord} (hq : cmdReady s = true) (hc : cmd s = some w) :
    transfers s = true := by
  unfold cmd at hc
  split at hc <;> simp_all [transfers, cmdValid]

theorem transfers_of_no_cmd {s : State} (hc : cmd s = none) : transfers s = false := by
  unfold cmd at hc
  split at hc <;> simp_all [transfers, cmdValid]

theorem transfers_of_busy {s : State} (hb : busy s = true) : transfers s = false := by
  simp [transfers, cmdReady, hb]

theorem mem_of_mem_dropPause {x : Option CmdWord} {l : List (Option CmdWord)} (h : x ∈ dropPause l) : x ∈ l := by
  match l with
  | [] => exact h
  | none :: l => exact List.mem_cons_of_mem _ h
  | some _ :: _ => exact h

end Sys2Proof.Machine
end

section
/-! The invariants of 10_state.md R46 (O51, O52): one lemma for each effect that a step can have. -/

namespace Sys2Proof.Machine

/-- The invariants say nothing about the input ports. -/
theorem inv_ports {s : State} (h : Inv s) (cs : List (Option CmdWord)) (rs : List Bool) :
    Inv { s with cmdIn := cs, rstIn := rs } :=
  ⟨h.cause_iff, h.digest_zero, h.t_zero, h.fill, h.absorb_stage, h.block_full, h.pad_stage, h.end_stage,
    h.limit, h.cfg_wf⟩

/-- Reset keeps MAX_MSG_BYTES, so it needs the range of it from the state before. -/
theorem inv_resetRegisters {s : State} (h : s.cfg.wf = true) : Inv (resetRegisters s) where
  cause_iff := by simp
  digest_zero _ := rfl
  t_zero _ := rfl
  fill := rfl
  absorb_stage _ := rfl
  block_full hb _ := by simp [inBlock] at hb
  pad_stage _ := .inl rfl
  end_stage he := by simp at he
  limit := Nat.zero_le _
  cfg_wf := h

/-- Settles O51: the state after reset is what the reset event makes of it, and the default limit is in its range. -/
theorem invariantsAtReset : Obligations.InvariantsAtReset :=
  inv_resetRegisters (s := State.reset) (by simp [State.reset, Config.wf, Config.default])

/-! ## Commands -/

theorem inv_startJob {s : State} (h : Inv s) (hr : s.phase ≠ .round) : Inv (startJob s) where
  cause_iff := by simp
  digest_zero _ := rfl
  t_zero _ := h.t_zero hr
  fill := rfl
  absorb_stage _ := rfl
  block_full hb _ := by simp [inBlock] at hb
  pad_stage _ := .inl rfl
  end_stage he := by simp at he
  limit := Nat.zero_le _
  cfg_wf := h.cfg_wf

theorem inv_raiseError {s : State} (h : Inv s) {c : Cause} (hc : c ≠ .none) (hr : s.phase ≠ .round) :
    Inv (raiseError c s) where
  cause_iff := by simp [hc]
  digest_zero _ := rfl
  t_zero _ := h.t_zero hr
  fill := h.fill
  absorb_stage hp := by simp at hp
  block_full hb _ := by simp [inBlock] at hb
  pad_stage hp := by simp at hp
  end_stage he := by simp at he
  limit := h.limit
  cfg_wf := h.cfg_wf

theorem inv_finishJob {s : State} (h : Inv s) (ha : s.phase = .absorb) : Inv (finishJob s) where
  cause_iff := by simp [h.cause_iff, ha]
  digest_zero _ := h.digest_zero (by simp [ha])
  t_zero _ := h.t_zero (by simp [ha])
  fill := h.fill
  absorb_stage hp := by simp at hp
  block_full hb _ := by simp [inBlock] at hb
  pad_stage _ := .inl (h.absorb_stage ha)
  end_stage he := by simp at he
  limit := h.limit
  cfg_wf := h.cfg_wf

/-- Below the limit L + 1 does not wrap (10_state.md R26). -/
theorem toNat_add_one_of_lt {L : BitVec 61} {m : BitVec 61} (hle : L.toNat ≤ m.toNat) (hne : L ≠ m) :
    L.toNat < m.toNat ∧ (L + 1).toNat = L.toNat + 1 := by
  have hlt : L.toNat < m.toNat := lt_of_le_of_ne hle fun h => hne (BitVec.eq_of_toNat_eq h)
  exact ⟨hlt, BitVec.toNat_add_of_lt (by have := m.isLt; simp; omega)⟩

/-- The 6-bit counters blen and t count modulo 64 (10_state.md R25, R28). -/
theorem toNat_counter_succ (x : BitVec 6) : (if x = 63 then 0 else x + 1).toNat = (x.toNat + 1) % 64 := by
  revert x; decide

theorem inv_absorbByte {s : State} (h : Inv s) (b : Byte) (ha : s.phase = .absorb) (hL : s.L ≠ s.cfg.maxMsgBytes) :
    Inv (absorbByte b s) := by
  obtain ⟨hlt, hsucc⟩ := toNat_add_one_of_lt h.limit hL
  have hfill := h.fill
  have hblen : (absorbByte b s).blen.toNat = (absorbByte b s).L.toNat % 64 := by
    rw [absorbByte_blen, toNat_counter_succ, absorbByte_L, hsucc]
    omega
  have hcause : s.cause = .none := h.cause_iff.2 (by simp [ha])
  have hphase : (absorbByte b s).phase = if s.blen = 63 then .expand else .absorb := by rw [absorbByte_phase, ha]
  exact {
    cause_iff := by rw [absorbByte_cause, hphase]; split <;> simp [hcause]
    digest_zero := fun _ => by simp [h.digest_zero, ha]
    t_zero := fun _ => by simp [h.t_zero, ha]
    fill := hblen
    absorb_stage := fun _ => by simp [h.absorb_stage ha]
    block_full := fun hb _ => by
      have h63 : s.blen = 63 := by
        by_contra hn
        rw [hphase, if_neg hn] at hb
        simp [inBlock] at hb
      rw [h63] at hfill
      have hmod : s.L.toNat % 64 = 63 := by simpa using hfill.symm
      simp only [absorbByte_blen, absorbByte_L, hsucc, h63]
      refine ⟨by simp, ?_, ?_⟩ <;> omega
    pad_stage := fun hp => by rw [hphase] at hp; split at hp <;> cases hp
    end_stage := fun he => by rw [hphase] at he; split at he <;> simp at he
    limit := by rw [absorbByte_L, hsucc, absorbByte_cfg]; omega
    cfg_wf := by rw [absorbByte_cfg]; exact h.cfg_wf }

theorem inv_commandEffect {s : State} (h : Inv s) (hq : cmdReady s = true) (w : CmdWord) : Inv (commandEffect w s) := by
  have hr := phase_ne_round_of_cmdReady hq
  obtain ⟨-, -, he⟩ | ⟨-, he⟩ | ⟨-, -, c, hc, -, he⟩ | ⟨-, ⟨-, -, ha, hL⟩, he⟩ | ⟨-, -, ha, he⟩ :=
    commandEffect_cases w s
  · rw [he]; exact h
  · rw [he]; exact inv_startJob h hr
  · rw [he]; exact inv_raiseError h hc hr
  · rw [he]; exact inv_absorbByte h _ ha hL
  · rw [he]; exact inv_finishJob h ha

/-! ## Micro-operations -/

/-- No micro-operation writes cause, blen, L or a parameter (10_state.md R20), so the invariants of the next state come
down to where the sequencer stands there. -/
theorem inv_of_moved {s s' : State} (h : Inv s) (hb : busy s = true)
    (hframe : s'.cause = s.cause ∧ s'.blen = s.blen ∧ s'.L = s.L ∧ s'.cfg = s.cfg) (herror : s'.phase ≠ .error)
    (hD : s'.phase ≠ .done → s'.D = s.D) (ht : s'.phase ≠ .round → s'.t = 0)
    (habsorb : s'.phase = .absorb → s'.pstage = .msg)
    (hblock : inBlock s'.phase → s'.pstage = .msg → inBlock s.phase ∧ s.pstage = .msg)
    (hpad : s'.phase = .pad → s'.pstage = .msg ∨ s'.pstage = .pending)
    (hend : s'.phase = .assemble ∨ s'.phase = .done → s'.pstage = .last) : Inv s' := by
  obtain ⟨hcause, hblen, hL, hcfg⟩ := hframe
  have hnot : s.phase ≠ .error ∧ s.phase ≠ .done := by
    rcases (busy_iff s).1 hb with hp | hp | hp | hp | hp <;> simp [hp]
  exact {
    cause_iff := by rw [hcause]; simp [h.cause_iff, hnot.1, herror]
    digest_zero := fun hn => (hD hn).trans (h.digest_zero hnot.2)
    t_zero := ht
    fill := by rw [hblen, hL]; exact h.fill
    absorb_stage := habsorb
    block_full := fun hb hst => by
      rw [hblen, hL]
      exact h.block_full (hblock hb hst).1 (hblock hb hst).2
    pad_stage := hpad
    end_stage := hend
    limit := by rw [hL, hcfg]; exact h.limit
    cfg_wf := by rw [hcfg]; exact h.cfg_wf }

theorem inv_padFirst {s : State} (h : Inv s) (hb : busy s = true) (hp : s.phase = .pad) : Inv (padFirst s) := by
  have ht : s.t = 0 := h.t_zero (by simp [hp])
  have hst : (if s.blen.toNat ≤ 55 then PStage.last else .pending) ≠ .msg := by split <;> simp
  apply inv_of_moved h hb <;> simp [hst, ht]

theorem inv_padSecond {s : State} (h : Inv s) (hb : busy s = true) (hp : s.phase = .pad) : Inv (padSecond s) := by
  have ht : s.t = 0 := h.t_zero (by simp [hp])
  apply inv_of_moved h hb <;> simp [ht]

theorem inv_expandAndSeed {s : State} (h : Inv s) (hb : busy s = true) (hp : s.phase = .expand) :
    Inv (expandAndSeed s) := by
  apply inv_of_moved h hb <;> simp [inBlock, hp]

theorem inv_roundAndCount {s : State} (h : Inv s) (hb : busy s = true) (hp : s.phase = .round) :
    Inv (roundAndCount s) := by
  by_cases h63 : s.t = 63#6 <;> apply inv_of_moved h hb <;> simp [h63, hp, inBlock]

theorem inv_accumulateHash {s : State} (h : Inv s) (hb : busy s = true) (hp : s.phase = .accum) :
    Inv (accumulateHash s) := by
  have ht : s.t = 0 := h.t_zero (by simp [hp])
  cases hst : s.pstage <;> apply inv_of_moved h hb <;> simp [hst, afterAccum, inBlock, ht]

theorem inv_assembleDigest {s : State} (h : Inv s) (hb : busy s = true) (hp : s.phase = .assemble) :
    Inv (assembleDigest s) := by
  have ht : s.t = 0 := h.t_zero (by simp [hp])
  have hst : s.pstage = .last := h.end_stage (.inl hp)
  apply inv_of_moved h hb <;> simp [inBlock, ht, hst]

/-- PAD never stands at pstage = LAST (10_state.md R46 item 6, 40_padder.md R108). -/
theorem Inv.not_padAfterLast {s : State} (h : Inv s) : ¬(s.phase = .pad ∧ s.pstage = .last) := by
  rintro ⟨hp, hl⟩
  simpa [hl] using h.pad_stage hp

theorem inv_microEffect {s : State} (h : Inv s) (hb : busy s = true) : Inv (microEffect s) := by
  obtain ⟨hp, -, he⟩ | ⟨hp, -, he⟩ | ⟨hp, he⟩ | ⟨hp, he⟩ | ⟨hp, he⟩ | ⟨hp, he⟩ :=
    microEffect_cases hb h.not_padAfterLast
  · rw [he]; exact inv_padFirst h hb hp
  · rw [he]; exact inv_padSecond h hb hp
  · rw [he]; exact inv_expandAndSeed h hb hp
  · rw [he]; exact inv_roundAndCount h hb hp
  · rw [he]; exact inv_accumulateHash h hb hp
  · rw [he]; exact inv_assembleDigest h hb hp

/-! ## The step -/

theorem inv_step {s s' : State} (h : Inv s) (hs : step s = .next s') : Inv s' := by
  obtain ⟨-, rfl⟩ | ⟨-, -, -, rfl⟩ | ⟨-, hq, w, rest, -, -, rfl⟩ | ⟨-, hb, -, rfl⟩ := step_cases hs
  · exact inv_ports (inv_resetRegisters h.cfg_wf) _ _
  · exact inv_ports h _ _
  · exact inv_commandEffect (inv_ports h rest s.rstIn.tail) hq w
  · exact inv_microEffect (inv_ports h _ _) hb

/-- Settles O52: a step answers a next state outside PAD with pstage = LAST, which the invariants rule out, and each
effect of a step keeps them. -/
theorem everyStepKeepsTheInvariants : Obligations.EveryStepKeepsTheInvariants := by
  intro s h
  obtain ⟨s', hs⟩ := exists_step_next h.not_padAfterLast
  exact ⟨s', hs, inv_step h hs⟩

end Sys2Proof.Machine
end

section
/-! Only INIT opens a job (O53; 10_state.md R46 item 9). -/

namespace Sys2Proof.Machine

/-- IDLE or ERROR, with no legal INIT among the words still to be presented. -/
structure WithoutInit (s : State) : Prop where
  phase : s.phase = .idle ∨ s.phase = .error
  words : ∀ w, some w ∈ s.cmdIn → ¬(legal w = true ∧ opField w = 1)

/-- From IDLE and ERROR a word other than a legal INIT does nothing or raises an error. -/
theorem commandEffect_withoutInit {w : CmdWord} {s : State} (hp : s.phase = .idle ∨ s.phase = .error)
    (hw : ¬(legal w = true ∧ opField w = 1)) :
    commandEffect w s = s ∨ ∃ c, commandEffect w s = raiseError c s := by
  have ha : s.phase ≠ .absorb := by rcases hp with h | h <;> simp [h]
  obtain ⟨-, -, he⟩ | ⟨hA, -⟩ | ⟨-, -, c, -, -, he⟩ | ⟨-, ⟨-, -, ha', -⟩, -⟩ | ⟨-, -, ha', -⟩ := commandEffect_cases w s
  · exact .inl he
  · exact absurd hA hw
  · exact .inr ⟨c, he⟩
  · exact absurd ha' ha
  · exact absurd ha' ha

theorem step_withoutInit (s : State) (h : WithoutInit s) : ∃ s', step s = .next s' ∧ WithoutInit s' := by
  have hp : ¬(s.phase = .pad ∧ s.pstage = .last) := fun ⟨hp, _⟩ => by simpa [hp] using h.phase
  obtain ⟨s', hs⟩ := exists_step_next hp
  refine ⟨s', hs, ?_⟩
  obtain ⟨-, rfl⟩ | ⟨-, -, -, rfl⟩ | ⟨-, -, w, rest, -, hc, rfl⟩ | ⟨-, hb, -, -⟩ := step_cases hs
  · exact ⟨.inl rfl, fun w hw => h.words w (mem_of_mem_dropPause hw)⟩
  · exact ⟨h.phase, fun w hw => h.words w (List.mem_of_mem_tail hw)⟩
  · have hrest : ∀ w', some w' ∈ rest → ¬(legal w' = true ∧ opField w' = 1) := fun w' hw' =>
      h.words w' (by rw [hc]; exact List.mem_cons_of_mem _ hw')
    obtain he | ⟨c, he⟩ := commandEffect_withoutInit (s := { pastSample s with cmdIn := rest }) h.phase
      (h.words w (by simp [hc])) <;> rw [he]
    · exact ⟨h.phase, hrest⟩
    · exact ⟨.inr rfl, hrest⟩
  · rcases h.phase with hp | hp <;> simp [busy, hp, Phase.isBusy] at hb

/-- Settles O53: a step from IDLE or ERROR keeps both conditions, so a run does. -/
theorem onlyInitOpensAJob : Obligations.OnlyInitOpensAJob := by
  intro n s hp hw
  obtain ⟨s', hs, h⟩ := runSteps_keeps step_withoutInit n ⟨.inl hp, hw⟩
  exact ⟨s', hs, h.phase⟩

end Sys2Proof.Machine
end

section
/-! The blocks that PAD forms are the last blocks of the padded message (40_padder.md R106, R107, R110). -/

namespace Sys2Proof.Machine

/-- PAD with pstage = MSG forms the block in which the message ends. -/
theorem split_pad_padFirstBlock {m : List Byte} {BLK : Block} {blen : BitVec 6} {L : BitVec 61}
    (hL : L.toNat = m.length) (hblen : blen.toNat = m.length % 64)
    (hbuf : ∀ j : Fin 64, j.val < blen.toNat → m[64 * (m.length / 64) + j.val]? = some BLK[j.val]) :
    (split (pad m))[m.length / 64]? = some (padFirstBlock BLK blen L) := by
  have hlen := pad_length m
  rw [split_getElem? _ _ (lt_split_pad_length m _ (by omega))]
  refine congrArg _ (Vector.ext fun j hj => ?_)
  rw [blockAt_getElem _ _ _ hj, padFirstBlock_getElem _ _ _ _ hj, hL,
    pad_getElem? _ _ (by rw [hlen]; omega), hlen]
  by_cases hmsg : j < blen.toNat
  · obtain ⟨hi, hb⟩ := List.getElem?_eq_some_iff.1 (hbuf ⟨j, hj⟩ hmsg)
    rw [dif_pos hi, if_pos hmsg, hb]
    rfl
  rw [dif_neg (by omega), if_neg hmsg]
  by_cases hend : j = blen.toNat
  · rw [if_pos (by omega), if_pos hend]
    rfl
  rw [if_neg (by omega), if_neg hend]
  by_cases hlast : 56 ≤ j ∧ blen.toNat ≤ 55
  · rw [if_pos (by omega), if_pos hlast]
    have hpos : 64 * (m.length / 64) + j + 8 - 64 * ((m.length + 8) / 64 + 1) = j - 56 := by omega
    rw [hpos]
    rfl
  · rw [if_neg (by omega), if_neg hlast]
    rfl

/-- PAD with pstage = PAD_PENDING forms the block that holds the length field alone. -/
theorem split_pad_padSecondBlock {m : List Byte} {L : BitVec 61} (hL : L.toNat = m.length)
    (hfill : 56 ≤ m.length % 64) :
    (split (pad m))[m.length / 64 + 1]? = some (padSecondBlock L) := by
  have hlen := pad_length m
  rw [split_getElem? _ _ (lt_split_pad_length m _ (by omega))]
  refine congrArg _ (Vector.ext fun j hj => ?_)
  rw [blockAt_getElem _ _ _ hj, padSecondBlock_getElem _ _ hj, hL, pad_getElem? _ _ (by rw [hlen]; omega), hlen,
    dif_neg (by omega), if_neg (by omega)]
  by_cases hzero : j < 56
  · rw [if_neg (by omega), if_pos hzero]
    rfl
  · rw [if_pos (by omega), if_neg hzero]
    have hpos : 64 * (m.length / 64 + 1) + j + 8 - 64 * ((m.length + 8) / 64 + 1) = j - 56 := by omega
    rw [hpos]
    rfl

/-- The block that a message byte fills is a block of the message. -/
theorem split_pad_filled {m : List Byte} {b : Byte} {BLK : Block} (hm : m.length % 64 = 63)
    (hbuf : ∀ j : Fin 64, j.val < 63 → m[64 * (m.length / 64) + j.val]? = some BLK[j.val]) :
    (split (pad (m ++ [b])))[m.length / 64]? = some (BLK.set 63 b) := by
  refine split_pad_message (m ++ [b]) _ (by simp; omega) _ fun j => ?_
  by_cases hj : j.val < 63
  · rw [List.getElem?_append_left (List.getElem?_eq_some_iff.1 (hbuf j hj)).1, hbuf j hj,
      Vector.getElem_set_ne _ _ (by omega)]
  · have hend : 64 * (m.length / 64) + j.val = m.length := by omega
    have hj63 : j.val = 63 := by omega
    rw [hend]
    simp [hj63]

end Sys2Proof.Machine
end

section
/-! The job in progress (O57): for each phase what makes a state one of the job, and for each effect of a step that it
leads from a state of the job to one. -/

namespace Sys2Proof.Machine

/-! ## What makes a state one of the job, phase by phase -/

/-- The counters agree with the bytes absorbed, in every phase. -/
structure JobCounts (m : List Byte) (s : State) : Prop where
  length : s.L.toNat = m.length
  limit : m.length ≤ s.cfg.maxMsgBytes.toNat
  fill : s.blen.toNat = m.length % 64

theorem InJob.counts {m : List Byte} {s : State} (h : InJob m s) : JobCounts m s := ⟨h.length, h.limit, h.fill⟩

theorem JobCounts.of_eq {m : List Byte} {s s' : State} (h : JobCounts m s)
    (he : s'.L = s.L ∧ s'.blen = s.blen ∧ s'.cfg = s.cfg) : JobCounts m s' := by
  obtain ⟨hL, hblen, hcfg⟩ := he
  exact ⟨by rw [hL, h.length], by rw [hcfg]; exact h.limit, by rw [hblen, h.fill]⟩

/-- The bytes of the unfinished block stand in BLK below blen (20_memory.md R62). -/
def Buffered (m : List Byte) (s : State) : Prop :=
  ∀ j : Fin 64, j.val < s.blen.toNat → m[64 * (m.length / 64) + j.val]? = some s.BLK[j.val]

theorem InJob.of_absorb {m : List Byte} {s : State} (hc : JobCounts m s) (hp : s.phase = .absorb)
    (hst : s.pstage = .msg) (hH : s.H = hashStateAfter m (m.length / 64)) (hbuf : Buffered m s) : InJob m s := by
  constructor
  case buffered => exact fun _ => hbuf
  all_goals simp [hp, hst, hc.length, hc.limit, hc.fill, inBlock, accumsDone, hH]

theorem InJob.of_pad {m : List Byte} {s : State} (hc : JobCounts m s) (hp : s.phase = .pad) (hst : s.pstage ≠ .last)
    (hpend : s.pstage = .pending → 56 ≤ m.length % 64) (hH : s.H = hashStateAfter m (accumsDone m.length .pad s.pstage))
    (hbuf : s.pstage = .msg → Buffered m s) : InJob m s := by
  constructor
  case buffered =>
    rintro (ha | ⟨-, hm⟩)
    · simp [hp] at ha
    · exact hbuf hm
  case pending_fill => exact hpend
  all_goals simp [hp, hst, hc.length, hc.limit, hc.fill, inBlock, hH]

/-- A block is being compressed: the block `n` of the padded message, in H the state before it. -/
structure Compressing (m : List Byte) (n : Nat) (s : State) : Prop where
  inBlock : inBlock s.phase
  index : accumsDone m.length s.phase s.pstage = n
  block_full : s.pstage = .msg → 0 < m.length ∧ m.length % 64 = 0
  pending_fill : s.pstage = .pending → 56 ≤ m.length % 64
  hash_state : s.H = hashStateAfter m n
  block : (split (pad m))[n]? = some s.BLK

theorem InJob.of_compressing {m : List Byte} {n : Nat} {s : State} (hc : JobCounts m s) (h : Compressing m n s)
    (hW : s.phase = .round ∨ s.phase = .accum → s.W = expand s.BLK)
    (hround : s.phase = .round → s.Rw = compressUpTo s.H s.W s.t.toNat)
    (haccum : s.phase = .accum → s.Rw = compress s.H s.W) : InJob m s := by
  constructor
  case hash_state => rw [h.index]; exact h.hash_state
  case block => rw [h.index]; exact fun _ => h.block
  case block_full => exact fun _ => h.block_full
  case pending_fill => exact h.pending_fill
  case schedule => exact hW
  case rounds => exact hround
  case compressed => exact haccum
  all_goals rcases h.inBlock with hp | hp | hp <;> simp [hp, hc.length, hc.limit, hc.fill]

theorem InJob.of_expand {m : List Byte} {n : Nat} {s : State} (hc : JobCounts m s) (h : Compressing m n s)
    (hp : s.phase = .expand) : InJob m s :=
  .of_compressing hc h (by simp [hp]) (by simp [hp]) (by simp [hp])

theorem InJob.compressing {m : List Byte} {s : State} (h : InJob m s) (hb : inBlock s.phase) :
    Compressing m (accumsDone m.length s.phase s.pstage) s :=
  ⟨hb, rfl, h.block_full hb, h.pending_fill, h.hash_state, h.block hb⟩

theorem InJob.of_assemble {m : List Byte} {s : State} (hc : JobCounts m s) (hp : s.phase = .assemble)
    (hst : s.pstage = .last) (hH : s.H = hashStateAfter m (blockCount m.length)) : InJob m s := by
  constructor <;> simp [hp, hst, hc.length, hc.limit, hc.fill, Machine.inBlock, accumsDone, hH]

theorem InJob.of_done {m : List Byte} {s : State} (hc : JobCounts m s) (hp : s.phase = .done) (hst : s.pstage = .last)
    (hH : s.H = hashStateAfter m (blockCount m.length)) (hD : s.D = hash m) : InJob m s := by
  constructor <;> simp [hp, hst, hc.length, hc.limit, hc.fill, Machine.inBlock, accumsDone, hH, hD]

theorem InJob.of_error {m : List Byte} {s : State} (hc : JobCounts m s) (hp : s.phase = .error)
    (hst : s.pstage ≠ .pending) (hH : s.H = hashStateAfter m (accumsDone m.length .error s.pstage)) : InJob m s := by
  constructor <;> simp [hp, hst, hc.length, hc.limit, hc.fill, Machine.inBlock, hH]

/-- What it is to be part of a job says nothing about the input ports. -/
theorem inJob_ports {m : List Byte} {s : State} (h : InJob m s) (cs : List (Option CmdWord)) (rs : List Bool) :
    InJob m { s with cmdIn := cs, rstIn := rs } :=
  ⟨h.opened, h.length, h.limit, h.fill, h.absorb_stage, h.pad_stage, h.end_stage, h.error_stage, h.block_full,
    h.pending_fill, h.hash_state, h.buffered, h.block, h.schedule, h.rounds, h.compressed, h.digest⟩

/-! ## Commands -/

theorem InJob.hash_absorb {m : List Byte} {s : State} (h : InJob m s) (ha : s.phase = .absorb) :
    s.H = hashStateAfter m (m.length / 64) := by
  simpa [ha, accumsDone] using h.hash_state

theorem inJob_startJob (s : State) : InJob [] (startJob s) :=
  .of_absorb ⟨rfl, Nat.zero_le _, rfl⟩ rfl rfl rfl fun _ hj => absurd hj (Nat.not_lt_zero _)

/-- An error is raised in ABSORB or in DONE, where the bytes absorbed and H stay as they are (60_exceptions.md R235). -/
theorem inJob_raiseError {m : List Byte} {s : State} (h : InJob m s) (hq : cmdReady s = true) (he : s.phase ≠ .error)
    (c : Cause) : InJob m (raiseError c s) := by
  have hstage : s.pstage ≠ .pending ∧ s.H = hashStateAfter m (accumsDone m.length .error s.pstage) := by
    have hH := h.hash_state
    rcases (cmdReady_iff s).1 hq with hp | hp | hp | hp
    · exact absurd hp h.opened
    · have hst := h.absorb_stage hp
      simpa [hp, hst, accumsDone] using hH
    · have hst := h.end_stage (.inr hp)
      simpa [hp, hst, accumsDone] using hH
    · exact absurd hp he
  exact .of_error (h.counts.of_eq ⟨rfl, rfl, rfl⟩) rfl hstage.1 hstage.2

theorem inJob_finishJob {m : List Byte} {s : State} (h : InJob m s) (ha : s.phase = .absorb) :
    InJob m (finishJob s) := by
  have hst := h.absorb_stage ha
  refine .of_pad (h.counts.of_eq ⟨rfl, rfl, rfl⟩) rfl (by simp [hst]) (by simp [hst]) ?_ fun _ => h.buffered (.inl ha)
  simpa [hst, accumsDone] using h.hash_absorb ha

theorem jobCounts_absorbByte {m : List Byte} {s : State} (h : JobCounts m s) (b : Byte) (hL : s.L ≠ s.cfg.maxMsgBytes) :
    JobCounts (m ++ [b]) (absorbByte b s) := by
  obtain ⟨hlen, hlimit, hfill⟩ := h
  obtain ⟨hlt, hsucc⟩ := toNat_add_one_of_lt (by omega) hL
  constructor
  · rw [absorbByte_L, hsucc, hlen, List.length_append, List.length_singleton]
  · rw [absorbByte_cfg, List.length_append, List.length_singleton]; omega
  · rw [absorbByte_blen, toNat_counter_succ, List.length_append, hfill]
    simp

/-- A byte that does not fill the block is the last one buffered. -/
theorem buffered_absorbByte {m : List Byte} {s : State} (hfill : s.blen.toNat = m.length % 64) (hbuf : Buffered m s)
    (b : Byte) (h63 : s.blen ≠ 63) : Buffered (m ++ [b]) (absorbByte b s) := by
  have hne : s.blen.toNat ≠ 63 := fun h => h63 (BitVec.eq_of_toNat_eq h)
  have hlt : s.blen.toNat < 64 := s.blen.isLt
  have hblen : (absorbByte b s).blen.toNat = s.blen.toNat + 1 := by
    rw [absorbByte_blen, toNat_counter_succ]; omega
  have hdiv : (m ++ [b]).length / 64 = m.length / 64 := by simp; omega
  intro j hj
  rw [hblen] at hj
  simp only [absorbByte_BLK, hdiv]
  by_cases hjm : j.val < s.blen.toNat
  · rw [List.getElem?_append_left (List.getElem?_eq_some_iff.1 (hbuf j hjm)).1, hbuf j hjm,
      Vector.getElem_set_ne _ _ (by omega)]
  · have hjeq : s.blen.toNat = j.val := by omega
    have hend : 64 * (m.length / 64) + j.val = m.length := by omega
    rw [hend]
    simp [hjeq]

/-- A byte that fills the block hands it to EXPAND. -/
theorem compressing_absorbByte {m : List Byte} {s : State} (h : InJob m s) (b : Byte) (ha : s.phase = .absorb)
    (h63 : s.blen = 63) : Compressing (m ++ [b]) (m.length / 64) (absorbByte b s) := by
  have hst := h.absorb_stage ha
  have hbuf : Buffered m s := h.buffered (.inl ha)
  have hmod : m.length % 64 = 63 := by rw [← h.fill, h63]; rfl
  have hphase : (absorbByte b s).phase = .expand := by rw [absorbByte_phase, if_pos h63]
  refine ⟨.inl hphase, ?_, fun _ => ?_, by simp [hst], ?_, ?_⟩
  · rw [hphase, absorbByte_pstage, hst]
    simp [accumsDone]; omega
  · simp; omega
  · rw [absorbByte_H, hashStateAfter_snoc m b _ le_rfl, h.hash_absorb ha]
  · simp only [absorbByte_BLK, h63]
    exact split_pad_filled hmod fun j hj => hbuf j (by rw [h63]; exact hj)

theorem inJob_absorbByte {m : List Byte} {s : State} (h : InJob m s) (b : Byte) (ha : s.phase = .absorb)
    (hL : s.L ≠ s.cfg.maxMsgBytes) : InJob (m ++ [b]) (absorbByte b s) := by
  have hcounts := jobCounts_absorbByte h.counts b hL
  by_cases h63 : s.blen = 63
  · exact .of_expand hcounts (compressing_absorbByte h b ha h63) (by rw [absorbByte_phase, if_pos h63])
  · have hdiv : (m ++ [b]).length / 64 = m.length / 64 := by
      have hne : s.blen.toNat ≠ 63 := fun h => h63 (BitVec.eq_of_toNat_eq h)
      have hfill := h.fill
      simp; omega
    refine .of_absorb hcounts (by rw [absorbByte_phase, if_neg h63, ha])
      (by rw [absorbByte_pstage, h.absorb_stage ha]) ?_ (buffered_absorbByte h.fill (h.buffered (.inl ha)) b h63)
    rw [absorbByte_H, hdiv, hashStateAfter_snoc m b _ le_rfl, h.hash_absorb ha]

/-! ## Micro-operations -/

theorem inJob_padFirst {m : List Byte} {s : State} (h : InJob m s) (hp : s.phase = .pad) (hst : s.pstage = .msg) :
    InJob m (padFirst s) := by
  have hfill := h.fill
  have hH : s.H = hashStateAfter m (m.length / 64) := by simpa [hp, hst, accumsDone] using h.hash_state
  refine .of_expand (h.counts.of_eq (by simp)) (n := m.length / 64)
    ⟨.inl (padFirst_phase s), ?_, ?_, ?_, ?_, ?_⟩ (padFirst_phase s)
  · rw [padFirst_phase, padFirst_pstage]
    split
    · simp [accumsDone, blockCount]; omega
    · rfl
  · rw [padFirst_pstage]; split <;> simp
  · rw [padFirst_pstage]; split <;> simp; omega
  · rw [padFirst_H, hH]
  · rw [padFirst_BLK]
    exact split_pad_padFirstBlock h.length hfill (h.buffered (.inr ⟨hp, hst⟩))

theorem inJob_padSecond {m : List Byte} {s : State} (h : InJob m s) (hp : s.phase = .pad) (hst : s.pstage = .pending) :
    InJob m (padSecond s) := by
  have hpend := h.pending_fill hst
  have hH : s.H = hashStateAfter m (m.length / 64 + 1) := by simpa [hp, hst, accumsDone] using h.hash_state
  refine .of_expand (h.counts.of_eq (by simp)) (n := m.length / 64 + 1)
    ⟨.inl (padSecond_phase s), ?_, by simp, by simp, ?_, ?_⟩ (padSecond_phase s)
  · simp [accumsDone, blockCount]; omega
  · rw [padSecond_H, hH]
  · rw [padSecond_BLK]
    exact split_pad_padSecondBlock h.length hpend

/-- The micro-operations that keep pstage, H and BLK go on with the same block. -/
theorem Compressing.of_eq {m : List Byte} {n : Nat} {s s' : State} (h : Compressing m n s)
    (hb : Machine.inBlock s'.phase) (he : s'.pstage = s.pstage ∧ s'.H = s.H ∧ s'.BLK = s.BLK) : Compressing m n s' := by
  obtain ⟨hst, hH, hBLK⟩ := he
  refine ⟨hb, ?_, by rw [hst]; exact h.block_full, by rw [hst]; exact h.pending_fill, by rw [hH]; exact h.hash_state,
    by rw [hBLK]; exact h.block⟩
  rw [hst, ← h.index]
  rcases hb with hb | hb | hb <;> rcases h.inBlock with hp | hp | hp <;> rw [hb, hp] <;> rfl

theorem inJob_expandAndSeed {m : List Byte} {s : State} (h : InJob m s) (hp : s.phase = .expand) :
    InJob m (expandAndSeed s) :=
  .of_compressing (h.counts.of_eq (by simp)) ((h.compressing (.inl hp)).of_eq (.inr (.inl rfl)) (by simp))
    (by simp) (by simp) (by simp)

/-- One more round of the registers that have done t rounds (43_compressor.md R158, R159). -/
theorem roundRegs_compressUpTo (S : HashState) (W : Schedule) (t : BitVec 6) :
    roundRegs W t (compressUpTo S W t.toNat) = compressUpTo S W (t.toNat + 1) := by
  rw [compressUpTo_succ, BitVec.ofNat_toNat, BitVec.setWidth_eq]

theorem inJob_roundAndCount {m : List Byte} {s : State} (h : InJob m s) (hp : s.phase = .round) :
    InJob m (roundAndCount s) := by
  have hcounts : JobCounts m (roundAndCount s) := h.counts.of_eq (by simp)
  have hblock {p : Phase} (hp' : (roundAndCount s).phase = p) (hb : inBlock p) :
      Compressing m (accumsDone m.length s.phase s.pstage) (roundAndCount s) :=
    (h.compressing (.inr (.inl hp))).of_eq (by rw [hp']; exact hb) (by simp)
  have hW : (roundAndCount s).W = expand (roundAndCount s).BLK := by simpa using h.schedule (.inl hp)
  have hRw : (roundAndCount s).Rw = compressUpTo s.H s.W (s.t.toNat + 1) := by
    rw [roundAndCount_Rw, h.rounds hp, roundRegs_compressUpTo]
  by_cases h63 : s.t = 63#6
  · have hph : (roundAndCount s).phase = .accum := by simp [h63]
    refine .of_compressing hcounts (hblock hph (.inr (.inr rfl))) (fun _ => hW) (by simp [h63]) fun _ => ?_
    rw [hRw, h63, roundAndCount_H, roundAndCount_W]
    rfl
  · have hph : (roundAndCount s).phase = .round := by simp [h63, hp]
    refine .of_compressing hcounts (hblock hph (.inr (.inl rfl))) (fun _ => hW) (fun _ => ?_) (by simp [h63, hp])
    have ht : (roundAndCount s).t.toNat = s.t.toNat + 1 := by
      have hne : s.t.toNat ≠ 63 := fun h => h63 (BitVec.eq_of_toNat_eq h)
      rw [roundAndCount_t, toNat_counter_succ]
      omega
    rw [hRw, ht, roundAndCount_H, roundAndCount_W]

theorem inJob_accumulateHash {m : List Byte} {s : State} (h : InJob m s) (hp : s.phase = .accum) :
    InJob m (accumulateHash s) := by
  have hb : inBlock s.phase := .inr (.inr hp)
  have hcounts : JobCounts m (accumulateHash s) := h.counts.of_eq (by simp)
  have hH : (accumulateHash s).H = hashStateAfter m (accumsDone m.length s.phase s.pstage + 1) := by
    rw [hashStateAfter_succ m _ _ (h.block hb), ← h.hash_state, accumulateHash_H, h.compressed hp, h.schedule (.inr hp)]
  rw [hp] at hH
  cases hst : s.pstage with
  | msg =>
    have hfull := h.block_full hb hst
    have hblen : s.blen.toNat = 0 := by rw [h.fill]; exact hfull.2
    refine .of_absorb hcounts (by simp [hst, afterAccum]) (by simp [hst]) ?_ fun j hj => ?_
    · rw [hH, hst]
      simp only [accumsDone]
      congr 1; omega
    · simp [hblen] at hj
  | pending =>
    refine .of_pad hcounts (by simp [hst, afterAccum]) (by simp [hst]) (fun _ => h.pending_fill hst) ?_ (by simp [hst])
    rw [hH, accumulateHash_pstage, hst]
    rfl
  | last =>
    refine .of_assemble hcounts (by simp [hst, afterAccum]) (by simp [hst]) ?_
    rw [hH, hst]
    rfl

theorem inJob_assembleDigest {m : List Byte} {s : State} (h : InJob m s) (hp : s.phase = .assemble) :
    InJob m (assembleDigest s) := by
  have hH : s.H = hashStateAfter m (blockCount m.length) := by simpa [hp, accumsDone] using h.hash_state
  refine .of_done (h.counts.of_eq (by simp)) (by simp) (by simp [h.end_stage (.inl hp)]) (by simpa using hH) ?_
  rw [assembleDigest_D, hH, hash_eq]
  rfl

theorem inJob_microEffect {m : List Byte} {s : State} (h : InJob m s) (hb : busy s = true) :
    InJob m (microEffect s) := by
  have hp : ¬(s.phase = .pad ∧ s.pstage = .last) := fun hp => h.pad_stage hp.1 hp.2
  obtain ⟨hp, hst, he⟩ | ⟨hp, hst, he⟩ | ⟨hp, he⟩ | ⟨hp, he⟩ | ⟨hp, he⟩ | ⟨hp, he⟩ := microEffect_cases hb hp
  · rw [he]; exact inJob_padFirst h hp hst
  · rw [he]; exact inJob_padSecond h hp hst
  · rw [he]; exact inJob_expandAndSeed h hp
  · rw [he]; exact inJob_roundAndCount h hp
  · rw [he]; exact inJob_accumulateHash h hp
  · rw [he]; exact inJob_assembleDigest h hp

/-! ## The step -/

theorem absorbedAfter_of_not_transfers {m : List Byte} {s : State} (h : transfers s = false) :
    absorbedAfter m s = m := by
  simp [absorbedAfter, h]

theorem absorbedAfter_command {m : List Byte} {s : State} {w : CmdWord} (hq : cmdReady s = true) (hc : cmd s = some w) :
    absorbedAfter m s =
      if legal w ∧ opField w = 1 then []
      else if legal w ∧ opField w = 2 ∧ s.phase = .absorb ∧ s.L ≠ s.cfg.maxMsgBytes then m ++ [dataField w]
      else m := by
  simp [absorbedAfter, transfers_of_cmd hq hc, hc]

/-- A command leads from a state of the job to one that has absorbed what the word adds. -/
theorem inJob_commandEffect {m : List Byte} {s : State} {w : CmdWord} (h : InJob m s) (hq : cmdReady s = true) :
    InJob (if legal w ∧ opField w = 1 then []
      else if legal w ∧ opField w = 2 ∧ s.phase = .absorb ∧ s.L ≠ s.cfg.maxMsgBytes then m ++ [dataField w]
      else m) (commandEffect w s) := by
  obtain ⟨hA, hB, he⟩ | ⟨hA, he⟩ | ⟨hA, hB, c, -, hne, he⟩ | ⟨hA, hB, he⟩ | ⟨hA, hB, ha, he⟩ := commandEffect_cases w s
  · rw [he, if_neg hA, if_neg hB]; exact h
  · rw [he, if_pos hA]; exact inJob_startJob s
  · rw [he, if_neg hA, if_neg hB]; exact inJob_raiseError h hq hne c
  · rw [he, if_neg hA, if_pos hB]; exact inJob_absorbByte h _ hB.2.2.1 hB.2.2.2
  · rw [he, if_neg hA, if_neg hB]; exact inJob_finishJob h ha

/-- Settles O57: each effect of a step leads from a state of the job to one with the bytes absorbed by then. -/
theorem everyStepTracksTheJob : Obligations.EveryStepTracksTheJob := by
  intro m s s' h hr hs
  obtain ⟨hr', -⟩ | ⟨-, -, hc, rfl⟩ | ⟨-, hq, w, rest, hc, -, rfl⟩ | ⟨-, hb, -, rfl⟩ := step_cases hs
  · rw [hr] at hr'; cases hr'
  · rw [absorbedAfter_of_not_transfers (transfers_of_no_cmd hc)]
    exact inJob_ports h _ _
  · rw [absorbedAfter_command hq hc]
    exact inJob_commandEffect (inJob_ports h rest s.rstIn.tail) hq
  · rw [absorbedAfter_of_not_transfers (transfers_of_busy hb)]
    exact inJob_microEffect (inJob_ports h _ _) hb

end Sys2Proof.Machine
end

section
/-! Hidden registers are unobservable outside a job (O60; 10_state.md R44, R45): a simulation between two runs. Alike
states agree on what the outputs show and, inside a job, on the registers that the job will still read; every step
leads from alike states to alike states. -/

namespace Sys2Proof.Machine

/-- Agreement on what the outputs show, on the ports and on the limit. -/
structure SameVisible (s r : State) : Prop where
  phase : r.phase = s.phase
  cause : r.cause = s.cause
  D : r.D = s.D
  cmdIn : r.cmdIn = s.cmdIn
  rstIn : r.rstIn = s.rstIn
  cfg : r.cfg = s.cfg

/-- Agreement on the registers that the job reads before it writes them. -/
structure SameJob (s r : State) : Prop where
  H : r.H = s.H
  blen : r.blen = s.blen
  L : r.L = s.L
  pstage : r.pstage = s.pstage
  buffer : ∀ j : Fin 64, j.val < s.blen.toNat → r.BLK[j.val] = s.BLK[j.val]
  block : inBlock s.phase → r.BLK = s.BLK
  working : s.phase = .round ∨ s.phase = .accum → r.Rw = s.Rw
  rounds : s.phase = .round → r.W = s.W ∧ r.t = s.t

/-- The phases outside a job, in which no register but phase, cause and D is read. -/
def outsideJob (p : Phase) : Prop := p = .idle ∨ p = .done ∨ p = .error

/-- Two states that no sequence of words and resets can tell apart. -/
structure Alike (s r : State) : Prop where
  visible : SameVisible s r
  job : ¬outsideJob s.phase → SameJob s r

theorem alike_of_outsideJob {s r : State} (h : SameVisible s r) (hp : outsideJob s.phase) : Alike s r :=
  ⟨h, fun hn => absurd hp hn⟩

theorem sameVisible_ports {s r : State} (h : SameVisible s r) (cs : List (Option CmdWord)) (rs : List Bool) :
    SameVisible { s with cmdIn := cs, rstIn := rs } { r with cmdIn := cs, rstIn := rs } :=
  ⟨h.phase, h.cause, h.D, rfl, rfl, h.cfg⟩

theorem alike_ports {s r : State} (h : Alike s r) (cs : List (Option CmdWord)) (rs : List Bool) :
    Alike { s with cmdIn := cs, rstIn := rs } { r with cmdIn := cs, rstIn := rs } :=
  ⟨sameVisible_ports h.visible cs rs, fun hn =>
    have hj := h.job hn
    ⟨hj.H, hj.blen, hj.L, hj.pstage, hj.buffer, hj.block, hj.working, hj.rounds⟩⟩

theorem outputs_of_sameVisible {s r : State} (h : SameVisible s r) : outputs r = outputs s := by
  simp only [outputs, cmdReady, status, digestPort, busy, dvalid, err, h.phase, h.cause, h.D]

/-! ## Commands -/

theorem alike_resetRegisters {s r : State} (h : SameVisible s r) : Alike (resetRegisters s) (resetRegisters r) :=
  alike_of_outsideJob ⟨rfl, rfl, rfl, h.cmdIn, h.rstIn, h.cfg⟩ (.inl rfl)

theorem alike_raiseError {s r : State} (h : SameVisible s r) (c : Cause) : Alike (raiseError c s) (raiseError c r) :=
  alike_of_outsideJob ⟨rfl, rfl, rfl, h.cmdIn, h.rstIn, h.cfg⟩ (.inr (.inr rfl))

/-- INIT writes all that a job reads, but what it finds in BLK, W, a..h and t. -/
theorem alike_startJob {s r : State} (h : SameVisible s r) : Alike (startJob s) (startJob r) where
  visible := ⟨rfl, rfl, rfl, h.cmdIn, h.rstIn, h.cfg⟩
  job _ := by constructor <;> simp [inBlock]

theorem Alike.job_of_absorb {s r : State} (h : Alike s r) (ha : s.phase = .absorb) : SameJob s r :=
  h.job (by simp [outsideJob, ha])

theorem alike_finishJob {s r : State} (h : Alike s r) (ha : s.phase = .absorb) : Alike (finishJob s) (finishJob r) where
  visible :=
    have hv := h.visible
    ⟨rfl, hv.cause, hv.D, hv.cmdIn, hv.rstIn, hv.cfg⟩
  job _ := by
    obtain ⟨hH, hblen, hL, hst, hbuf, -, -, -⟩ := h.job_of_absorb ha
    constructor
    case buffer => exact hbuf
    all_goals simp [inBlock, hH, hblen, hL, hst]

/-- After the byte is stored at blen the buffers agree up to it. -/
theorem getElem_absorbByte_BLK {s r : State} (hj : SameJob s r) (b : Byte) (j : Fin 64) (hle : j.val ≤ s.blen.toNat) :
    (absorbByte b r).BLK[j.val] = (absorbByte b s).BLK[j.val] := by
  simp only [absorbByte_BLK, Vector.getElem_set, hj.blen]
  by_cases hjm : s.blen.toNat = j.val
  · simp [hjm]
  · simp only [if_neg hjm]
    exact hj.buffer j (by omega)

theorem alike_absorbByte {s r : State} (h : Alike s r) (b : Byte) (ha : s.phase = .absorb) :
    Alike (absorbByte b s) (absorbByte b r) := by
  have hv := h.visible
  have hj := h.job_of_absorb ha
  have hBLK := getElem_absorbByte_BLK hj b
  constructor
  · constructor <;> simp [hv.phase, hv.cause, hv.D, hv.cmdIn, hv.rstIn, hv.cfg, hj.blen]
  · intro _
    constructor
    case buffer =>
      intro j hlt
      rw [absorbByte_blen, toNat_counter_succ] at hlt
      exact hBLK j (by omega)
    case block =>
      intro hb
      have h63 : s.blen = 63 := by
        by_contra hn
        rw [absorbByte_phase, if_neg hn, ha] at hb
        simp [inBlock] at hb
      exact Vector.ext fun j hlt => hBLK ⟨j, hlt⟩ (by rw [h63]; exact Nat.le_of_lt_succ hlt)
    case working | rounds => rw [absorbByte_phase]; split <;> simp [ha]
    all_goals simp [hj.H, hj.blen, hj.L, hj.pstage]

theorem alike_unlessError {f : State → State} {s r : State} (h : Alike s r)
    (hf : s.phase ≠ .error → Alike (f s) (f r)) : Alike (unlessError f s) (unlessError f r) := by
  unfold unlessError
  rw [h.visible.phase]
  split
  · exact h
  · next he => exact hf he

theorem alike_inJob {f : State → State} {s r : State} (h : Alike s r) (hf : s.phase = .absorb → Alike (f s) (f r)) :
    Alike (inJob f s) (inJob f r) := by
  unfold inJob
  rw [h.visible.phase]
  split
  · next ha => exact hf ha
  · exact alike_raiseError h.visible .seq

theorem alike_writeInJob {s r : State} (h : Alike s r) (b : Byte) (ha : s.phase = .absorb) :
    Alike (writeInJob b s) (writeInJob b r) := by
  unfold writeInJob
  rw [(h.job_of_absorb ha).L, h.visible.cfg]
  split
  · exact alike_raiseError h.visible .len
  · exact alike_absorbByte h b ha

theorem alike_commandEffect {s r : State} (h : Alike s r) (w : CmdWord) :
    Alike (commandEffect w s) (commandEffect w r) := by
  unfold commandEffect
  repeat' split
  · exact h
  · exact alike_startJob h.visible
  · exact alike_unlessError h fun _ => alike_inJob h (alike_writeInJob h _)
  · exact alike_unlessError h fun _ => alike_inJob h (alike_finishJob h)
  · exact alike_unlessError h fun _ => alike_raiseError h.visible .cmd

/-! ## Micro-operations -/

theorem not_outsideJob_of_busy {s : State} (hb : busy s = true) : ¬outsideJob s.phase := by
  rcases (busy_iff s).1 hb with hp | hp | hp | hp | hp <;> simp [outsideJob, hp]

/-- PAD reads the buffer below blen and writes the rest (40_padder.md R106). -/
theorem padFirstBlock_congr {B B' : Block} {blen : BitVec 6} {L : BitVec 61}
    (h : ∀ j : Fin 64, j.val < blen.toNat → B'[j.val] = B[j.val]) :
    padFirstBlock B' blen L = padFirstBlock B blen L := by
  refine Vector.ext fun j hj => ?_
  rw [padFirstBlock_getElem _ _ _ _ hj, padFirstBlock_getElem _ _ _ _ hj]
  split
  · next hlt => exact h ⟨j, hj⟩ hlt
  · rfl

theorem alike_padFirst {s r : State} (hv : SameVisible s r) (hj : SameJob s r) : Alike (padFirst s) (padFirst r) := by
  have hBLK := padFirstBlock_congr (L := s.L) hj.buffer
  constructor
  · constructor <;> simp [hv.cause, hv.D, hv.cmdIn, hv.rstIn, hv.cfg]
  · intro _
    constructor <;> simp [hj.H, hj.blen, hj.L, hBLK]

theorem alike_padSecond {s r : State} (hv : SameVisible s r) (hj : SameJob s r) :
    Alike (padSecond s) (padSecond r) := by
  constructor
  · constructor <;> simp [hv.cause, hv.D, hv.cmdIn, hv.rstIn, hv.cfg]
  · intro _
    constructor <;> simp [hj.H, hj.blen, hj.L]

/-- EXPAND writes W, a..h and t from BLK and H, which agree. -/
theorem alike_expandAndSeed {s r : State} (hv : SameVisible s r) (hj : SameJob s r) (hp : s.phase = .expand) :
    Alike (expandAndSeed s) (expandAndSeed r) := by
  have hBLK := hj.block (.inl hp)
  constructor
  · constructor <;> simp [hv.cause, hv.D, hv.cmdIn, hv.rstIn, hv.cfg]
  · intro _
    constructor <;> simp [hj.H, hj.blen, hj.L, hj.pstage, hBLK]

theorem alike_roundAndCount {s r : State} (hv : SameVisible s r) (hj : SameJob s r) (hp : s.phase = .round) :
    Alike (roundAndCount s) (roundAndCount r) := by
  have hBLK := hj.block (.inr (.inl hp))
  have hRw := hj.working (.inl hp)
  obtain ⟨hW, ht⟩ := hj.rounds hp
  constructor
  · constructor <;> simp [hv.phase, hv.cause, hv.D, hv.cmdIn, hv.rstIn, hv.cfg, ht]
  · intro _
    constructor <;> simp [hj.H, hj.blen, hj.L, hj.pstage, hBLK, hRw, hW, ht]

/-- ACCUM goes on with the whole of BLK in agreement, so what stands below blen agrees. -/
theorem alike_accumulateHash {s r : State} (hv : SameVisible s r) (hj : SameJob s r) (hp : s.phase = .accum) :
    Alike (accumulateHash s) (accumulateHash r) := by
  have hBLK := hj.block (.inr (.inr hp))
  have hRw := hj.working (.inr hp)
  have hnext : afterAccum s.pstage ≠ .round := by cases s.pstage <;> simp [afterAccum]
  constructor
  · constructor <;> simp [hv.cause, hv.D, hv.cmdIn, hv.rstIn, hv.cfg, hj.pstage]
  · intro _
    constructor <;> simp [hj.H, hj.blen, hj.L, hj.pstage, hBLK, hRw, hnext]

/-- ASSEMBLE shows what H alone holds. -/
theorem alike_assembleDigest {s r : State} (hv : SameVisible s r) (hj : SameJob s r) :
    Alike (assembleDigest s) (assembleDigest r) :=
  alike_of_outsideJob (by constructor <;> simp [hv.cause, hv.cmdIn, hv.rstIn, hv.cfg, hj.H]) (.inr (.inl (by simp)))

theorem alike_microEffect {s r : State} (h : Alike s r) (hb : busy s = true)
    (hp : ¬(s.phase = .pad ∧ s.pstage = .last)) : Alike (microEffect s) (microEffect r) := by
  have hv := h.visible
  have hj := h.job (not_outsideJob_of_busy hb)
  obtain ⟨hp, hst, he⟩ | ⟨hp, hst, he⟩ | ⟨hp, he⟩ | ⟨hp, he⟩ | ⟨hp, he⟩ | ⟨hp, he⟩ := microEffect_cases hb hp
  · rw [he, microEffect_padMsg (hv.phase.trans hp) (hj.pstage.trans hst)]
    exact alike_padFirst hv hj
  · rw [he, microEffect_padPending (hv.phase.trans hp) (hj.pstage.trans hst)]
    exact alike_padSecond hv hj
  · rw [he, microEffect_expand (hv.phase.trans hp)]
    exact alike_expandAndSeed hv hj hp
  · rw [he, microEffect_round (hv.phase.trans hp)]
    exact alike_roundAndCount hv hj hp
  · rw [he, microEffect_accum (hv.phase.trans hp)]
    exact alike_accumulateHash hv hj hp
  · rw [he, microEffect_assemble (hv.phase.trans hp)]
    exact alike_assembleDigest hv hj

/-! ## Steps and runs -/

/-- Two outcomes that go on in alike states, or that stop for the same reason. -/
inductive AlikeResults : Result → Result → Prop
  | next {s r : State} (h : Alike s r) : AlikeResults (.next s) (.next r)
  | refused (e : Refusal) : AlikeResults (.refused e) (.refused e)

theorem alike_step {s r : State} (h : Alike s r) : AlikeResults (step s) (step r) := by
  have hv := h.visible
  have hrst : rst r = rst s := by simp only [rst, hv.rstIn]
  have hbusy : busy r = busy s := by simp only [busy, hv.phase]
  cases hr : rst s with
  | true =>
    rw [step_reset hr, step_reset (hrst.trans hr)]
    refine .next ?_
    simp only [passPause, pastSample, resetRegisters_cmdIn, hv.cmdIn, hv.rstIn]
    exact alike_ports (alike_resetRegisters (sameVisible_ports hv s.cmdIn s.rstIn.tail)) _ s.rstIn.tail
  | false =>
    cases hb : busy s with
    | true =>
      have hj := h.job (not_outsideJob_of_busy hb)
      by_cases hp : s.phase = .pad ∧ s.pstage = .last
      · rw [step_padAfterLast hr hp.1 hp.2,
          step_padAfterLast (hrst.trans hr) (hv.phase.trans hp.1) (hj.pstage.trans hp.2)]
        exact .refused _
      · rw [step_micro hr hb hp, step_micro (hrst.trans hr) (hbusy.trans hb) (by rw [hv.phase, hj.pstage]; exact hp)]
        refine .next (alike_microEffect ?_ hb hp)
        simp only [passPause, pastSample, hv.cmdIn, hv.rstIn]
        exact alike_ports h _ _
    | false =>
      have hq : cmdReady s = true := by simp [cmdReady, hb]
      have hq' : cmdReady r = true := by simp [cmdReady, hbusy, hb]
      have hports (cs : List (Option CmdWord)) :
          Alike { pastSample s with cmdIn := cs } { pastSample r with cmdIn := cs } := by
        simp only [pastSample, hv.rstIn]
        exact alike_ports h cs _
      cases hc : cmd s with
      | none =>
        have hc' : cmd r = none := by rw [cmd, hv.cmdIn]; exact hc
        rw [step_pause hr hq hc, step_pause (hrst.trans hr) hq' hc', hv.cmdIn]
        exact .next (hports _)
      | some w =>
        obtain ⟨rest, hrest⟩ := cmdIn_of_cmd hc
        rw [step_command hr hq hrest, step_command (hrst.trans hr) hq' (hv.cmdIn.trans hrest)]
        exact .next (alike_commandEffect (hports rest) w)

theorem alike_runSteps {s r : State} (h : Alike s r) (n : Nat) : AlikeResults (runSteps n s) (runSteps n r) := by
  induction n generalizing s r with
  | zero => exact .next h
  | succ n ih =>
    have hstep := alike_step h
    unfold runSteps
    generalize step s = x at hstep ⊢
    generalize step r = y at hstep ⊢
    cases hstep with
    | next h' => exact ih h'
    | refused e => exact .refused e

theorem observed_of_alikeResults {x y : Result} (h : AlikeResults x y) : observed y = observed x := by
  cases h with
  | next h => exact congrArg some (outputs_of_sameVisible h.visible)
  | refused e => rfl

/-- Settles O60: outside a job agreement on the outputs, the ports and the limit is all that a simulation asks for. -/
theorem hiddenRegistersAreUnobservable : Obligations.HiddenRegistersAreUnobservable :=
  fun _ _ n hp hphase hcause hD hcmd hrst hcfg =>
    observed_of_alikeResults (alike_runSteps (alike_of_outsideJob ⟨hphase, hcause, hD, hcmd, hrst, hcfg⟩ hp) n)

end Sys2Proof.Machine
end

section
/-! Who writes which register (O24; 10_state.md R20, R33), and the fields of the status word (O26; R37 to R39). -/

namespace Sys2Proof.Machine

/-! ## The writers of the registers -/

/-- A change of each register of R20 but phase is put down to one of its writers; `inits`, `writes` and `enters` stand
for an INIT, for a WRITE and for the entry of ERROR. -/
structure ChangesByWriters (inits writes enters : Prop) (s s' : State) : Prop where
  H : s'.H ≠ s.H → inits ∨ s.phase = .accum
  Rw : s'.Rw ≠ s.Rw → s.phase = .expand ∨ s.phase = .round
  W : s'.W ≠ s.W → s.phase = .expand
  BLK : s'.BLK ≠ s.BLK → writes ∨ s.phase = .pad
  blen : s'.blen ≠ s.blen → inits ∨ writes
  L : s'.L ≠ s.L → inits ∨ writes
  pstage : s'.pstage ≠ s.pstage → inits ∨ s.phase = .pad
  t : s'.t ≠ s.t → s.phase = .expand ∨ s.phase = .round
  D : s'.D ≠ s.D → inits ∨ enters ∨ s.phase = .assemble
  cause : s'.cause ≠ s.cause → inits ∨ enters

/-- The input ports are no registers. -/
theorem changesByWriters_ports {inits writes enters : Prop} {s s' : State} {cs : List (Option CmdWord)} {rs : List Bool}
    (h : ChangesByWriters inits writes enters { s with cmdIn := cs, rstIn := rs } s') :
    ChangesByWriters inits writes enters s s' :=
  ⟨h.H, h.Rw, h.W, h.BLK, h.blen, h.L, h.pstage, h.t, h.D, h.cause⟩

theorem commandEffect_writers {inits writes : Prop} {w : CmdWord} (s : State)
    (hinit : legal w = true ∧ opField w = 1 → inits) (hwrite : legal w = true ∧ opField w = 2 → writes) :
    ChangesByWriters inits writes (s.phase ≠ .error ∧ (commandEffect w s).phase = .error) s (commandEffect w s) := by
  obtain ⟨-, -, he⟩ | ⟨hA, he⟩ | ⟨-, -, c, -, hne, he⟩ | ⟨-, ⟨hl, ho, -, -⟩, he⟩ | ⟨-, -, -, he⟩ :=
    commandEffect_cases w s
  · rw [he]; constructor <;> simp
  · constructor <;> simp [he, hinit hA]
  · constructor <;> simp [he, hne]
  · constructor <;> simp [he, hwrite ⟨hl, ho⟩]
  · constructor <;> simp [he]

theorem microEffect_writers {s : State} (hb : busy s = true) (hp : ¬(s.phase = .pad ∧ s.pstage = .last))
    (inits writes enters : Prop) : ChangesByWriters inits writes enters s (microEffect s) := by
  obtain ⟨hp, -, he⟩ | ⟨hp, -, he⟩ | ⟨hp, he⟩ | ⟨hp, he⟩ | ⟨hp, he⟩ | ⟨hp, he⟩ := microEffect_cases hb hp <;>
    constructor <;> simp [he, hp]

/-- Settles O24: a command and a micro-operation change a register only as one of its writers, a pause changes none. -/
theorem registersChangeOnlyByTheirWriters : Obligations.RegistersChangeOnlyByTheirWriters := by
  intro s s' hr hs inits writes enters
  suffices h : ChangesByWriters inits writes enters s s' from
    ⟨h.H, h.Rw, h.W, h.BLK, h.blen, h.L, h.pstage, h.t, h.D, h.cause⟩
  obtain ⟨hr', -⟩ | ⟨-, -, -, rfl⟩ | ⟨-, hq, w, rest, hc, -, rfl⟩ | ⟨-, hb, hp, rfl⟩ := step_cases hs
  · rw [hr] at hr'; cases hr'
  · constructor <;> simp
  · have ht := transfers_of_cmd hq hc
    have hinit : legal w = true ∧ opField w = 1 → inits := fun h => ⟨ht, w, hc, h⟩
    have hwrite : legal w = true ∧ opField w = 2 → writes := fun h => ⟨ht, w, hc, h⟩
    exact changesByWriters_ports
      (commandEffect_writers { s with cmdIn := rest, rstIn := s.rstIn.tail } hinit hwrite)
  · exact changesByWriters_ports (microEffect_writers (s := passPause (pastSample s)) hb hp _ _ _)

/-! ## The status word -/

/-- The layout of 10_state.md R39 for any values of its fields. -/
theorem statusLayout (c : BitVec 2) (e d b : Bool) (p : BitVec 4) :
    let x := 0#6 ++ c ++ 0#1 ++ BitVec.ofBool e ++ BitVec.ofBool d ++ BitVec.ofBool b ++ p
    x.extractLsb' 0 4 = p ∧ x.getLsbD 4 = b ∧ x.getLsbD 5 = d ∧ x.getLsbD 6 = e ∧ x.getLsbD 7 = false ∧
      x.extractLsb' 8 2 = c ∧ x.extractLsb' 10 6 = 0 := by
  revert c e d b p; decide

/-- Settles O26: the fields are those of the layout, the codes are listed. -/
theorem statusWordFields : Obligations.StatusWordFields := by
  refine ⟨fun s => ?_, rfl, rfl⟩
  obtain ⟨hphase, hbusy, hdvalid, herr, h7, hcause, hzero⟩ :=
    statusLayout s.cause.code (err s) (dvalid s) (busy s) s.phase.code
  exact ⟨hphase, hbusy.trans (by simp [cmdReady]), hdvalid, herr, h7, hcause, hzero, cmdReady_iff s⟩

end Sys2Proof.Machine
end

section
/-! The digest while the core stays in DONE (O28; 20_memory.md R70). -/

namespace Sys2Proof.Machine

/-- Each command that changes the state leaves DONE: INIT opens a job, any other one raises an error. -/
theorem commandEffect_eq_self_of_done {w : CmdWord} {s : State} (hd : s.phase = .done)
    (hd' : (commandEffect w s).phase = .done) : commandEffect w s = s := by
  have ha : s.phase ≠ .absorb := by simp [hd]
  obtain ⟨-, -, he⟩ | ⟨-, he⟩ | ⟨-, -, c, -, -, he⟩ | ⟨-, ⟨-, -, ha', -⟩, -⟩ | ⟨-, -, ha', -⟩ := commandEffect_cases w s
  · exact he
  · simp [he] at hd'
  · simp [he] at hd'
  · exact absurd ha' ha
  · exact absurd ha' ha

theorem step_D_of_done {s s' : State} (hd : s.phase = .done) (hs : step s = .next s') (hd' : s'.phase = .done) :
    s'.D = s.D := by
  obtain ⟨-, rfl⟩ | ⟨-, -, -, rfl⟩ | ⟨-, -, w, rest, -, -, rfl⟩ | ⟨-, hb, -, -⟩ := step_cases hs
  · simp at hd'
  · rfl
  · rw [commandEffect_eq_self_of_done (s := { pastSample s with cmdIn := rest }) hd hd']
    rfl
  · simp [busy, hd, Phase.isBusy] at hb

/-- Settles O28: the port shows D and nothing else, and a step from DONE to DONE keeps D. -/
theorem digestStableInDone : Obligations.DigestStableInDone := by
  intro s s' hd hs hd'
  rw [digestPort, digestPort, step_D_of_done hd hs hd']

end Sys2Proof.Machine
end

section
/-! Decoder and encoder (O1 to O4, O13; 30_encoding.md R80 to R84): the fields of a word as numbers and under a mask,
what a word decodes to by its fields, the round trip, and the count of the illegal words. -/

namespace Sys2Proof

/-! ## The fields of a word -/

theorem toNat_opField (w : CmdWord) : (opField w).toNat = w.toNat / 2 ^ 12 := by
  have hw := w.isLt
  rw [opField, BitVec.extractLsb'_toNat, Nat.shiftRight_eq_div_pow]
  omega

theorem toNat_rsvField (w : CmdWord) : (rsvField w).toNat = w.toNat / 2 ^ 8 % 16 := by
  rw [rsvField, BitVec.extractLsb'_toNat, Nat.shiftRight_eq_div_pow]

theorem dataField_eq_ofNat (w : CmdWord) : dataField w = BitVec.ofNat 8 (w.toNat % 256) := by
  apply BitVec.eq_of_toNat_eq
  rw [dataField, BitVec.extractLsb'_toNat, BitVec.toNat_ofNat, Nat.shiftRight_zero, Nat.mod_mod]

theorem commandWord_and (op rsv op' rsv' : BitVec 4) (data data' : Byte) :
    commandWord op rsv data &&& commandWord op' rsv' data' =
      commandWord (op &&& op') (rsv &&& rsv') (data &&& data') := by
  apply BitVec.eq_of_getLsbD_eq
  intro i hi
  simp only [BitVec.getLsbD_and, commandWord_getLsbD _ _ _ i hi]
  split_ifs <;> rfl

/-- The mask 0xFF00 of 30_encoding.md R81 keeps OP and RSV and clears DATA. -/
theorem and_mask_eq_commandWord (w : CmdWord) : w &&& 0xFF00 = commandWord (opField w) (rsvField w) 0#8 := by
  have hmask : (0xFF00 : CmdWord) = commandWord (BitVec.allOnes 4) (BitVec.allOnes 4) 0#8 := by decide
  calc w &&& 0xFF00
      = commandWord (opField w) (rsvField w) (dataField w) &&& commandWord (BitVec.allOnes 4) (BitVec.allOnes 4) 0#8 := by
        rw [commandWord_fields, hmask]
    _ = commandWord (opField w) (rsvField w) 0#8 := by
        simp only [commandWord_and, BitVec.and_allOnes, BitVec.and_zero]

/-- The match values of R81 have RSV = 0. -/
theorem fields_of_and_mask {w : CmdWord} {op : BitVec 4} (h : w &&& 0xFF00 = commandWord op 0 0) :
    opField w = op ∧ rsvField w = 0 := by
  rw [and_mask_eq_commandWord] at h
  exact ⟨by simpa using congrArg opField h, by simpa using congrArg rsvField h⟩

/-! ## What a word decodes to -/

theorem legal_iff_toNat (w : CmdWord) : legal w = true ↔ w.toNat / 2 ^ 12 ≤ 3 ∧ w.toNat / 2 ^ 8 % 16 = 0 := by
  rw [legal_iff, toNat_opField, ← toNat_rsvField, ← BitVec.toNat_inj]
  rfl

/-- The OP of a legal word is one of the four of R81. -/
theorem opField_cases_of_legal {w : CmdWord} (h : legal w = true) :
    opField w = 0 ∨ opField w = 1 ∨ opField w = 2 ∨ opField w = 3 := by
  have hop : ∀ op : BitVec 4, op.toNat ≤ 3 → op = 0 ∨ op = 1 ∨ op = 2 ∨ op = 3 := by decide
  exact hop _ ((legal_iff w).1 h).1

/-- A legal word is {OP, 0, DATA}. -/
theorem commandWord_of_legal {w : CmdWord} (h : legal w = true) : commandWord (opField w) 0 (dataField w) = w := by
  rw [← ((legal_iff w).1 h).2, commandWord_fields]

theorem decodeCommand_of_legal {w : CmdWord} (h : legal w = true) : decodeCommand w = decodeLegal w := if_pos h

theorem decodeCommand_of_illegal {w : CmdWord} (h : legal w = false) : decodeCommand w = decodeIllegal w :=
  if_neg (by simp [h])

theorem decodeLegal_nop {w : CmdWord} (h : opField w = 0) : decodeLegal w = .nop (dataField w) := by
  simp [decodeLegal, h]

theorem decodeLegal_init {w : CmdWord} (h : opField w = 1) : decodeLegal w = .init (dataField w) := by
  simp [decodeLegal, h]

theorem decodeLegal_write {w : CmdWord} (h : opField w = 2) : decodeLegal w = .write (dataField w) := by
  simp [decodeLegal, h]

theorem decodeLegal_finish {w : CmdWord} (h : opField w = 3) : decodeLegal w = .finish (dataField w) := by
  simp [decodeLegal, h]

/-- A word under one of the match values of R81 is legal, with the OP of the match value. -/
theorem decodeCommand_of_and_mask {w : CmdWord} {op : BitVec 4} (hle : op.toNat ≤ 3)
    (h : w &&& 0xFF00 = commandWord op 0 0) : decodeCommand w = decodeLegal w ∧ opField w = op := by
  obtain ⟨hop, hrsv⟩ := fields_of_and_mask h
  exact ⟨decodeCommand_of_legal ((legal_iff w).2 ⟨hop ▸ hle, hrsv⟩), hop⟩

theorem isIllegal_decodeLegal (w : CmdWord) : (decodeLegal w).isIllegal = false := by
  unfold decodeLegal
  split_ifs <;> rfl

theorem isIllegal_decodeIllegal (w : CmdWord) : (decodeIllegal w).isIllegal = true := by
  unfold decodeIllegal
  split_ifs <;> rfl

theorem isIllegal_decodeCommand (w : CmdWord) : (decodeCommand w).isIllegal = !legal w := by
  cases h : legal w with
  | true => rw [decodeCommand_of_legal h, isIllegal_decodeLegal]; rfl
  | false => rw [decodeCommand_of_illegal h, isIllegal_decodeIllegal]; rfl

/-- A legal word decodes to the command that its OP numbers (R81). -/
theorem getElem?_commands_of_legal {w : CmdWord} (h : legal w = true) :
    [Instr.nop (dataField w), .init (dataField w), .write (dataField w), .finish (dataField w)][w.toNat / 2 ^ 12]? =
      some (decodeCommand w) := by
  rw [← toNat_opField, decodeCommand_of_legal h]
  obtain hop | hop | hop | hop := opField_cases_of_legal h
  · rw [decodeLegal_nop hop, hop]; rfl
  · rw [decodeLegal_init hop, hop]; rfl
  · rw [decodeLegal_write hop, hop]; rfl
  · rw [decodeLegal_finish hop, hop]; rfl

/-! ## The round trip -/

theorem encode_decodeLegal {w : CmdWord} (h : legal w = true) : encode (decodeLegal w) = some (.command w) := by
  have hw := commandWord_of_legal h
  obtain hop | hop | hop | hop := opField_cases_of_legal h <;> rw [hop] at hw
  · rw [decodeLegal_nop hop, encode, hw]
  · rw [decodeLegal_init hop, encode, hw]
  · rw [decodeLegal_write hop, encode, hw]
  · rw [decodeLegal_finish hop, encode, hw]

/-! The bits that choose an ILLEGAL row are those that its code writes as constants: OP or RSV is put together again from
them and from the row's operand. -/

theorem append_op_4to7 : ∀ op : BitVec 4, op.getLsbD 3 = false ∧ op.getLsbD 2 = true →
    0b01#2 ++ op.extractLsb' 0 2 = op := by decide

theorem append_op_8to15 : ∀ op : BitVec 4, op.getLsbD 3 = true → 0b1#1 ++ op.extractLsb' 0 3 = op := by decide

theorem append_op_0to3 : ∀ op : BitVec 4, ¬(op.getLsbD 3 = false ∧ op.getLsbD 2 = true) → ¬op.getLsbD 3 = true →
    0b00#2 ++ op.extractLsb' 0 2 = op ∧ op.toNat ≤ 3 := by decide

theorem append_rsv_bit8 : ∀ rsv : BitVec 4, rsv.getLsbD 0 = true → rsv.extractLsb' 1 3 ++ 0b1#1 = rsv := by decide

theorem append_rsv_bit9 : ∀ rsv : BitVec 4, ¬rsv.getLsbD 0 = true → rsv.getLsbD 1 = true →
    rsv.extractLsb' 2 2 ++ 0b10#2 = rsv := by decide

theorem append_rsv_bit10 : ∀ rsv : BitVec 4, ¬rsv.getLsbD 0 = true → ¬rsv.getLsbD 1 = true → rsv.getLsbD 2 = true →
    rsv.extractLsb' 3 1 ++ 0b100#3 = rsv := by decide

theorem rsv_eq_of_bit11 : ∀ rsv : BitVec 4, ¬rsv.getLsbD 0 = true → ¬rsv.getLsbD 1 = true → ¬rsv.getLsbD 2 = true →
    rsv ≠ 0 → 0b1000 = rsv := by decide

theorem encode_decodeIllegal {op rsv : BitVec 4} {data : Byte} (h : ¬(op.toNat ≤ 3 ∧ rsv = 0)) :
    encode (decodeIllegal (commandWord op rsv data)) = some (.command (commandWord op rsv data)) := by
  rw [decodeIllegal_commandWord]
  split_ifs with h47 h815 h8 h9 h10
  · rw [encode, append_op_4to7 op h47]
  · rw [encode, append_op_8to15 op h815]
  all_goals obtain ⟨hop, hle⟩ := append_op_0to3 op h47 h815
  · rw [encode, hop, append_rsv_bit8 rsv h8]
  · rw [encode, hop, append_rsv_bit9 rsv h8 h9]
  · rw [encode, hop, append_rsv_bit10 rsv h8 h9 h10]
  · rw [encode, hop, rsv_eq_of_bit11 rsv h8 h9 h10 fun hrsv => h ⟨hle, hrsv⟩]

/-- No bit of a command word is dropped. -/
theorem encode_decodeCommand (w : CmdWord) : encode (decodeCommand w) = some (.command w) := by
  cases h : legal w with
  | true => rw [decodeCommand_of_legal h, encode_decodeLegal h]
  | false =>
    have hfields : ¬((opField w).toNat ≤ 3 ∧ rsvField w = 0) := by rw [← legal_iff, h]; simp
    have henc := encode_decodeIllegal (data := dataField w) hfields
    rwa [commandWord_fields, ← decodeCommand_of_illegal h] at henc

/-- The six micro-operations are what a selection can decode to, and each has a code. -/
theorem encode_of_decodeMicroOp {p : BitVec 4} {st : BitVec 2} {i : Instr} (h : decodeMicroOp p st = .ok i) :
    ∃ c, encode i = some c := by
  unfold decodeMicroOp at h
  split_ifs at h <;> cases h <;> exact ⟨_, rfl⟩

open Laws.Encoding in
/-- An instruction with a code is what its code decodes to: the lemma of each constructor. -/
theorem decode_of_encode : ∀ i : Instr, Statement i
  | .nop data => nop data
  | .init data => init data
  | .write b => write b
  | .finish data => finish data
  | .illegalOp4to7 op rsv data => illegalOp4to7 op rsv data
  | .illegalOp8to15 op rsv data => illegalOp8to15 op rsv data
  | .illegalRsv8 op rsv data => illegalRsv8 op rsv data
  | .illegalRsv9 op rsv data => illegalRsv9 op rsv data
  | .illegalRsv10 op rsv data => illegalRsv10 op rsv data
  | .illegalRsv11 op data => illegalRsv11 op data
  | .padMsg => padMsg
  | .padPending => padPending
  | .expand => expand
  | .round => round
  | .accum => accum
  | .assemble => assemble
  | .fnRotr x n => fnRotr x n
  | .fnShr x n => fnShr x n
  | .fnAdd32 x xs => fnAdd32 x xs
  | .fnSsig0 x => fnSsig0 x
  | .fnSsig1 x => fnSsig1 x
  | .fnBsig0 x => fnBsig0 x
  | .fnBsig1 x => fnBsig1 x
  | .fnCh e f g => fnCh e f g
  | .fnMaj a b c => fnMaj a b c
  | .fnPad m => fnPad m
  | .fnSplit p => fnSplit p
  | .fnExpand B => fnExpand B
  | .fnCompress S W => fnCompress S W
  | .fnAccumulate S Rw => fnAccumulate S Rw
  | .fnAssemble S => fnAssemble S

/-- Settles O4: the two directions for commands, and for what decodes the code that `encode` gives it. -/
theorem decodeEncodeRoundTrip : Obligations.DecodeEncodeRoundTrip := by
  refine ⟨decode_of_encode, encode_decodeCommand, fun c i h => ?_⟩
  cases c with
  | command w =>
    cases h
    exact ⟨_, encode_decodeCommand w⟩
  | select p st => exact encode_of_decodeMicroOp h

/-! ## The count of the illegal words -/

/-- A property of the numbers below k · m that depends on n / m alone holds of m numbers for each quotient with it. -/
theorem length_filter_range_mul (p : Nat → Bool) (k : Nat) {m : Nat} (hm : 0 < m) :
    ((List.range (k * m)).filter fun n => p (n / m)).length = ((List.range k).filter p).length * m := by
  induction k with
  | zero => simp
  | succ k ih =>
    have hblock : ∀ j ∈ List.range m, ((fun n => p (n / m)) ∘ (k * m + ·)) j = p k := fun j hj => by
      have hdiv : (k * m + j) / m = k := by
        rw [Nat.mul_comm, Nat.mul_add_div hm, Nat.div_eq_of_lt (List.mem_range.1 hj), Nat.add_zero]
      simp only [Function.comp_apply, hdiv]
    rw [Nat.succ_mul, List.range_add, List.filter_append, List.length_append, ih, List.filter_map, List.length_map,
      List.filter_congr hblock, List.range_succ, List.filter_append, List.length_append, Nat.add_mul]
    cases hp : p k <;> simp [hp]

/-- R83's condition on the upper byte of a word, which is all that legality reads. -/
def illegalUpper (u : Nat) : Bool := !decide (u / 16 ≤ 3 ∧ u % 16 = 0)

theorem not_legal_ofNat {n : Nat} (hn : n < 65536) : (!legal (BitVec.ofNat 16 n)) = illegalUpper (n / 256) := by
  have hto : (BitVec.ofNat 16 n).toNat = n := by rw [BitVec.toNat_ofNat, Nat.mod_eq_of_lt hn]
  have hlegal : legal (BitVec.ofNat 16 n) = decide (n / 256 / 16 ≤ 3 ∧ n / 256 % 16 = 0) := by
    rw [Bool.eq_iff_iff, legal_iff_toNat, hto, decide_eq_true_iff, Nat.div_div_eq_div_mul]
    rfl
  rw [hlegal, illegalUpper]

theorem count_illegal_words :
    ((List.range 65536).filter fun n => !legal (BitVec.ofNat 16 n)).length = 64512 := by
  have hupper : ((List.range 256).filter illegalUpper).length = 252 := by decide +kernel
  calc _ = ((List.range (256 * 256)).filter fun n => illegalUpper (n / 256)).length := by
        rw [List.filter_congr fun n hn => not_legal_ofNat (List.mem_range.1 hn)]
    _ = 252 * 256 := by rw [length_filter_range_mul illegalUpper 256 (by decide), hupper]

end Sys2Proof

namespace Sys2Proof.Machine

/-! ## What a word does -/

theorem commandEffect_of_illegal {w : CmdWord} (h : legal w = false) :
    commandEffect w = unlessError (raiseError .cmd) := if_neg (by simp [h])

theorem commandEffect_write {w : CmdWord} (h : legal w = true) (hop : opField w = 2) :
    commandEffect w = unlessError (inJob (writeInJob (dataField w))) := by
  simp [commandEffect, h, hop]

/-- Only WRITE reads DATA (30_encoding.md R82). -/
theorem commandEffect_eq_of_opField {w w' : CmdWord} (h : legal w = true) (h' : legal w' = true)
    (hop : opField w = opField w') (hw : opField w ≠ 2) : commandEffect w = commandEffect w' := by
  rw [hop] at hw
  rw [commandEffect, commandEffect, if_pos h, if_pos h', hop, if_neg hw, if_neg hw]

theorem exec_illegal {w : CmdWord} {s : State} (h : legal w = false) (hq : cmdReady s = true) (he : s.phase ≠ .error) :
    exec (decodeCommand w) s = .next (raiseError .cmd s) := by
  rw [exec_decodeCommand, acceptCommand_ready hq, commandEffect_of_illegal h, unlessError_other he]

theorem exec_illegal_in_error {w : CmdWord} {s : State} (h : legal w = false) (he : s.phase = .error) :
    exec (decodeCommand w) s = .next s := by
  have hq : cmdReady s = true := (cmdReady_iff s).2 (.inr (.inr (.inr he)))
  rw [exec_decodeCommand, acceptCommand_ready hq, commandEffect_of_illegal h, unlessError_error he]

theorem exec_write_absorbs {w : CmdWord} {s : State} (h : legal w = true) (hop : opField w = 2)
    (ha : s.phase = .absorb) (hL : s.L ≠ s.cfg.maxMsgBytes) :
    exec (decodeCommand w) s = .next (absorbByte (dataField w) s) := by
  have hq : cmdReady s = true := (cmdReady_iff s).2 (.inr (.inl ha))
  rw [exec_decodeCommand, acceptCommand_ready hq, commandEffect_write h hop, unlessError_other (by simp [ha]),
    inJob_absorb ha, writeInJob, if_neg hL]

/-! ## The obligations -/

/-- Settles O3: legality by the fields as numbers, the decoder by legality, the count, and the effect of an illegal
word. -/
theorem legalWordsExactly : Obligations.LegalWordsExactly :=
  ⟨legal_iff_toNat, isIllegal_decodeCommand, fun _ => getElem?_commands_of_legal, count_illegal_words,
    fun _ _ => exec_illegal, fun _ _ => exec_illegal_in_error⟩

/-- Settles O13: the effects of two words that differ in an unread DATA are one function, and an absorbed byte is read
back where it was stored. -/
theorem dataIsTheMessageByte : Obligations.DataIsTheMessageByte := by
  refine ⟨fun w w' s h h' hop hw => ?_, fun w s h hop ha hL => ⟨_, exec_write_absorbs h hop ha hL, ?_⟩⟩
  · rw [exec_decodeCommand, exec_decodeCommand, commandEffect_eq_of_opField h h' hop hw]
  · simp only [absorbByte_BLK, Vector.getElem_set_self, dataField_eq_ofNat]

/-- Settles O1: each word is a closed term that the decoder evaluates. -/
theorem sampleWordsDecode : Obligations.SampleWordsDecode := by
  unfold Obligations.SampleWordsDecode
  decide

/-- Settles O2: a match value gives OP and RSV = 0, so the word is legal; OP 4 to 15 is not. -/
theorem opcodeMapByMatchAndMask : Obligations.OpcodeMapByMatchAndMask := by
  intro w
  refine ⟨fun h => ?_, fun h => ?_, fun h => ?_, fun h => ?_, fun h => ?_⟩
  · obtain ⟨hdec, hop⟩ := decodeCommand_of_and_mask (op := 0) (by decide) h
    rw [hdec, decodeLegal_nop hop]
  · obtain ⟨hdec, hop⟩ := decodeCommand_of_and_mask (op := 1) (by decide) h
    rw [hdec, decodeLegal_init hop]
  · obtain ⟨hdec, hop⟩ := decodeCommand_of_and_mask (op := 2) (by decide) h
    rw [hdec, decodeLegal_write hop]
  · obtain ⟨hdec, hop⟩ := decodeCommand_of_and_mask (op := 3) (by decide) h
    rw [hdec, decodeLegal_finish hop]
  · have hillegal : legal w = false := by rw [← Bool.not_eq_true, legal_iff_toNat]; omega
    rw [isIllegal_decodeCommand, hillegal, Bool.not_false]

end Sys2Proof.Machine
end

section
/-! Text forms of a command word (O5, O6; 30_encoding.md R85 to R87): the hex digits that the disassembler prints are read
back, and each form of a disassembled line is read as that line. -/

namespace Sys2Proof.Machine

/-! ## Hex digits -/

@[simp] theorem hexValue_hexDigit : ∀ v : BitVec 4, hexValue (hexDigit v) = some v := by decide

@[simp] theorem hexPair_hexDigit (x y : BitVec 4) : hexPair (hexDigit x) (hexDigit y) = some (x ++ y) := by
  simp [hexPair]

/-- The two digits of a byte, the high nibble first (44_accumulator_digest.md R186), read as the byte. -/
theorem hexPair_nibbles (b : Byte) : hexPair (hexDigit (b.extractLsb' 4 4)) (hexDigit (b.extractLsb' 0 4)) = some b := by
  rw [hexPair_hexDigit, BitVec.extractLsb'_append_extractLsb'_eq_extractLsb' (by decide)]
  exact congrArg some BitVec.extractLsb'_eq_self

theorem bytes_append (w : CmdWord) : w.extractLsb' 8 8 ++ w.extractLsb' 0 8 = w := by
  rw [BitVec.extractLsb'_append_extractLsb'_eq_extractLsb' (by decide)]
  exact BitVec.extractLsb'_eq_self

/-! ## Reading what is printed -/

/-- The reader splits off the mnemonic before it looks at a digit. -/
theorem readItem_write_digits (a b : Char) :
    readItem ("WRITE 0x".toList ++ [a, b]) =
      (wholeOperand (readByte ['0', 'x', a, b])).map fun v => .line (.write v) := rfl

theorem readItem_word_digits (a b c d : Char) :
    readItem (".word 0x".toList ++ [a, b, c, d]) =
      (wholeOperand (readWord ['0', 'x', a, b, c, d])).map fun w => .line (.word w) := rfl

theorem readByte_digits {a b : Char} {v : Byte} (h : hexPair a b = some v) (rest : Text) :
    readByte ('0' :: 'x' :: a :: b :: rest) = some (v, rest) := by
  simp only [readByte, h, Option.map_some]

theorem readWord_digits {a b c d : Char} {hi lo : Byte} (h : hexPair a b = some hi) (h' : hexPair c d = some lo)
    (rest : Text) : readWord ('0' :: 'x' :: a :: b :: c :: d :: rest) = some (hi ++ lo, rest) := by
  simp only [readWord, h, h']

theorem readItem_write (b : Byte) : readItem ("WRITE 0x".toList ++ hexByte b) = some (.line (.write b)) := by
  rw [hexByte, readItem_write_digits, readByte_digits (hexPair_nibbles b)]
  rfl

theorem readItem_word (w : CmdWord) : readItem (".word 0x".toList ++ hexWord w) = some (.line (.word w)) := by
  rw [hexWord, hexByte, hexByte, List.cons_append, List.cons_append, List.nil_append, readItem_word_digits,
    readWord_digits (hexPair_nibbles _) (hexPair_nibbles _), bytes_append]
  rfl

/-! ## The obligations -/

/-- The line that a word is disassembled to: its command with DATA for WRITE alone, or `.word` (30_encoding.md R87). -/
def printedLine (w : CmdWord) : AsmLine :=
  if legal w then
    if opField w = 0 then .nop
    else if opField w = 1 then .init
    else if opField w = 2 then .write (dataField w)
    else .finish
  else .word w

theorem readItem_disassemble (w : CmdWord) : readItem (disassemble w) = some (.line (printedLine w)) := by
  unfold disassemble printedLine
  split_ifs
  · decide
  · decide
  · exact readItem_write (dataField w)
  · decide
  · exact readItem_word w

theorem lineWord_printedLine (w : CmdWord) :
    lineWord (printedLine w) = if legal w = true ∧ opField w ≠ 2 then w &&& 0xFF00 else w := by
  cases h : legal w with
  | false => simp [printedLine, h, lineWord]
  | true =>
    have hrsv : rsvField w = 0 := ((legal_iff w).1 h).2
    have hw := commandWord_of_legal h
    rw [and_mask_eq_commandWord, hrsv]
    obtain hop | hop | hop | hop := opField_cases_of_legal h
    · simp [printedLine, h, hop, lineWord]
    · simp [printedLine, h, hop, lineWord]
    · rw [hop] at hw
      simpa [printedLine, h, hop, lineWord] using hw
    · simp [printedLine, h, hop, lineWord]

/-- Settles O5: the text of a word reads as its printed line, whose encoding loses the unprinted DATA alone. -/
theorem disassemblyReadsBack : Obligations.DisassemblyReadsBack := fun w =>
  ⟨printedLine w, readItem_disassemble w, lineWord_printedLine w⟩

/-- Settles O6: the program is a closed term that the assembler evaluates. -/
theorem assemblerLines : Obligations.AssemblerLines := by
  unfold Obligations.AssemblerLines
  decide

end Sys2Proof.Machine
end

section
/-! The padder (O25, O30, O31, O42, O43; 40_padder.md R100 to R108): the length field as bytes of the integer 8·L, the two
stages of PAD byte by byte, and the function pad on and off its domain. -/

namespace Sys2Proof.Machine

/-! ## The length field -/

/-- Below 2^61 the product 8·L fits in 64 bits, so the field loses nothing (40_padder.md R104). -/
theorem be64Byte_lengthField {L : Nat} (hL : L < 2 ^ 61) (k : Nat) :
    be64Byte (lengthField L) k = BitVec.ofNat 8 (8 * L / 2 ^ (8 * (7 - k))) := by
  have hfits : 8 * L < 2 ^ 64 := by omega
  rw [be64Byte, lengthField, BitVec.extractLsb', BitVec.toNat_ofNat, Nat.mod_eq_of_lt hfits, Nat.shiftRight_eq_div_pow]

/-- The length field's byte that stands in BLK[j]. -/
theorem be64Byte_lengthField_in_block (L : BitVec 61) {j : Nat} (hj : 56 ≤ j) :
    be64Byte (lengthField L.toNat) (j - 56) = BitVec.ofNat 8 (8 * L.toNat / 2 ^ (8 * (63 - j))) := by
  have hk : 7 - (j - 56) = 63 - j := by omega
  rw [be64Byte_lengthField L.isLt, hk]

theorem be64_lengthField {L : Nat} (hL : L < 2 ^ 61) :
    be64 (lengthField L) = (List.range 8).map fun k => BitVec.ofNat 8 (8 * L / 2 ^ (8 * (7 - k))) :=
  List.map_congr_left fun k _ => be64Byte_lengthField hL k

/-! ## The bytes that PAD writes -/

section
variable {blk : Block} {blen : BitVec 6} {L : BitVec 61} {j : Nat} (hj : j < 64)

theorem padFirstBlock_message (h : j < blen.toNat) : (padFirstBlock blk blen L)[j] = blk[j] := by
  rw [padFirstBlock_getElem, if_pos h]

theorem padFirstBlock_marker (h : j = blen.toNat) : (padFirstBlock blk blen L)[j] = 0x80 := by
  rw [padFirstBlock_getElem, if_neg (by omega), if_pos h]

theorem padFirstBlock_zero (h : blen.toNat < j) (hfill : j < 56 ∨ 55 < blen.toNat) :
    (padFirstBlock blk blen L)[j] = 0x00 := by
  rw [padFirstBlock_getElem, if_neg (by omega), if_neg (by omega), if_neg (by omega)]

theorem padFirstBlock_length (hfits : blen.toNat ≤ 55) (h : 56 ≤ j) :
    (padFirstBlock blk blen L)[j] = BitVec.ofNat 8 (8 * L.toNat / 2 ^ (8 * (63 - j))) := by
  rw [padFirstBlock_getElem, if_neg (by omega), if_neg (by omega), if_pos ⟨h, hfits⟩, be64Byte_lengthField_in_block L h]

theorem padSecondBlock_zero (h : j < 56) : (padSecondBlock L)[j] = 0x00 := by
  rw [padSecondBlock_getElem, if_pos h]

theorem padSecondBlock_length (h : 56 ≤ j) :
    (padSecondBlock L)[j] = BitVec.ofNat 8 (8 * L.toNat / 2 ^ (8 * (63 - j))) := by
  rw [padSecondBlock_getElem, if_neg (by omega), be64Byte_lengthField_in_block L h]

end

/-! ## What PAD leaves unchanged -/

theorem padFirst_frame (s : State) :
    { padFirst s with BLK := s.BLK, pstage := s.pstage, phase := s.phase } = s := by
  simp only [padFirst]

theorem padSecond_frame (s : State) :
    { padSecond s with BLK := s.BLK, pstage := s.pstage, phase := s.phase } = s := by
  simp only [padSecond]

/-! ## Evaluating the padder's rows -/

theorem exec_padMsg {s : State} (hp : s.phase = .pad) (hst : s.pstage = .msg) :
    exec .padMsg s = .next (padFirst s) :=
  whenSelected_next.2 ⟨decide_eq_true ⟨hp, hst⟩, rfl⟩

theorem exec_padPending {s : State} (hp : s.phase = .pad) (hst : s.pstage = .pending) :
    exec .padPending s = .next (padSecond s) :=
  whenSelected_next.2 ⟨decide_eq_true ⟨hp, hst⟩, rfl⟩

theorem exec_fnPad {m : List Byte} (hm : m.length < 2 ^ 61) (s : State) :
    exec (.fnPad m) s = .next { s with funcOut := .bytes (pad m) } :=
  if_pos (decide_eq_true hm)

theorem exec_fnPad_overlong {m : List Byte} (hm : 2 ^ 61 ≤ m.length) (s : State) :
    exec (.fnPad m) s = .fault .lengthOverflow :=
  if_neg (by simpa [padDomain] using hm)

/-- No shorter whole number of 512-bit blocks holds the message, the marker bit and the length (40_padder.md R101). -/
theorem pad_length_minimal (m : List Byte) {q : Nat} (hq : 8 * m.length + 1 + 64 ≤ 512 * q) :
    8 * (pad m).length ≤ 512 * q := by
  rw [pad_length]
  omega

/-! ## The obligations -/

/-- Settles O30: the four kinds of byte of the first stage's block, and the frame. -/
theorem padFirstStage : Obligations.PadFirstStage := by
  intro s hp hst
  refine ⟨padFirst s, exec_padMsg hp hst, padFirst_phase s, (busy_iff _).2 (.inr (.inl (padFirst_phase s))),
    padFirst_pstage s, fun j => ?_, padFirst_frame s⟩
  rw [padFirst_BLK]
  exact ⟨padFirstBlock_message j.isLt, padFirstBlock_marker j.isLt, padFirstBlock_zero j.isLt,
    padFirstBlock_length j.isLt⟩

/-- Settles O31: the two kinds of byte of the second stage's block, and the frame. -/
theorem padSecondStage : Obligations.PadSecondStage := by
  intro s hp hst
  refine ⟨padSecond s, exec_padPending hp hst, padSecond_phase s, (busy_iff _).2 (.inr (.inl (padSecond_phase s))),
    padSecond_pstage s, fun j => ?_, padSecond_frame s⟩
  rw [padSecond_BLK]
  exact ⟨padSecondBlock_zero j.isLt, padSecondBlock_length j.isLt⟩

/-- Settles O42: pad(M) as one expression, its length, and that the length is the least. -/
theorem padAppendsTheRule : Obligations.PadAppendsTheRule := by
  intro m s hm
  refine ⟨pad m, exec_fnPad hm s, ?_, ?_, pad_length m, fun q hq => pad_length_minimal m hq⟩
  · rw [pad_eq, be64_lengthField hm, zeroCount]
  · rw [pad_length]
    omega

/-- Settles O25, by the step lemma of that state. -/
theorem padAfterLastIsRefused : Obligations.PadAfterLastIsRefused :=
  fun _ hr hp hst => step_padAfterLast hr hp hst

/-- Settles O43: such a message is outside pad's domain. -/
theorem overlongPadFaults : Obligations.OverlongPadFaults := fun _ s hm => exec_fnPad_overlong hm s

end Sys2Proof.Machine
end

section
/-! The Block Splitter (O44, O45; 41_block_splitter.md R120, R121) and the way of one block through the core: EXPAND, the
64 ROUNDs and ACCUM (O54; 41_block_splitter.md R124, 70_reset_and_hazards.md R270). -/

namespace Sys2Proof.Machine

/-! ## The function split -/

theorem exec_fnSplit (p : List Byte) (s : State) :
    exec (.fnSplit p) s =
      .next { s with funcOut := .blocks (if splitDomain p then split p else Config.splitOutsideDomain p) } := rfl

theorem exec_fnSplit_inDomain {p : List Byte} (hp : p.length % 64 = 0) (s : State) :
    exec (.fnSplit p) s = .next { s with funcOut := .blocks (split p) } := by
  have hdomain : splitDomain p = true := decide_eq_true hp
  rw [exec_fnSplit, if_pos hdomain]

/-- The blocks 0 to n − 1 hold the first 64·n bytes. -/
theorem flatten_blockAt (p : List Byte) {n : Nat} (hn : 64 * n ≤ p.length) :
    (((List.range n).map (blockAt p)).map Vector.toList).flatten = p.take (64 * n) := by
  induction n with
  | zero => rfl
  | succ n ih =>
    rw [List.range_succ, List.map_append, List.map_append, List.flatten_append, ih (by omega), Nat.mul_succ,
      List.take_add, ← blockAt_toList p n (by omega)]
    simp

theorem flatten_split {p : List Byte} (hp : p.length % 64 = 0) : ((split p).map Vector.toList).flatten = p := by
  rw [split, flatten_blockAt p (by omega), List.take_of_length_le (by omega)]

/-! ## The micro-operations of a block, counted -/

/-- What no micro-operation of the block in `s` writes, kept in `q`; and no reset is to come. -/
structure BlockKept (s q : State) : Prop where
  BLK : q.BLK = s.BLK
  blen : q.blen = s.blen
  L : q.L = s.L
  pstage : q.pstage = s.pstage
  D : q.D = s.D
  cause : q.cause = s.cause
  noReset : ∀ x ∈ q.rstIn, x = false

theorem BlockKept.of_eq {s q r : State} (h : BlockKept s q)
    (he : r.BLK = q.BLK ∧ r.blen = q.blen ∧ r.L = q.L ∧ r.pstage = q.pstage ∧ r.D = q.D ∧ r.cause = q.cause ∧
      r.rstIn = q.rstIn) : BlockKept s r := by
  obtain ⟨hBLK, hblen, hL, hst, hD, hcause, hrst⟩ := he
  exact ⟨hBLK.trans h.BLK, hblen.trans h.blen, hL.trans h.L, hst.trans h.pstage, hD.trans h.D, hcause.trans h.cause,
    hrst ▸ h.noReset⟩

theorem BlockKept.ports {s q : State} (h : BlockKept s q) : BlockKept s (passPause (pastSample q)) :=
  ⟨h.BLK, h.blen, h.L, h.pstage, h.D, h.cause, tail_false h.noReset⟩

/-- `q` stands before the micro-operation number `k` of the block that `s` is about to expand: EXPAND is number 0, ROUND
t number t + 1, ACCUM number 65 (70_reset_and_hazards.md R270). -/
inductive BlockProgress (s : State) : Nat → State → Prop
  | atExpand {q : State} (kept : BlockKept s q) (hash : q.H = s.H) (phase : q.phase = .expand) : BlockProgress s 0 q
  | atRound {q : State} (n : Nat) (kept : BlockKept s q) (hash : q.H = s.H) (phase : q.phase = .round)
      (count : q.t.toNat = n) (schedule : q.W = expand s.BLK) (rounds : q.Rw = compressUpTo s.H (expand s.BLK) n) :
      BlockProgress s (n + 1) q
  | atAccum {q : State} (kept : BlockKept s q) (hash : q.H = s.H) (phase : q.phase = .accum)
      (compressed : q.Rw = compress s.H (expand s.BLK)) : BlockProgress s 65 q

theorem BlockProgress.start {s : State} (hp : s.phase = .expand) (hr : ∀ x ∈ s.rstIn, x = false) :
    BlockProgress s 0 s :=
  .atExpand ⟨rfl, rfl, rfl, rfl, rfl, rfl, hr⟩ rfl hp

section
variable {s q : State} {k : Nat}

theorem BlockProgress.kept (h : BlockProgress s k q) : BlockKept s q := by cases h <;> assumption

theorem BlockProgress.inBlock (h : BlockProgress s k q) : inBlock q.phase := by
  cases h with
  | atExpand _ _ hp => exact .inl hp
  | atRound _ _ _ hp _ _ _ => exact .inr (.inl hp)
  | atAccum _ _ hp _ => exact .inr (.inr hp)

theorem BlockProgress.busy (h : BlockProgress s k q) : busy q = true :=
  (busy_iff q).2 (.inr (by rcases h.inBlock with hp | hp | hp <;> simp [hp]))

theorem BlockProgress.ports (h : BlockProgress s k q) : BlockProgress s k (passPause (pastSample q)) := by
  cases h with
  | atExpand hk hH hp => exact .atExpand hk.ports hH hp
  | atRound n hk hH hp ht hW hRw => exact .atRound n hk.ports hH hp ht hW hRw
  | atAccum hk hH hp hRw => exact .atAccum hk.ports hH hp hRw

/-- The step of a core that is compressing a block. -/
theorem BlockProgress.step_next (h : BlockProgress s k q) :
    step q = .next (microEffect (passPause (pastSample q))) := by
  refine step_micro (rst_false h.kept.noReset) h.busy fun hpad => ?_
  rcases h.inBlock with hp | hp | hp <;> simp [hp] at hpad

/-- ROUND t leads to ROUND t + 1, the last one to ACCUM (43_compressor.md R158). -/
theorem blockProgress_roundAndCount {n : Nat} (hk : BlockKept s q) (hH : q.H = s.H) (hp : q.phase = .round)
    (ht : q.t.toNat = n) (hW : q.W = expand s.BLK) (hRw : q.Rw = compressUpTo s.H (expand s.BLK) n) :
    BlockProgress s (n + 2) (roundAndCount q) := by
  subst ht
  have hk' : BlockKept s (roundAndCount q) := hk.of_eq (by simp)
  have hRw' : (roundAndCount q).Rw = compressUpTo s.H (expand s.BLK) (q.t.toNat + 1) := by
    rw [roundAndCount_Rw, hW, hRw, roundRegs_compressUpTo]
  by_cases h63 : q.t = 63
  · rw [h63] at hRw' ⊢
    exact .atAccum hk' (by simpa using hH) (by simp [h63]) hRw'
  · have hcount : (roundAndCount q).t.toNat = q.t.toNat + 1 := by
      have hne : q.t.toNat ≠ 63 := fun h => h63 (BitVec.eq_of_toNat_eq h)
      rw [roundAndCount_t, toNat_counter_succ]
      omega
    have hph : (roundAndCount q).phase = .round := by rw [roundAndCount_phase, if_neg h63, hp]
    exact .atRound _ hk' (by simpa using hH) hph hcount (by simpa using hW) hRw'

/-- Every micro-operation before ACCUM leads to the next one. -/
theorem BlockProgress.next (h : BlockProgress s k q) (hlt : k < 65) :
    BlockProgress s (k + 1) (microEffect q) := by
  cases h with
  | atExpand hk hH hp =>
    rw [microEffect_expand hp]
    have hW : (expandAndSeed q).W = expand s.BLK := by rw [expandAndSeed_W, hk.BLK]
    exact .atRound 0 (hk.of_eq (by simp)) (by simpa using hH) (by simp) (by simp) hW (by simpa using hH)
  | atRound n hk hH hp ht hW hRw =>
    rw [microEffect_round hp]
    exact blockProgress_roundAndCount hk hH hp ht hW hRw
  | atAccum => exact absurd hlt (lt_irrefl _)

theorem runSteps_blockProgress (hp : s.phase = .expand) (hr : ∀ x ∈ s.rstIn, x = false) (hk : k < 66) :
    ∃ q, runSteps k s = .next q ∧ BlockProgress s k q := by
  induction k with
  | zero => exact ⟨s, rfl, .start hp hr⟩
  | succ k ih =>
    obtain ⟨q, hrun, h⟩ := ih (by omega)
    exact ⟨_, runSteps_snoc hrun h.step_next, h.ports.next (by omega)⟩

/-- ACCUM adds the compression of the block to H (44_accumulator_digest.md R181, R187). -/
theorem BlockProgress.accumulated (h : BlockProgress s 65 q) :
    microEffect q = accumulateHash q ∧ (accumulateHash q).H = blockStep s.H s.BLK := by
  cases h with
  | atRound _ _ _ _ ht _ _ => have := q.t.isLt; omega
  | atAccum _ hH hp hRw => exact ⟨microEffect_accum hp, by rw [accumulateHash_H, hH, hRw]; rfl⟩

/-- The last of the block's micro-operations is ACCUM, on the state that the 65 before it leave. -/
theorem runSteps_block (hp : s.phase = .expand) (hr : ∀ x ∈ s.rstIn, x = false) :
    ∃ s', runSteps 66 s = .next s' ∧ s'.H = blockStep s.H s.BLK ∧ s'.phase = afterAccum s.pstage ∧ BlockKept s s' := by
  obtain ⟨q, hrun, h⟩ := runSteps_blockProgress hp hr (k := 65) (by omega)
  obtain ⟨heffect, hH⟩ := h.ports.accumulated
  have hkept := h.ports.kept
  refine ⟨accumulateHash (passPause (pastSample q)), ?_, hH, ?_, hkept.of_eq (by simp)⟩
  · rw [← heffect]
    exact runSteps_snoc hrun h.step_next
  · rw [accumulateHash_phase, hkept.pstage]

end

/-! ## The obligations -/

/-- Settles O54: the state after ACCUM, and that every state before it is busy. -/
theorem blockCompressesInSixtySixSteps : Obligations.BlockCompressesInSixtySixSteps := by
  intro s hp hr
  obtain ⟨s', hrun, hH, hphase, hk⟩ := runSteps_block hp hr
  have hnext {st : PStage} (hst : s.pstage = st) : s'.phase = afterAccum st := hst ▸ hphase
  refine ⟨s', hrun, hH, hnext, hnext, hnext, hk.BLK, hk.blen, hk.L, hk.pstage, hk.D, hk.cause, fun k hlt => ?_⟩
  obtain ⟨q, hq, h⟩ := runSteps_blockProgress hp hr hlt
  exact ⟨q, hq, h.busy, by rw [cmdReady_eq_not_busy, h.busy]; rfl⟩

/-- Settles O44: the blocks of split, their number and their bytes. -/
theorem splitPartitionsExactly : Obligations.SplitPartitionsExactly := fun p s hp =>
  ⟨split p, exec_fnSplit_inDomain hp s, split_length p, flatten_split hp⟩

/-- Settles O45: split answers a next state on and off its domain. -/
theorem splitRunsOutsideItsDomain : Obligations.SplitRunsOutsideItsDomain := fun p s _ => ⟨_, exec_fnSplit p s⟩

end Sys2Proof.Machine
end

section
/-! The Schedule Expander (O32, O39, O46; 42_schedule_expander.md R130 to R138): σ0 and σ1 bit by bit and linear over XOR,
the schedule as the value of a function, and the micro-operation EXPAND. -/

namespace Sys2Proof.Machine

/-! ## Rotation and shift are linear over XOR -/

theorem rotr_xor (x y : Word) {n : Nat} (hn : n < 32) : rotr (x ^^^ y) n = rotr x n ^^^ rotr y n := by
  apply BitVec.eq_of_getLsbD_eq
  intro i hi
  rw [BitVec.getLsbD_xor, rotr_getLsbD _ n hn i hi, rotr_getLsbD _ n hn i hi, rotr_getLsbD _ n hn i hi,
    BitVec.getLsbD_xor]

theorem shr_xor (x y : Word) (n : Nat) : shr (x ^^^ y) n = shr x n ^^^ shr y n :=
  BitVec.ushiftRight_xor_distrib x y n

/-! ## σ0 and σ1 -/

section
variable (x y : Word)

/-- Every bit of a rotr, rotr, shr combination, the shape of both schedule functions. -/
theorem getLsbD_rotr_rotr_shr {a b : Nat} (c : Nat) (ha : a < 32) (hb : b < 32) {i : Nat} (hi : i < 32) :
    (rotr x a ^^^ rotr x b ^^^ shr x c).getLsbD i =
      ((x.getLsbD ((i + a) % 32) ^^ x.getLsbD ((i + b) % 32)) ^^ (decide (i + c < 32) && x.getLsbD (i + c))) := by
  rw [BitVec.getLsbD_xor, BitVec.getLsbD_xor, rotr_getLsbD x a ha i hi, rotr_getLsbD x b hb i hi,
    shr_getLsbD_eq_ite, Bool.if_false_right]

/-- Bit i of σ0 (42_schedule_expander.md R130). -/
theorem ssig0_getLsbD {i : Nat} (hi : i < 32) :
    (ssig0 x).getLsbD i =
      ((x.getLsbD ((i + 7) % 32) ^^ x.getLsbD ((i + 18) % 32)) ^^ (decide (i + 3 < 32) && x.getLsbD (i + 3))) :=
  getLsbD_rotr_rotr_shr x 3 (by decide) (by decide) hi

/-- Bit i of σ1 (42_schedule_expander.md R131). -/
theorem ssig1_getLsbD {i : Nat} (hi : i < 32) :
    (ssig1 x).getLsbD i =
      ((x.getLsbD ((i + 17) % 32) ^^ x.getLsbD ((i + 19) % 32)) ^^ (decide (i + 10 < 32) && x.getLsbD (i + 10))) :=
  getLsbD_rotr_rotr_shr x 10 (by decide) (by decide) hi

theorem rotr_rotr_shr_xor {a b : Nat} (c : Nat) (ha : a < 32) (hb : b < 32) :
    rotr (x ^^^ y) a ^^^ rotr (x ^^^ y) b ^^^ shr (x ^^^ y) c =
      (rotr x a ^^^ rotr x b ^^^ shr x c) ^^^ (rotr y a ^^^ rotr y b ^^^ shr y c) := by
  rw [rotr_xor x y ha, rotr_xor x y hb, shr_xor]
  ac_rfl

theorem ssig0_xor : ssig0 (x ^^^ y) = ssig0 x ^^^ ssig0 y := rotr_rotr_shr_xor x y 3 (by decide) (by decide)

theorem ssig1_xor : ssig1 (x ^^^ y) = ssig1 x ^^^ ssig1 y := rotr_rotr_shr_xor x y 10 (by decide) (by decide)

/-- The shift gives the bits 31 to 29 of σ0 nothing: they are the XOR of the two rotations, which bring the bits 6 to 4
and 17 to 15 there. -/
theorem ssig0_top_bits : (ssig0 x).extractLsb' 29 3 = x.extractLsb' 4 3 ^^^ x.extractLsb' 15 3 := by
  apply BitVec.eq_of_getLsbD_eq
  intro i hi
  have hrot7 : (29 + i + 7) % 32 = 4 + i := by omega
  have hrot18 : (29 + i + 18) % 32 = 15 + i := by omega
  have hshift : ¬29 + i + 3 < 32 := by omega
  simp [hi, ssig0_getLsbD x (show 29 + i < 32 by omega), hrot7, hrot18, hshift]

end

/-! ## Evaluating the expander's rows -/

theorem exec_fnSsig0 (x : Word) (s : State) : exec (.fnSsig0 x) s = .next { s with funcOut := .word (ssig0 x) } := rfl

theorem exec_fnSsig1 (x : Word) (s : State) : exec (.fnSsig1 x) s = .next { s with funcOut := .word (ssig1 x) } := rfl

theorem exec_fnExpand (B : Block) (s : State) :
    exec (.fnExpand B) s = .next { s with funcOut := .schedule (expand B) } := rfl

theorem exec_expand {s : State} (hp : s.phase = .expand) : exec .expand s = .next (expandAndSeed s) :=
  whenSelected_next.2 ⟨decide_eq_true hp, rfl⟩

theorem expandAndSeed_frame (s : State) :
    { expandAndSeed s with W := s.W, Rw := s.Rw, t := s.t, phase := s.phase } = s := by
  simp only [expandAndSeed]

/-! ## The obligations -/

/-- Settles O32: the words of `expand` on BLK by the two schedule rules, and the frame of EXPAND. -/
theorem expandWritesScheduleAndSeeds : Obligations.ExpandWritesScheduleAndSeeds := by
  intro s hp
  refine ⟨expandAndSeed s, exec_expand hp, fun j => ?_, fun k => ?_, expandAndSeed_Rw s, expandAndSeed_t s,
    expandAndSeed_phase s, ?_, expandAndSeed_frame s⟩
  · rw [expandAndSeed_W]
    exact expand_getElem_native s.BLK j.val j.isLt
  · rw [expandAndSeed_W]
    exact expand_getElem_recurrence s.BLK k.val k.isLt
  · exact (busy_iff _).2 (.inr (.inr (.inl (expandAndSeed_phase s))))

/-- Settles O39: the bits of σ0 and σ1, their linearity, and the values of the listed words. -/
theorem scheduleSigmas : Obligations.ScheduleSigmas := by
  refine ⟨fun x s => ⟨⟨ssig0 x, exec_fnSsig0 x s, fun i => ssig0_getLsbD x i.isLt⟩,
    ssig1 x, exec_fnSsig1 x s, fun i => ssig1_getLsbD x i.isLt⟩,
    fun x y => ⟨ssig0_xor x y, ssig1_xor x y⟩, ssig0_top_bits, ?_⟩
  decide

/-- Settles O46: the two schedule rules for the words of `expand`. -/
theorem expandFunctionRecurrence : Obligations.ExpandFunctionRecurrence := fun B s =>
  ⟨expand B, exec_fnExpand B s, fun j => expand_getElem_native B j.val j.isLt,
    fun k => expand_getElem_recurrence B k.val k.isLt⟩

end Sys2Proof.Machine
end

section
/-! The Compressor (O33, O40, O41, O47; 43_compressor.md R151 to R160): Σ0 and Σ1 as XORs of three rotations, Ch and Maj bit
by bit, and the round as the micro-operation ROUND and as a step of compress. -/

namespace Sys2Proof.Machine

/-! ## Three rotations XORed

In the polynomials over two elements modulo z^32 + 1, a rotation is a power of z and an XOR is a sum. There squaring
doubles every exponent, so that after five squarings all three rotations are by multiples of 32. -/

/-- The XOR of three rotations of a word: the shape of Σ0 and Σ1. -/
def xorRotr (a b c : Fin 32) (x : Word) : Word := rotr x a.val ^^^ rotr x b.val ^^^ rotr x c.val

theorem bsig0_eq_xorRotr : bsig0 = xorRotr 2 13 22 := rfl

theorem bsig1_eq_xorRotr : bsig1 = xorRotr 6 11 25 := rfl

theorem rotr_rotr (x : Word) (m n : Fin 32) : rotr (rotr x m.val) n.val = rotr x (m + n).val := by
  apply BitVec.eq_of_getLsbD_eq
  intro i hi
  have hindex : ((i + n.val) % 32 + m.val) % 32 = (i + (m.val + n.val) % 32) % 32 := by omega
  rw [rotr_getLsbD _ _ n.isLt i hi, rotr_getLsbD _ _ m.isLt _ (Nat.mod_lt _ (by decide)),
    rotr_getLsbD _ _ (m + n).isLt i hi, Fin.val_add, hindex]

section
variable (a b c : Fin 32)

theorem xorRotr_getLsbD (x : Word) {i : Nat} (hi : i < 32) :
    (xorRotr a b c x).getLsbD i =
      ((x.getLsbD ((i + a.val) % 32) ^^ x.getLsbD ((i + b.val) % 32)) ^^ x.getLsbD ((i + c.val) % 32)) := by
  rw [xorRotr, BitVec.getLsbD_xor, BitVec.getLsbD_xor, rotr_getLsbD x _ a.isLt i hi, rotr_getLsbD x _ b.isLt i hi,
    rotr_getLsbD x _ c.isLt i hi]

theorem xorRotr_xor (x y : Word) : xorRotr a b c (x ^^^ y) = xorRotr a b c x ^^^ xorRotr a b c y := by
  simp only [xorRotr, rotr_xor x y a.isLt, rotr_xor x y b.isLt, rotr_xor x y c.isLt]
  ac_rfl

/-- Applied twice, the mixed rotations occur in equal pairs and cancel. -/
theorem xorRotr_xorRotr (x : Word) : xorRotr a b c (xorRotr a b c x) = xorRotr (a + a) (b + b) (c + c) x := by
  have hlinear : xorRotr a b c (xorRotr a b c x) =
      xorRotr a b c (rotr x a.val) ^^^ xorRotr a b c (rotr x b.val) ^^^ xorRotr a b c (rotr x c.val) := by
    rw [← xorRotr_xor, ← xorRotr_xor, ← xorRotr]
  have hcomm : ∀ m n : Fin 32, m + n = n + m := add_comm
  rw [hlinear]
  simp only [xorRotr, rotr_rotr, hcomm b a, hcomm c a, hcomm c b]
  calc _ = (rotr x (a + a).val ^^^ rotr x (b + b).val ^^^ rotr x (c + c).val) ^^^
        (rotr x (a + b).val ^^^ rotr x (a + b).val) ^^^ (rotr x (a + c).val ^^^ rotr x (a + c).val) ^^^
        (rotr x (b + c).val ^^^ rotr x (b + c).val) := by ac_rfl
    _ = _ := by simp only [BitVec.xor_self, BitVec.xor_zero]

theorem xorRotr_iterate_two_pow (k : Nat) :
    (xorRotr a b c)^[2 ^ k] = xorRotr (2 ^ k • a) (2 ^ k • b) (2 ^ k • c) := by
  induction k with
  | zero => simp only [pow_zero, one_nsmul, Function.iterate_one]
  | succ k ih =>
    funext x
    rw [pow_succ, Nat.mul_two, Function.iterate_add_apply, ih, xorRotr_xorRotr, ← add_nsmul, ← add_nsmul, ← add_nsmul]

/-- Every rotation is then by 0, and the XOR of an odd number of copies of a word is the word. -/
theorem xorRotr_iterate_32 : (xorRotr a b c)^[32] = id := by
  have hturn : ∀ n : Fin 32, 2 ^ 5 • n = 0 := by decide
  funext x
  rw [show 32 = 2 ^ 5 from rfl, xorRotr_iterate_two_pow, hturn, hturn, hturn]
  simp [xorRotr]

theorem xorRotr_bijective : Function.Bijective (xorRotr a b c) := by
  have hid : Function.Bijective (xorRotr a b c)^[32] := xorRotr_iterate_32 a b c ▸ Function.bijective_id
  refine ⟨.of_comp (f := (xorRotr a b c)^[31]) hid.injective, .of_comp (g := (xorRotr a b c)^[31]) ?_⟩
  rw [← Function.iterate_succ']
  exact hid.surjective

end

/-! ## Ch and Maj -/

section
variable (x y z : Word)

/-- Ch chooses the bit of y where the bit of x is 1 and the bit of z where it is 0 (43_compressor.md R153). -/
theorem ch_getLsbD {i : Nat} (hi : i < 32) :
    (ch x y z).getLsbD i = if x.getLsbD i = true then y.getLsbD i else z.getLsbD i := by
  rw [ch, BitVec.getLsbD_xor, BitVec.getLsbD_and, BitVec.getLsbD_and, BitVec.getLsbD_not, decide_eq_true hi]
  cases x.getLsbD i <;> simp

/-- Maj is 1 where at least two of the three bits are (43_compressor.md R154). -/
theorem maj_getLsbD (i : Nat) :
    (maj x y z).getLsbD i =
      decide (2 ≤ (x.getLsbD i).toNat + (y.getLsbD i).toNat + (z.getLsbD i).toNat) := by
  have hbool : ∀ p q r : Bool, ((p && q) ^^ (p && r) ^^ (q && r)) = decide (2 ≤ p.toNat + q.toNat + r.toNat) := by
    decide
  rw [maj, BitVec.getLsbD_xor, BitVec.getLsbD_xor, BitVec.getLsbD_and, BitVec.getLsbD_and, BitVec.getLsbD_and, hbool]

theorem ones_eq_allOnes : (0xFFFFFFFF : Word) = BitVec.allOnes 32 := by decide

theorem ch_ones : ch 0xFFFFFFFF y z = y := by
  rw [ch, ones_eq_allOnes, BitVec.allOnes_and, BitVec.not_allOnes, BitVec.zero_and, BitVec.xor_zero]

theorem ch_zero : ch 0 y z = z := by
  apply BitVec.eq_of_getLsbD_eq
  intro i hi
  rw [ch_getLsbD _ _ _ hi, if_neg (by simp)]

theorem ch_same : ch x y y = y := by
  apply BitVec.eq_of_getLsbD_eq
  intro i hi
  rw [ch_getLsbD _ _ _ hi, ite_self]

theorem maj_swap_left : maj x y z = maj y x z := by
  apply BitVec.eq_of_getLsbD_eq
  intro i _
  rw [maj_getLsbD, maj_getLsbD, Nat.add_comm (x.getLsbD i).toNat]

theorem maj_swap_right : maj x y z = maj x z y := by
  apply BitVec.eq_of_getLsbD_eq
  intro i _
  rw [maj_getLsbD, maj_getLsbD, Nat.add_right_comm]

theorem maj_same : maj x x y = x := by
  apply BitVec.eq_of_getLsbD_eq
  intro i _
  rw [maj_getLsbD]
  cases x.getLsbD i <;> cases y.getLsbD i <;> rfl

theorem maj_ones_zero : maj 0xFFFFFFFF 0 z = z := by
  rw [maj, ones_eq_allOnes, BitVec.allOnes_and, BitVec.allOnes_and]
  simp

end

/-! ## Rounds -/

theorem roundRegs_eq (W : Schedule) (t : BitVec 6) (r : HashState) :
    roundRegs W t r =
      #v[t1 r W t + t2 r, r[0], r[1], r[2], r[3] + t1 r W t, r[4], r[5], r[6]] := by
  simp [roundRegs]

theorem roundAndCount_eq (s : State) :
    roundAndCount s =
      { s with
        Rw := roundRegs s.W s.t s.Rw
        t := if s.t = 63 then 0 else s.t + 1
        phase := if s.t = 63 then .accum else s.phase } := by
  unfold roundAndCount
  split <;> rfl

/-- The register tuples before round 0, after round 0, and so on to after round 63 (43_compressor.md R159). -/
def compressTuples (S : HashState) (W : Schedule) : List HashState := (List.range 65).map (compressUpTo S W)

theorem compressTuples_getElem? (S : HashState) (W : Schedule) {n : Nat} (hn : n < 65) :
    (compressTuples S W)[n]? = some (compressUpTo S W n) := by
  simp [compressTuples, hn]

/-! ## Evaluating the compressor's rows -/

theorem exec_fnBsig0 (x : Word) (s : State) : exec (.fnBsig0 x) s = .next { s with funcOut := .word (bsig0 x) } := rfl

theorem exec_fnBsig1 (x : Word) (s : State) : exec (.fnBsig1 x) s = .next { s with funcOut := .word (bsig1 x) } := rfl

theorem exec_fnCh (e f g : Word) (s : State) :
    exec (.fnCh e f g) s = .next { s with funcOut := .word (ch e f g) } := rfl

theorem exec_fnMaj (a b c : Word) (s : State) :
    exec (.fnMaj a b c) s = .next { s with funcOut := .word (maj a b c) } := rfl

theorem exec_fnCompress (S : HashState) (W : Schedule) (s : State) :
    exec (.fnCompress S W) s = .next { s with funcOut := .hashState (compress S W) } := rfl

theorem exec_round {s : State} (hp : s.phase = .round) : exec .round s = .next (roundAndCount s) :=
  whenSelected_next.2 ⟨decide_eq_true hp, rfl⟩

/-! ## The obligations -/

/-- Settles O40: Σ0 and Σ1 as three rotations give the bits, the linearity and the bijection; the values are
computed. -/
theorem compressorSigmas : Obligations.CompressorSigmas := by
  refine ⟨fun x s => ⟨⟨bsig0 x, exec_fnBsig0 x s, fun i => ?_⟩, bsig1 x, exec_fnBsig1 x s, fun i => ?_⟩,
    fun x y => ?_, ?_, ?_⟩
  · rw [bsig0_eq_xorRotr]
    exact xorRotr_getLsbD 2 13 22 x i.isLt
  · rw [bsig1_eq_xorRotr]
    exact xorRotr_getLsbD 6 11 25 x i.isLt
  · rw [bsig0_eq_xorRotr]
    exact xorRotr_xor 2 13 22 x y
  · rw [bsig0_eq_xorRotr]
    exact xorRotr_bijective 2 13 22
  · decide

/-- Settles O41: the bits of Ch and Maj, from which the corner cases and the symmetry follow. -/
theorem chooseAndMajority : Obligations.ChooseAndMajority := by
  refine ⟨fun e f g s => ⟨ch e f g, exec_fnCh e f g s, fun i => ch_getLsbD e f g i.isLt⟩,
    fun a b c s => ⟨maj a b c, exec_fnMaj a b c s, fun i => maj_getLsbD a b c i.val⟩,
    fun x y z => ⟨ch_ones y z, ch_zero y z, ch_same x y, maj_same x y, maj_ones_zero z, maj_swap_left x y z,
      maj_swap_right x y z⟩, ?_⟩
  decide

/-- Settles O47: the tuples are the values of `compressUpTo`, each the round of the one before. -/
theorem compressRunsSixtyFourRounds : Obligations.CompressRunsSixtyFourRounds := by
  intro S W s
  refine ⟨compressTuples S W, by simp [compressTuples], compressTuples_getElem? S W (by decide), ?_,
    compress S W, compressTuples_getElem? S W (by decide), exec_fnCompress S W s⟩
  intro t x y hx hy
  rw [compressTuples_getElem? S W (by omega), Option.some_inj] at hx hy
  have hround : y = roundRegs W (BitVec.ofNat 6 t.val) x := by rw [← hy, ← hx, compressUpTo_succ]
  have ht : (BitVec.ofNat 6 t.val).toNat = t.val := Nat.mod_eq_of_lt t.isLt
  rw [hround, roundRegs_eq, t1_eq, t2_eq]
  simp only [ht]

/-- Settles O33: the registers after the round by T1 and T2, and the move of t. -/
theorem roundUpdatesWorkingRegisters : Obligations.RoundUpdatesWorkingRegisters := by
  intro s hp
  dsimp only
  rw [exec_round hp, roundAndCount_eq, roundRegs_eq, t1_eq, t2_eq, hp]
  rfl

end Sys2Proof.Machine
end

section
/-! The State Accumulator, the Digest Assembler and what the digest port shows (O27, O29, O34, O35, O48, O50;
44_accumulator_digest.md R180 to R189): the words of H as the bytes of D, the bytes of D as the bits of the port, and
their spelling. -/

namespace Sys2Proof.Machine

/-! ## The micro-operations ACCUM and ASSEMBLE -/

theorem exec_accum {s : State} (hp : s.phase = .accum) : exec .accum s = .next (accumulateHash s) :=
  whenSelected_next.2 ⟨decide_eq_true hp, rfl⟩

theorem exec_assemble {s : State} (hp : s.phase = .assemble) : exec .assemble s = .next (assembleDigest s) :=
  whenSelected_next.2 ⟨decide_eq_true hp, rfl⟩

/-- ASSEMBLE answers a next state in its phase alone (30_encoding.md R84). -/
theorem eq_assembleDigest_of_exec {s s' : State} (h : exec .assemble s = .next s') : s' = assembleDigest s :=
  (whenSelected_next.1 h).2

theorem accumulateHash_frame (s : State) : { accumulateHash s with H := s.H, phase := s.phase } = s := by
  simp only [accumulateHash]

theorem assembleDigest_frame (s : State) : { assembleDigest s with D := s.D, phase := s.phase } = s := by
  simp only [assembleDigest]

theorem exec_fnAccumulate (S Rw : HashState) (s : State) :
    exec (.fnAccumulate S Rw) s = .next { s with funcOut := .hashState (accumulate S Rw) } := rfl

theorem exec_fnAssemble (S : HashState) (s : State) :
    exec (.fnAssemble S) s = .next { s with funcOut := .digest (assemble S) } := rfl

/-! ## The words of the hash state and the bytes of the digest -/

/-- Digest byte 4k + j is byte j of word k (44_accumulator_digest.md R183). -/
theorem assemble_getElem_wordByte (S : HashState) {k j : Nat} (hk : k < 8) (hj : j < 4) :
    (assemble S)[4 * k + j] = wordByte S[k] j := by
  have hword : (4 * k + j) / 4 = k := by omega
  have hbyte : (4 * k + j) % 4 = j := by omega
  rw [assemble_getElem _ _ (by omega), hbyte]
  simp only [hword]

/-- The most significant byte of a word comes first (00_scope.md R16). -/
theorem assemble_getElem_extractLsb' (S : HashState) (k : Fin 8) (j : Fin 4) :
    (assemble S)[4 * k.val + j.val] = (S[k.val]).extractLsb' (24 - 8 * j.val) 8 := by
  have hstart : 8 * (3 - j.val) = 24 - 8 * j.val := by omega
  rw [assemble_getElem_wordByte S k.isLt j.isLt, wordByte, hstart]

/-- BE32 puts four adjacent bytes together (00_scope.md R16). -/
theorem be32_extractLsb' {w : Nat} (x : BitVec w) (n : Nat) :
    be32 (x.extractLsb' (n + 24) 8) (x.extractLsb' (n + 16) 8) (x.extractLsb' (n + 8) 8) (x.extractLsb' n 8) =
      x.extractLsb' n 32 := by
  rw [be32, BitVec.extractLsb'_append_extractLsb'_eq_extractLsb' (show n + 24 = n + 16 + 8 from rfl),
    BitVec.extractLsb'_append_extractLsb'_eq_extractLsb' (show n + 16 = n + 8 + 8 from rfl),
    BitVec.extractLsb'_append_extractLsb'_eq_extractLsb' (show n + 8 = n + 8 from rfl)]

theorem be32_wordByte (w : Word) : be32 (wordByte w 0) (wordByte w 1) (wordByte w 2) (wordByte w 3) = w :=
  (be32_extractLsb' w 0).trans BitVec.extractLsb'_eq_self

/-! ## The digest port -/

theorem digestValue_succ (D : Digest) {n : Nat} (hn : n < 32) :
    digestValue D (n + 1) = digestValue D n * 256 + D[n].toNat := by
  rw [digestValue, Vector.getElem?_eq_getElem hn, Option.getD_some]

theorem digestValue_lt (D : Digest) {n : Nat} (hn : n ≤ 32) : digestValue D n < 256 ^ n := by
  induction n with
  | zero => exact Nat.one_pos
  | succ n ih =>
    have hlt := ih (by omega)
    have hbyte := (D[n]'(by omega)).isLt
    rw [digestValue_succ D (by omega), pow_succ]
    omega

/-- Byte i of the first n bytes is followed by the n − 1 − i later ones. -/
theorem digestValue_byte (D : Digest) {n i : Nat} (hn : n ≤ 32) (hi : i < n) :
    digestValue D n / 256 ^ (n - 1 - i) % 256 = (D[i]'(by omega)).toNat := by
  induction n with
  | zero => exact absurd hi (Nat.not_lt_zero i)
  | succ n ih =>
    have hbyte := (D[n]'(by omega)).isLt
    rw [digestValue_succ D (by omega)]
    obtain hi | rfl := Nat.lt_succ_iff_lt_or_eq.1 hi
    · have hexp : n + 1 - 1 - i = (n - 1 - i) + 1 := by omega
      have hhigh : (digestValue D n * 256 + (D[n]'(by omega)).toNat) / 256 = digestValue D n := by omega
      rw [hexp, pow_succ', ← Nat.div_div_eq_div_mul, hhigh, ih (by omega) hi]
    · have hexp : i + 1 - 1 - i = 0 := by omega
      rw [hexp, pow_zero, Nat.div_one]
      omega

/-- Byte i of D stands on the port above the 31 − i later ones (44_accumulator_digest.md R185). -/
theorem digestPort_byte (s : State) {i : Nat} (hi : i < 32) :
    (digestPort s).extractLsb' (8 * (31 - i)) 8 = s.D[i] := by
  have hlt : digestValue s.D 32 < 2 ^ 256 := digestValue_lt s.D le_rfl
  have hpow : 2 ^ (8 * (31 - i)) = 256 ^ (32 - 1 - i) := Nat.pow_mul 2 8 _
  apply BitVec.eq_of_toNat_eq
  rw [BitVec.extractLsb'_toNat, digestPort, BitVec.toNat_ofNat, Nat.mod_eq_of_lt hlt, Nat.shiftRight_eq_div_pow, hpow]
  exact digestValue_byte s.D le_rfl hi

/-- The port shows the words of the hash state that its digest was assembled from, H[0] at the top. -/
theorem digestPort_word {s : State} {S : HashState} (hD : s.D = assemble S) {k : Nat} (hk : k < 8) :
    (digestPort s).extractLsb' (32 * (7 - k)) 32 = S[k] := by
  have hbyte {n j : Nat} (hj : j < 4) (hn : n = 8 * (31 - (4 * k + j))) :
      (digestPort s).extractLsb' n 8 = wordByte S[k] j := by
    rw [hn, digestPort_byte s (by omega)]
    simp only [hD, assemble_getElem_wordByte S hk hj]
  rw [← be32_extractLsb', hbyte (j := 0) (by decide) (by omega), hbyte (j := 1) (by decide) (by omega),
    hbyte (j := 2) (by decide) (by omega), hbyte (j := 3) (by decide) (by omega), be32_wordByte]

theorem digestPort_zeroDigest {s : State} (hD : s.D = zeroDigest) : digestPort s = 0 := by
  rw [digestPort, hD]
  rfl

/-! ## The hex spelling -/

theorem hexDigit_eq (v : BitVec 4) : "0123456789abcdef".toList[v.toNat]? = some (hexDigit v) := by
  revert v; decide

theorem length_hexBytes (bs : List Byte) : (bs.map hexByte).flatten.length = 2 * bs.length := by
  induction bs with
  | nil => rfl
  | cons b bs ih =>
    rw [List.map_cons, List.flatten_cons, List.length_append, ih, List.length_cons, Nat.mul_succ, Nat.add_comm]
    rfl

/-- Byte i is spelled by the characters 2i and 2i + 1. -/
theorem getElem?_hexBytes {bs : List Byte} {i : Nat} {b : Byte} (hb : bs[i]? = some b) :
    (bs.map hexByte).flatten[2 * i]? = some (hexDigit (b.extractLsb' 4 4)) ∧
    (bs.map hexByte).flatten[2 * i + 1]? = some (hexDigit (b.extractLsb' 0 4)) := by
  induction bs generalizing i with
  | nil => simp at hb
  | cons b' bs ih =>
    cases i with
    | zero =>
      obtain rfl : b' = b := by simpa using hb
      exact ⟨rfl, rfl⟩
    | succ i => exact ih (by simpa using hb)

theorem toNat_nibbles (b : Byte) :
    (b.extractLsb' 4 4).toNat = b.toNat / 16 ∧ (b.extractLsb' 0 4).toNat = b.toNat % 16 := by
  have hb := b.isLt
  rw [BitVec.extractLsb'_toNat, BitVec.extractLsb'_toNat, Nat.shiftRight_eq_div_pow, Nat.shiftRight_zero]
  exact ⟨by omega, rfl⟩

/-! ## The obligations -/

/-- Settles O27: the bytes of the port, the words of H that ASSEMBLE puts there, and D = 0 outside DONE by the
invariants. -/
theorem digestPortLayout : Obligations.DigestPortLayout := by
  refine ⟨fun s i => digestPort_byte s i.isLt, fun s s' hs => ?_, fun s hinv hd => ?_⟩
  · have hD : s'.D = assemble s.H := by rw [eq_assembleDigest_of_exec hs, assembleDigest_D]
    exact ⟨digestPort_word hD (k := 0) (by decide), digestPort_word hD (k := 7) (by decide)⟩
  · exact digestPort_zeroDigest (hinv.digest_zero (of_decide_eq_false hd))

/-- Settles O29: each byte is spelled by the digits of its two nibbles. -/
theorem hexSpelling : Obligations.HexSpelling := by
  intro D
  refine ⟨by rw [hexDigest, length_hexBytes, Vector.length_toList], fun i => ?_⟩
  have hbyte : D.toList[i.val]? = some D[i.val] := by simp
  obtain ⟨hhigh, hlow⟩ := getElem?_hexBytes hbyte
  obtain ⟨nhigh, nlow⟩ := toNat_nibbles D[i.val]
  rw [hexDigest, hhigh, hlow, ← nhigh, ← nlow, hexDigit_eq, hexDigit_eq]
  exact ⟨rfl, rfl⟩

/-- Settles O35: the bytes of `assemble` on H, and the frame of ASSEMBLE. -/
theorem assembleWritesDigest : Obligations.AssembleWritesDigest := by
  intro s hp
  refine ⟨assembleDigest s, exec_assemble hp, assembleDigest_phase s, by simp [busy, Phase.isBusy], by simp [dvalid],
    fun k j => ?_, assembleDigest_frame s⟩
  simp only [assembleDigest_D]
  exact assemble_getElem_extractLsb' s.H k j

/-- Settles O34: the lanes of `accumulate` on H and a..h, the phase after each padding stage, and the frame of ACCUM. -/
theorem accumAddsAndChooses : Obligations.AccumAddsAndChooses := by
  intro s hp
  refine ⟨accumulateHash s, exec_accum hp, fun k => ?_, fun hst => ?_, fun hst => ?_, fun hst => ?_,
    accumulateHash_frame s⟩
  · simp only [accumulateHash_H]
    exact accumulate_getElem s.H s.Rw k.val k.isLt
  all_goals simp [cmdReady, busy, hst, afterAccum, Phase.isBusy]

/-- Settles O48: the lanes of `accumulate` and the bytes of `assemble`. -/
theorem accumulateAndAssembleFunctions : Obligations.AccumulateAndAssembleFunctions :=
  ⟨fun S Rw s => ⟨accumulate S Rw, exec_fnAccumulate S Rw s, fun k => accumulate_getElem S Rw k.val k.isLt⟩,
    fun S s => ⟨assemble S, exec_fnAssemble S s, assemble_getElem_extractLsb' S⟩⟩

/-- The digest of the empty message (44_accumulator_digest.md R189). -/
theorem hexDigest_hash_empty :
    hexDigest (hash []) = "e3b0c44298fc1c149afbf4c8996fb92427ae41e4649b934ca495991b7852b855".toList := by
  decide +kernel

/-- The digest of "abc" (44_accumulator_digest.md R189). -/
theorem hexDigest_hash_abc : hexDigest (hash [0x61, 0x62, 0x63]) =
    "ba7816bf8f01cfea414140de5dae2223b00361a396177a9cb410ff61f20015ad".toList := by
  decide +kernel

/-- Settles O50: each digest is a closed term that the model evaluates. -/
theorem knownVectors : Obligations.KnownVectors := ⟨hexDigest_hash_empty, hexDigest_hash_abc⟩

end Sys2Proof.Machine
end

section
/-! The hardware computes hash (O58; 44_accumulator_digest.md R188): what the Host has still to present, the stages of the
core's job, and a measure that every step of the job lowers. -/

namespace Sys2Proof.Machine

/-! ## Runs that lower a measure -/

/-- While a goal is not reached, every step keeps an invariant and lowers a measure: then some run reaches the goal, and
the invariant holds all along it. -/
theorem runSteps_reaches {P goal : State → Prop} (measure : State → Nat)
    (hstep : ∀ q, P q → goal q ∨ ∃ q', step q = .next q' ∧ P q' ∧ measure q' < measure q) {s : State} (hs : P s) :
    ∃ n s', runSteps n s = .next s' ∧ goal s' ∧ ∀ k, k ≤ n → ∃ q, runSteps k s = .next q ∧ P q := by
  induction hm : measure s using Nat.strong_induction_on generalizing s with
  | _ bound ih =>
    obtain hgoal | ⟨q, hq, hPq, hlt⟩ := hstep s hs
    · refine ⟨0, s, rfl, hgoal, fun k hk => ⟨s, ?_, hs⟩⟩
      rw [Nat.le_zero.1 hk, runSteps_zero]
    · obtain ⟨n, s', hrun, hgoal, hall⟩ := ih (measure q) (hm ▸ hlt) hPq rfl
      refine ⟨n + 1, s', by rw [runSteps_succ hq, hrun], hgoal, fun k hk => ?_⟩
      cases k with
      | zero => exact ⟨s, rfl, hs⟩
      | succ k => rw [runSteps_succ hq]; exact hall k (by omega)

/-! ## The micro-operations left in a busy period (70_reset_and_hazards.md R271) -/

/-- The micro-operations that follow a block's ACCUM in the same busy period: none, or PAD, a block and ASSEMBLE, or
ASSEMBLE. -/
def microOpsAfterBlock : PStage → Nat
  | .msg => 0
  | .pending => 68
  | .last => 1

/-- The micro-operations until the core is quiescent. -/
def microOpsLeft (s : State) : Nat :=
  match s.phase with
  | .pad => match s.pstage with
    | .msg => if s.blen.toNat ≤ 55 then 68 else 135
    | .pending => 68
    | .last => 0
  | .expand => 66 + microOpsAfterBlock s.pstage
  | .round => 65 - s.t.toNat + microOpsAfterBlock s.pstage
  | .accum => 1 + microOpsAfterBlock s.pstage
  | .assemble => 1
  | .idle | .absorb | .done | .error => 0

theorem microOpsAfterBlock_le (st : PStage) : microOpsAfterBlock st ≤ 68 := by cases st <;> decide

theorem microOpsLeft_le (s : State) : microOpsLeft s ≤ 135 := by
  have hst := microOpsAfterBlock_le s.pstage
  unfold microOpsLeft
  split
  · split
    · split <;> omega
    · omega
    · omega
  all_goals omega

/-- ROUND t is followed by the 63 − t later rounds and ACCUM (43_compressor.md R158). -/
theorem microOpsLeft_roundAndCount {s : State} (hp : s.phase = .round) :
    microOpsLeft (roundAndCount s) + 1 = microOpsLeft s := by
  by_cases h63 : s.t = 63#6
  · simp +arith [microOpsLeft, hp, h63]
  · have hne : s.t.toNat ≠ 63 := fun h => h63 (BitVec.eq_of_toNat_eq h)
    have hlt := s.t.isLt
    have hph : (roundAndCount s).phase = .round := by simp [h63, hp]
    have ht : (roundAndCount s).t.toNat = s.t.toNat + 1 := by rw [roundAndCount_t, toNat_counter_succ]; omega
    simp only [microOpsLeft, hph, ht, roundAndCount_pstage, hp]
    omega

/-- Each micro-operation is one of those that were left. -/
theorem microOpsLeft_microEffect {s : State} (hb : busy s = true) (hp : ¬(s.phase = .pad ∧ s.pstage = .last)) :
    microOpsLeft (microEffect s) + 1 = microOpsLeft s := by
  obtain ⟨hp, hst, he⟩ | ⟨hp, hst, he⟩ | ⟨hp, he⟩ | ⟨hp, he⟩ | ⟨hp, he⟩ | ⟨hp, he⟩ := microEffect_cases hb hp <;> rw [he]
  · by_cases hfits : s.blen.toNat ≤ 55 <;> simp [microOpsLeft, hp, hst, hfits, microOpsAfterBlock]
  · simp [microOpsLeft, hp, hst, microOpsAfterBlock]
  · simp +arith [microOpsLeft, hp]
  · exact microOpsLeft_roundAndCount hp
  · cases hst : s.pstage <;> simp [microOpsLeft, hp, hst, afterAccum, microOpsAfterBlock]
  · simp [microOpsLeft, hp]

/-! ## What no command and no micro-operation writes -/

theorem microEffect_frame (q : State) :
    (microEffect q).cause = q.cause ∧ (microEffect q).cmdIn = q.cmdIn ∧ (microEffect q).rstIn = q.rstIn := by
  unfold microEffect
  repeat' split
  all_goals simp

theorem commandEffect_ports (w : CmdWord) (q : State) :
    (commandEffect w q).cmdIn = q.cmdIn ∧ (commandEffect w q).rstIn = q.rstIn := by
  obtain ⟨-, -, he⟩ | ⟨-, he⟩ | ⟨-, -, c, -, -, he⟩ | ⟨-, -, he⟩ | ⟨-, -, -, he⟩ := commandEffect_cases w q <;>
    simp [he]

/-! ## What the Host has still to present -/

/-- The port `cs` presents the words `ws` with any pauses and then `rest`, of which pauses at its head may have passed. -/
inductive Presents (rest : List (Option CmdWord)) : List CmdWord → List (Option CmdWord) → Prop
  | word (w : CmdWord) {ws : List CmdWord} {cs : List (Option CmdWord)} (h : Presents rest ws cs) :
      Presents rest (w :: ws) (some w :: cs)
  | pause {ws : List CmdWord} {cs : List (Option CmdWord)} (h : Presents rest ws cs) : Presents rest ws (none :: cs)
  | taken {pauses cs : List (Option CmdWord)} (hrest : rest = pauses ++ cs) (hnone : ∀ x ∈ pauses, x = none) :
      Presents rest [] cs

theorem presents_append (job rest : List (Option CmdWord)) : Presents rest job.reduceOption (job ++ rest) := by
  induction job with
  | nil => exact .taken (pauses := []) rfl (by simp)
  | cons x job ih =>
    cases x with
    | none => exact .pause ih
    | some w => exact .word w ih

/-- A busy core lets a pause pass, of the job or after it, and leaves a word presented. -/
theorem Presents.dropPause {rest cs : List (Option CmdWord)} {ws : List CmdWord} (h : Presents rest ws cs) :
    Presents rest ws (dropPause cs) := by
  cases h with
  | word w h => exact .word w h
  | pause h => exact h
  | @taken pauses _ hrest hnone =>
    match cs with
    | [] => exact .taken hrest hnone
    | some w :: cs => exact .taken hrest hnone
    | none :: cs =>
      refine .taken (pauses := pauses ++ [none]) (by simpa using hrest) fun x hx => ?_
      obtain hx | hx := List.mem_append.1 hx
      · exact hnone x hx
      · exact List.mem_singleton.1 hx

/-- The words of a job that follow its INIT: the WRITEs of the bytes `m` and FINISH. -/
def wordsAfterInit (m : List Byte) : List CmdWord := m.map (fun b => lineWord (.write b)) ++ [lineWord .finish]

theorem jobWords_eq (m : List Byte) : jobWords m = lineWord .init :: wordsAfterInit m := by
  simp [jobWords, itemWords, itemLines, wordsAfterInit]

theorem commandEffect_init_line (s : State) : commandEffect (lineWord .init) s = startJob s := by
  simp [commandEffect, lineWord, legal_commandWord]

theorem commandEffect_write_line (b : Byte) {s : State} (ha : s.phase = .absorb) (hL : s.L ≠ s.cfg.maxMsgBytes) :
    commandEffect (lineWord (.write b)) s = absorbByte b s := by
  simp [commandEffect, lineWord, legal_commandWord, unlessError, inJob, writeInJob, ha, hL]

theorem commandEffect_finish_line {s : State} (ha : s.phase = .absorb) :
    commandEffect (lineWord .finish) s = finishJob s := by
  simp [commandEffect, lineWord, legal_commandWord, unlessError, inJob, ha]

/-! ## The stages of the core's job -/

/-- Between INIT and FINISH: waiting for a word, or compressing a block that a message byte has filled. -/
def Absorbing (q : State) : Prop := q.phase = .absorb ∨ (inBlock q.phase ∧ q.pstage = .msg)

/-- After FINISH: padding, compressing a block that PAD has formed, assembling, or done. -/
def Closing (q : State) : Prop :=
  q.phase = .pad ∨ (inBlock q.phase ∧ q.pstage ≠ .msg) ∨ q.phase = .assemble ∨ q.phase = .done

/-- The core `q`, with the words `ws` of the job for `m` not yet taken: it is still the core `s` that the job found, or
it has absorbed the bytes before those in `ws`, or it has taken every word. -/
inductive JobStage (m : List Byte) (s : State) (ws : List CmdWord) (q : State) : Prop
  | waiting (words : ws = jobWords m) (same : { q with cmdIn := s.cmdIn, rstIn := s.rstIn } = s)
  | absorbing {before left : List Byte} (words : ws = wordsAfterInit left) (message : before ++ left = m)
      (job : InJob before q) (cause : q.cause = .none) (phase : Absorbing q)
  | closing (words : ws = []) (job : InJob m q) (cause : q.cause = .none) (phase : Closing q)

theorem not_error_of_absorbing {q : State} (h : Absorbing q) : q.phase ≠ .error := by
  rcases h with hp | ⟨hp | hp | hp, -⟩ <;> simp [hp]

theorem not_error_of_closing {q : State} (h : Closing q) : q.phase ≠ .error := by
  rcases h with hp | ⟨hp | hp | hp, -⟩ | hp | hp <;> simp [hp]

theorem absorb_of_absorbing {q : State} (h : Absorbing q) (hq : cmdReady q = true) : q.phase = .absorb := by
  rcases h with hp | ⟨hp | hp | hp, -⟩
  · exact hp
  all_goals simp [cmdReady, busy, hp, Phase.isBusy] at hq

theorem done_of_closing {q : State} (h : Closing q) (hq : cmdReady q = true) : q.phase = .done := by
  rcases h with hp | ⟨hp | hp | hp, -⟩ | hp | hp
  case inr.inr.inr => exact hp
  all_goals simp [cmdReady, busy, hp, Phase.isBusy] at hq

section
variable {m : List Byte} {s q : State} {ws : List CmdWord}

theorem JobStage.ports (h : JobStage m s ws q) (cs : List (Option CmdWord)) (rs : List Bool) :
    JobStage m s ws { q with cmdIn := cs, rstIn := rs } := by
  cases h with
  | waiting hws hsame => exact .waiting hws hsame
  | absorbing hws hm hj hc hp => exact .absorbing hws hm (inJob_ports hj cs rs) hc hp
  | closing hws hj hc hp => exact .closing hws (inJob_ports hj cs rs) hc hp

/-- A state in ERROR is the one that the job found. -/
theorem JobStage.same_of_error (h : JobStage m s ws q) (he : q.phase = .error) :
    { q with cmdIn := s.cmdIn, rstIn := s.rstIn } = s := by
  cases h with
  | waiting _ hsame => exact hsame
  | absorbing _ _ _ _ hp => exact absurd he (not_error_of_absorbing hp)
  | closing _ _ _ hp => exact absurd he (not_error_of_closing hp)

/-- A quiescent core that has taken every word has ended the job. -/
theorem JobStage.done (h : JobStage m s [] q) (hq : cmdReady q = true) :
    q.phase = .done ∧ q.cause = .none ∧ q.D = hash m := by
  cases h with
  | waiting hws _ => simp [jobWords_eq] at hws
  | absorbing hws _ _ _ _ => simp [wordsAfterInit] at hws
  | closing _ hj hc hp =>
    have hd := done_of_closing hp hq
    exact ⟨hd, hc, hj.digest hd⟩

/-- A byte that is still to come is below the limit, so its WRITE is absorbed. -/
theorem limit_not_reached {before left : List Byte} {b : Byte} (hj : InJob before q)
    (hlimit : (before ++ b :: left).length ≤ q.cfg.maxMsgBytes.toNat) : q.L ≠ q.cfg.maxMsgBytes := by
  intro hL
  rw [← hL, hj.length, List.length_append, List.length_cons] at hlimit
  omega

theorem absorbing_absorbByte {b : Byte} (ha : q.phase = .absorb) (hst : q.pstage = .msg) : Absorbing (absorbByte b q) := by
  by_cases h63 : q.blen = 63
  · exact .inr ⟨.inl (by rw [absorbByte_phase, if_pos h63]), by rw [absorbByte_pstage, hst]⟩
  · exact .inl (by rw [absorbByte_phase, if_neg h63, ha])

/-- A quiescent core takes the next word of the job: INIT opens it, a WRITE adds its byte, FINISH closes it. -/
theorem JobStage.command {w : CmdWord} (h : JobStage m s (w :: ws) q) (hq : cmdReady q = true)
    (hlimit : m.length ≤ q.cfg.maxMsgBytes.toNat) : JobStage m s ws (commandEffect w q) := by
  cases h with
  | waiting hws _ =>
    obtain ⟨rfl, rfl⟩ := List.cons.inj (hws.trans (jobWords_eq m))
    rw [commandEffect_init_line]
    exact .absorbing rfl (List.nil_append m) (inJob_startJob q) rfl (.inl rfl)
  | @absorbing before left hws hm hj hc hp =>
    have ha := absorb_of_absorbing hp hq
    cases left with
    | nil =>
      obtain ⟨rfl, rfl⟩ := List.cons.inj hws
      rw [commandEffect_finish_line ha]
      obtain rfl : before = m := by rw [← hm, List.append_nil]
      exact .closing rfl (inJob_finishJob hj ha) hc (.inl rfl)
    | cons b left =>
      obtain ⟨rfl, rfl⟩ := List.cons.inj hws
      have hL := limit_not_reached hj (hm ▸ hlimit)
      rw [commandEffect_write_line b ha hL]
      exact .absorbing rfl (by rw [← hm, List.append_assoc, List.singleton_append]) (inJob_absorbByte hj b ha hL)
        (by rw [absorbByte_cause, hc]) (absorbing_absorbByte ha (hj.absorb_stage ha))
  | closing hws => cases hws

/-! ## The micro-operations of each stage -/

/-- EXPAND and ROUND stay in the block, with the same padding stage. -/
theorem inBlock_microEffect (hp : q.phase = .expand ∨ q.phase = .round) :
    inBlock (microEffect q).phase ∧ (microEffect q).pstage = q.pstage := by
  rcases hp with hp | hp
  · rw [microEffect_expand hp]
    simp [inBlock]
  · rw [microEffect_round hp]
    by_cases h63 : q.t = 63#6 <;> simp [inBlock, hp, h63]

theorem absorbing_microEffect (h : Absorbing q) (hb : busy q = true) : Absorbing (microEffect q) := by
  rcases h with hp | ⟨hp, hst⟩
  · simp [busy, hp, Phase.isBusy] at hb
  · rcases or_assoc.2 hp with hp | hp
    · obtain ⟨hin, hkeep⟩ := inBlock_microEffect hp
      exact .inr ⟨hin, hkeep.trans hst⟩
    · rw [microEffect_accum hp]
      exact .inl (by simp [hst, afterAccum])

theorem closing_microEffect (h : Closing q) (hb : busy q = true) (hp : ¬(q.phase = .pad ∧ q.pstage = .last)) :
    Closing (microEffect q) := by
  rcases h with hpad | ⟨hin, hst⟩ | hassemble | hdone
  · cases hst : q.pstage with
    | msg =>
      rw [microEffect_padMsg hpad hst]
      exact .inr (.inl ⟨.inl (by simp), by rw [padFirst_pstage]; split <;> simp⟩)
    | pending =>
      rw [microEffect_padPending hpad hst]
      exact .inr (.inl ⟨.inl (by simp), by simp⟩)
    | last => exact absurd ⟨hpad, hst⟩ hp
  · rcases or_assoc.2 hin with hin | haccum
    · obtain ⟨hin', hkeep⟩ := inBlock_microEffect hin
      exact .inr (.inl ⟨hin', by rw [hkeep]; exact hst⟩)
    · rw [microEffect_accum haccum]
      cases hst' : q.pstage with
      | msg => exact absurd hst' hst
      | pending => exact .inl (by simp [hst', afterAccum])
      | last => exact .inr (.inr (.inl (by simp [hst', afterAccum])))
  · rw [microEffect_assemble hassemble]
    exact .inr (.inr (.inr (by simp)))
  · simp [busy, hdone, Phase.isBusy] at hb

theorem phase_eq_of_same (hsame : { q with cmdIn := s.cmdIn, rstIn := s.rstIn } = s) : q.phase = s.phase :=
  congrArg State.phase (a₁ := { q with cmdIn := s.cmdIn, rstIn := s.rstIn }) hsame

/-- The core that the job found was quiescent, and a state of the job never stands there. -/
theorem JobStage.not_padAfterLast (h : JobStage m s ws q) (hs : cmdReady s = true) :
    ¬(q.phase = .pad ∧ q.pstage = .last) := by
  rintro ⟨hpad, hlast⟩
  cases h with
  | waiting _ hsame =>
    rw [phase_eq_of_same hsame] at hpad
    simp [cmdReady, busy, hpad, Phase.isBusy] at hs
  | absorbing _ _ hj => exact hj.pad_stage hpad hlast
  | closing _ hj => exact hj.pad_stage hpad hlast

theorem JobStage.micro (h : JobStage m s ws q) (hs : cmdReady s = true) (hb : busy q = true) :
    JobStage m s ws (microEffect q) := by
  have hp := h.not_padAfterLast hs
  cases h with
  | waiting _ hsame =>
    rw [busy, phase_eq_of_same hsame, ← busy] at hb
    simp [cmdReady, hb] at hs
  | absorbing hws hm hj hc ha =>
    exact .absorbing hws hm (inJob_microEffect hj hb) ((microEffect_frame q).1.trans hc) (absorbing_microEffect ha hb)
  | closing hws hj hc hcl =>
    exact .closing hws (inJob_microEffect hj hb) ((microEffect_frame q).1.trans hc) (closing_microEffect hcl hb hp)

end

/-! ## The run of the job -/

/-- The job for `m` runs in `q`, from the core `s`, with `rest` presented after it. -/
structure JobRun (m : List Byte) (s : State) (rest : List (Option CmdWord)) (q : State) : Prop where
  limit : m.length ≤ q.cfg.maxMsgBytes.toNat
  noReset : ∀ x ∈ q.rstIn, x = false
  port : ∃ ws, Presents rest ws q.cmdIn ∧ JobStage m s ws q

/-- The job for `m` has ended in `q`, every word of it taken, and of `rest` no more than pauses. -/
structure JobEnded (m : List Byte) (rest : List (Option CmdWord)) (q : State) : Prop where
  phase : q.phase = .done
  cause : q.cause = .none
  digest : q.D = hash m
  port : ∃ pauses, rest = pauses ++ q.cmdIn ∧ ∀ x ∈ pauses, x = none

/-- A word that is taken costs at most the 135 micro-operations of its busy period, a pause itself. -/
def jobMeasure (q : State) : Nat := 136 * q.cmdIn.reduceOption.length + q.cmdIn.length + microOpsLeft q

theorem length_dropPause_le (cs : List (Option CmdWord)) : (dropPause cs).length ≤ cs.length := by
  match cs with
  | [] => exact le_rfl
  | none :: cs => exact Nat.le_succ _
  | some _ :: _ => exact le_rfl

section
variable {m : List Byte} {s q : State} {rest : List (Option CmdWord)}

/-- A busy core runs one of the micro-operations left, and at most a pause passes. -/
theorem JobRun.step_busy (h : JobRun m s rest q) (hs : cmdReady s = true) (hb : busy q = true) :
    ∃ q', step q = .next q' ∧ JobRun m s rest q' ∧ jobMeasure q' < jobMeasure q := by
  obtain ⟨hlimit, hr, ws, hport, hstage⟩ := h
  have hp := hstage.not_padAfterLast hs
  have hb' : busy (passPause (pastSample q)) = true := hb
  obtain ⟨-, hcmd, hrst⟩ := microEffect_frame (passPause (pastSample q))
  refine ⟨_, step_micro (rst_false hr) hb hp, ⟨?_, ?_, ws, ?_, (hstage.ports _ _).micro hs hb'⟩, ?_⟩
  · rw [keepsModelFields_microEffect.cfg]
    exact hlimit
  · rw [hrst]
    exact tail_false hr
  · rw [hcmd]
    exact hport.dropPause
  · have hleft : microOpsLeft (microEffect (passPause (pastSample q))) + 1 = microOpsLeft q :=
      microOpsLeft_microEffect hb' hp
    have hlen := length_dropPause_le q.cmdIn
    rw [jobMeasure, jobMeasure, hcmd, passPause_cmdIn, pastSample_cmdIn, dropPause_reduceOption]
    omega

/-- A quiescent core takes the next word, lets a pause pass, or has ended the job. -/
theorem JobRun.step_ready (h : JobRun m s rest q) (hq : cmdReady q = true) :
    JobEnded m rest q ∨ ∃ q', step q = .next q' ∧ JobRun m s rest q' ∧ jobMeasure q' < jobMeasure q := by
  obtain ⟨hlimit, hr, ws, hport, hstage⟩ := h
  generalize hcs : q.cmdIn = cs at hport
  cases hport with
  | @word w ws cs hport =>
    have hports := hstage.ports cs q.rstIn.tail
    obtain ⟨hcmd, hrst⟩ : (commandEffect w { pastSample q with cmdIn := cs }).cmdIn = cs ∧
        (commandEffect w { pastSample q with cmdIn := cs }).rstIn = q.rstIn.tail := commandEffect_ports w _
    refine .inr ⟨_, step_command (rst_false hr) hq hcs, ⟨?_, ?_, ws, ?_, hports.command hq hlimit⟩, ?_⟩
    · rw [(keepsModelFields_commandEffect w).cfg]
      exact hlimit
    · rw [hrst]
      exact tail_false hr
    · rw [hcmd]
      exact hport
    · have hleft := microOpsLeft_le (commandEffect w { pastSample q with cmdIn := cs })
      rw [jobMeasure, jobMeasure, hcmd, hcs, List.reduceOption_cons_of_some, List.length_cons, List.length_cons]
      omega
  | @pause ws cs hport =>
    refine .inr ⟨_, step_pause (rst_false hr) hq (by simp [cmd, hcs]),
      ⟨hlimit, tail_false hr, ws, by simpa [hcs] using hport, hstage.ports _ _⟩, ?_⟩
    have hsame : microOpsLeft { pastSample q with cmdIn := q.cmdIn.tail } = microOpsLeft q := rfl
    rw [jobMeasure, jobMeasure, hsame]
    simp [hcs]
  | @taken pauses _ hrest hnone =>
    obtain ⟨hphase, hcause, hD⟩ := hstage.done hq
    exact .inl ⟨hphase, hcause, hD, pauses, by rw [hcs]; exact hrest, hnone⟩

theorem JobRun.step (h : JobRun m s rest q) (hs : cmdReady s = true) :
    JobEnded m rest q ∨ ∃ q', step q = .next q' ∧ JobRun m s rest q' ∧ jobMeasure q' < jobMeasure q := by
  cases hb : busy q with
  | true => exact .inr (h.step_busy hs hb)
  | false => exact h.step_ready (by simp [cmdReady, hb])

end

/-- Settles O58: each step of the job lowers a measure until it has ended, and a state of it in ERROR is the one that it
found. -/
theorem hardwareComputesHash : Obligations.HardwareComputesHash := by
  intro m s job rest hs hr hlimit hcmd hjob
  have hport : Presents rest (jobWords m) s.cmdIn := by
    rw [hcmd, ← hjob]
    exact presents_append job rest
  have hstart : JobRun m s rest s := ⟨hlimit, hr, _, hport, .waiting rfl rfl⟩
  obtain ⟨n, s', hrun, hend, hall⟩ := runSteps_reaches jobMeasure (fun q hq => hq.step hs) hstart
  refine ⟨n, s', hrun, hend.phase, hend.cause, hend.digest, hend.port, fun k hk => ?_⟩
  obtain ⟨q, hq, -, -, ws, -, hstage⟩ := hall k hk
  exact ⟨q, hq, hstage.same_of_error⟩

end Sys2Proof.Machine
end

section
/-! The Host's commands and the agents' steps (O7 to O12, O17 to O19, O23, O56; 45_host_commands.md R200 to R213): what
each command does in each quiescent phase, first as an effect on the state and then as an evaluation, which instruction
a step evaluates, and the rows of the phase transition table. -/

namespace Sys2Proof.Machine

/-! ## The effects of the commands, phase by phase -/

section
variable {f : State → State} {s : State}

theorem unlessError_inJob_absorb (ha : s.phase = .absorb) : unlessError (inJob f) s = f s := by
  rw [unlessError_other (by simp [ha]), inJob_absorb ha]

theorem unlessError_inJob_outside (hp : s.phase = .idle ∨ s.phase = .done) :
    unlessError (inJob f) s = raiseError .seq s := by
  have he : s.phase ≠ .error := by rcases hp with hp | hp <;> simp [hp]
  have ha : s.phase ≠ .absorb := by rcases hp with hp | hp <;> simp [hp]
  rw [unlessError_other he, inJob_other ha]

theorem writeInJob_at_limit (b : Byte) (hL : s.L = s.cfg.maxMsgBytes) : writeInJob b s = raiseError .len s := if_pos hL

theorem writeInJob_below_limit (b : Byte) (hL : s.L ≠ s.cfg.maxMsgBytes) : writeInJob b s = absorbByte b s := if_neg hL

/-- A byte that leaves the block unfilled (45_host_commands.md R204). -/
theorem absorbByte_of_ne (b : Byte) (h63 : s.blen ≠ 63) :
    absorbByte b s = { s with BLK := s.BLK.set s.blen.toNat b s.blen.isLt, L := s.L + 1, blen := s.blen + 1 } :=
  if_neg h63

/-- The byte that fills the block hands it to EXPAND (45_host_commands.md R204). -/
theorem absorbByte_of_eq (b : Byte) (h63 : s.blen = 63) :
    absorbByte b s = { s with BLK := s.BLK.set 63 b, L := s.L + 1, blen := 0, phase := .expand } := by
  have hblk : s.BLK.set s.blen.toNat b s.blen.isLt = s.BLK.set 63 b := by simp [h63]
  rw [← hblk]
  exact if_pos h63

end

/-! ## What a word does, by its OP -/

section
variable {w : CmdWord}

theorem commandEffect_nop (h : legal w = true) (hop : opField w = 0) : commandEffect w = id := by
  simp [commandEffect, h, hop]

theorem commandEffect_init (h : legal w = true) (hop : opField w = 1) : commandEffect w = startJob := by
  simp [commandEffect, h, hop]

theorem commandEffect_finish (h : legal w = true) (hop : opField w = 3) :
    commandEffect w = unlessError (inJob finishJob) := by
  simp [commandEffect, h, hop]

/-- In ERROR every word but a legal INIT is consumed with no effect (45_host_commands.md R207). -/
theorem commandEffect_of_error {s : State} (he : s.phase = .error) (hw : ¬(legal w = true ∧ opField w = 1)) :
    commandEffect w s = s := by
  obtain ⟨-, -, h⟩ | ⟨hinit, -⟩ | ⟨-, -, c, -, hne, -⟩ | ⟨-, ⟨-, -, ha, -⟩, -⟩ | ⟨-, -, ha, -⟩ := commandEffect_cases w s
  · exact h
  · exact absurd hinit hw
  · exact absurd he hne
  · simp [he] at ha
  · simp [he] at ha

end

/-! ## Evaluating the commands -/

theorem exec_nop (data : Byte) (s : State) : exec (.nop data) s = .next s := congrArg Host.Outcome.next (ite_self s)

theorem exec_init (data : Byte) {s : State} (hq : cmdReady s = true) : exec (.init data) s = .next (startJob s) :=
  acceptCommand_ready hq

/-- In ABSORB WRITE and FINISH take effect (45_host_commands.md R204, R205). -/
theorem acceptCommand_inJob_absorb {f : State → State} {s : State} (ha : s.phase = .absorb) :
    acceptCommand (unlessError (inJob f)) s = .next (f s) := by
  rw [acceptCommand_ready ((cmdReady_iff s).2 (.inr (.inl ha))), unlessError_inJob_absorb ha]

/-- In IDLE and DONE WRITE and FINISH raise SEQ (60_exceptions.md R233). -/
theorem acceptCommand_inJob_outside {f : State → State} {s : State} (hp : s.phase = .idle ∨ s.phase = .done) :
    acceptCommand (unlessError (inJob f)) s = .next (raiseError .seq s) := by
  have hq : cmdReady s = true := (cmdReady_iff s).2 (hp.imp_right fun hd => .inr (.inl hd))
  rw [acceptCommand_ready hq, unlessError_inJob_outside hp]

theorem exec_write_inJob (b : Byte) {s : State} (ha : s.phase = .absorb) :
    exec (.write b) s = .next (writeInJob b s) := acceptCommand_inJob_absorb ha

/-- The meaning that all six ILLEGAL rows share (60_exceptions.md R234). -/
theorem illegalWord_raises {s : State} (hp : s.phase = .idle ∨ s.phase = .absorb ∨ s.phase = .done) :
    illegalWord s = .next (raiseError .cmd s) := by
  have hq : cmdReady s = true := (cmdReady_iff s).2 (hp.imp_right (.imp_right .inl))
  have he : s.phase ≠ .error := by rcases hp with hp | hp | hp <;> simp [hp]
  rw [illegalWord, acceptCommand_ready hq, unlessError_other he]

/-! ## Which instruction a step evaluates -/

/-- A quiescent phase selects no micro-operation (45_host_commands.md R208). -/
theorem busy_of_selected {s : State} {i : Instr} (hi : decodeMicroOp s.phase.code s.pstage.code = .ok i) :
    busy s = true := by
  by_contra hb
  have hq : cmdReady s = true := by simpa [cmdReady] using hb
  rcases (cmdReady_iff s).1 hq with hp | hp | hp | hp <;> rw [hp] at hi <;> cases hi

/-- A busy core evaluates the micro-operation that the decoder selects (45_host_commands.md R208). -/
theorem step_selected {s : State} {i : Instr} (hr : rst s = false)
    (hi : decodeMicroOp s.phase.code s.pstage.code = .ok i) : step s = exec i (passPause (pastSample s)) := by
  have hb : busy (pastSample s) = true := busy_of_selected hi
  rw [step_agent hr, agentStep, if_pos hb, coreStep, pastSample_phase, pastSample_pstage, hi]

/-- The word presented to a busy core stays presented (45_host_commands.md R200). -/
theorem step_cmdIn_of_busy {s s' : State} (hr : rst s = false) (hb : busy s = true) (hs : step s = .next s') :
    s'.cmdIn = dropPause s.cmdIn := by
  have hready : cmdReady s ≠ true := by simp [cmdReady, hb]
  obtain ⟨hr', -⟩ | ⟨-, hq, -⟩ | ⟨-, hq, -⟩ | ⟨-, -, -, rfl⟩ := step_cases hs
  · simp [hr] at hr'
  · exact absurd hq hready
  · exact absurd hq hready
  · exact (microEffect_frame _).2.1

theorem whenSelected_refused {m : String} {sel : Bool} {x : State} (h : sel = false) :
    whenSelected m sel x = .refused (.notSelected m) := by
  simp [whenSelected, h]

/-! ## The phase transition table -/

/-- The rows of 45_host_commands.md R213 for a word that a quiescent core accepts. -/
def CommandRow (w : CmdWord) (s s' : State) : Prop :=
  (s.phase ≠ .error ∧ legal w = true ∧ opField w = 1 ∧ s'.phase = .absorb) ∨
  (s.phase = .error ∧ legal w = true ∧ opField w = 1 ∧ s'.phase = .absorb) ∨
  (s.phase ≠ .error ∧ legal w = true ∧ opField w = 0 ∧ s'.phase = s.phase) ∨
  (s.phase = .error ∧ ¬(legal w = true ∧ opField w = 1) ∧ s'.phase = .error) ∨
  (s.phase ≠ .error ∧ legal w = false ∧ s'.phase = .error ∧ s'.cause = .cmd) ∨
  ((s.phase = .idle ∨ s.phase = .done) ∧ legal w = true ∧ (opField w = 2 ∨ opField w = 3) ∧
    s'.phase = .error ∧ s'.cause = .seq) ∨
  (s.phase = .absorb ∧ legal w = true ∧ opField w = 2 ∧ s.L = s.cfg.maxMsgBytes ∧ s'.phase = .error ∧
    s'.cause = .len) ∨
  (s.phase = .absorb ∧ legal w = true ∧ opField w = 2 ∧ s.L ≠ s.cfg.maxMsgBytes ∧ s.blen ≠ 63 ∧ s'.phase = .absorb) ∨
  (s.phase = .absorb ∧ legal w = true ∧ opField w = 2 ∧ s.L ≠ s.cfg.maxMsgBytes ∧ s.blen = 63 ∧ s'.phase = .expand) ∨
  (s.phase = .absorb ∧ legal w = true ∧ opField w = 3 ∧ s'.phase = .pad)

/-- The rows of R213 for a step of the Core agent. -/
def MicroOpRow (s s' : State) : Prop :=
  (s.phase = .pad ∧ (s.pstage = .msg ∨ s.pstage = .pending) ∧ s'.phase = .expand) ∨
  (s.phase = .expand ∧ s'.phase = .round ∧ s'.t = 0) ∨
  (s.phase = .round ∧ s.t ≠ 63 ∧ s'.phase = .round ∧ s'.t = s.t + 1) ∨
  (s.phase = .round ∧ s.t = 63 ∧ s'.phase = .accum ∧ s'.t = 0) ∨
  (s.phase = .accum ∧ s.pstage = .msg ∧ s'.phase = .absorb) ∨
  (s.phase = .accum ∧ s.pstage = .pending ∧ s'.phase = .pad) ∨
  (s.phase = .accum ∧ s.pstage = .last ∧ s'.phase = .assemble) ∨
  (s.phase = .assemble ∧ s'.phase = .done)

theorem commandRow_of_error {s : State} (he : s.phase = .error) (w : CmdWord) : CommandRow w s (commandEffect w s) := by
  by_cases hinit : legal w = true ∧ opField w = 1
  · simp [CommandRow, commandEffect_init hinit.1 hinit.2, he, hinit]
  · rw [commandEffect_of_error he hinit]
    exact .inr (.inr (.inr (.inl ⟨he, hinit, he⟩)))

theorem commandRow_write {w : CmdWord} {s : State} (ha : s.phase = .absorb) (hl : legal w = true) (hop : opField w = 2) :
    CommandRow w s (commandEffect w s) := by
  rw [commandEffect_write hl hop, unlessError_inJob_absorb ha]
  by_cases hL : s.L = s.cfg.maxMsgBytes
  · rw [writeInJob_at_limit _ hL]
    simp [CommandRow, ha, hl, hop, hL]
  · rw [writeInJob_below_limit _ hL]
    by_cases h63 : s.blen = 63#6 <;> simp [CommandRow, ha, hl, hop, hL, h63]

theorem commandRow_outside {w : CmdWord} {s : State} (hp : s.phase = .idle ∨ s.phase = .done) (hl : legal w = true)
    (hop : opField w = 2 ∨ opField w = 3) : CommandRow w s (commandEffect w s) := by
  have hseq : commandEffect w s = raiseError .seq s := by
    rcases hop with hop | hop
    · rw [commandEffect_write hl hop, unlessError_inJob_outside hp]
    · rw [commandEffect_finish hl hop, unlessError_inJob_outside hp]
  rw [hseq]
  exact .inr (.inr (.inr (.inr (.inr (.inl ⟨hp, hl, hop, rfl, rfl⟩)))))

theorem commandRow_commandEffect {s : State} (hq : cmdReady s = true) (w : CmdWord) :
    CommandRow w s (commandEffect w s) := by
  by_cases he : s.phase = .error
  · exact commandRow_of_error he w
  cases hl : legal w with
  | false =>
    rw [commandEffect_of_illegal hl, unlessError_other he]
    exact .inr (.inr (.inr (.inr (.inl ⟨he, hl, rfl, rfl⟩))))
  | true =>
    have hphase : s.phase = .absorb ∨ s.phase = .idle ∨ s.phase = .done := by
      rcases (cmdReady_iff s).1 hq with hp | hp | hp | hp <;> simp [hp] at he ⊢
    obtain hop | hop | hop | hop := opField_cases_of_legal hl
    · rw [commandEffect_nop hl hop]
      exact .inr (.inr (.inl ⟨he, hl, hop, rfl⟩))
    · rw [commandEffect_init hl hop]
      exact .inl ⟨he, hl, hop, rfl⟩
    · rcases hphase with ha | hp
      · exact commandRow_write ha hl hop
      · exact commandRow_outside hp hl (.inl hop)
    · rcases hphase with ha | hp
      · rw [commandEffect_finish hl hop, unlessError_inJob_absorb ha]
        simp [CommandRow, ha, hl, hop]
      · exact commandRow_outside hp hl (.inr hop)

theorem microOpRow_microEffect {s : State} (hb : busy s = true) (hp : ¬(s.phase = .pad ∧ s.pstage = .last)) :
    MicroOpRow s (microEffect s) := by
  obtain ⟨hp, hst, he⟩ | ⟨hp, hst, he⟩ | ⟨hp, he⟩ | ⟨hp, he⟩ | ⟨hp, he⟩ | ⟨hp, he⟩ := microEffect_cases hb hp <;> rw [he]
  · simp [MicroOpRow, hp, hst]
  · simp [MicroOpRow, hp, hst]
  · simp [MicroOpRow, hp]
  · by_cases h63 : s.t = 63#6 <;> simp [MicroOpRow, hp, h63]
  · cases hst : s.pstage <;> simp [MicroOpRow, hp, hst, afterAccum]
  · simp [MicroOpRow, hp]

/-! ## The obligations -/

/-- Settles O23: what `step_cases` says that a step has done, as a reset, a pause, or a row for a word or a
micro-operation. The rows do not mention the ports. -/
theorem phaseTransitionTable : Obligations.PhaseTransitionTable := by
  intro s s' h
  obtain ⟨hr, rfl⟩ | ⟨hr, hq, hc, rfl⟩ | ⟨hr, hq, w, rest, hc, -, rfl⟩ | ⟨hr, hb, hp, rfl⟩ := step_cases h
  · exact .inl ⟨hr, rfl⟩
  · exact .inr (.inl ⟨hr, hq, hc, rfl⟩)
  · exact .inr (.inr (.inl ⟨hr, hq, w, hc, commandRow_commandEffect (s := { pastSample s with cmdIn := rest }) hq w⟩))
  · exact .inr (.inr (.inr ⟨hr, microOpRow_microEffect (s := passPause (pastSample s)) hb hp⟩))

/-- Settles O7: NOP's effect is the identity, accepted or not. -/
theorem nopChangesNothing : Obligations.NopChangesNothing := exec_nop

/-- Settles O8: INIT is `startJob` where it is accepted. -/
theorem initStartsAJob : Obligations.InitStartsAJob := fun data s hp => exec_init data ((cmdReady_iff s).2 hp)

/-- Settles O9: SEQ outside a job, and in it the limit, then the fill of the block. -/
theorem writeAbsorbsOneByte : Obligations.WriteAbsorbsOneByte := by
  intro b s
  refine ⟨acceptCommand_inJob_outside, fun ha hL => ?_, fun ha hL h63 => ?_, fun ha hL h63 => ?_⟩
  · rw [exec_write_inJob b ha, writeInJob_at_limit b hL]
    rfl
  · rw [exec_write_inJob b ha, writeInJob_below_limit b hL, absorbByte_of_ne b h63]
  · rw [exec_write_inJob b ha, writeInJob_below_limit b hL, absorbByte_of_eq b h63]

/-- Settles O10: FINISH takes effect inside a job alone. -/
theorem finishStartsPadding : Obligations.FinishStartsPadding := fun _ _ =>
  ⟨acceptCommand_inJob_absorb, acceptCommand_inJob_outside⟩

/-- Settles O11: the six rows have one meaning. -/
theorem illegalWordsRaiseCmd : Obligations.IllegalWordsRaiseCmd := fun _ hp =>
  have h := illegalWord_raises hp
  ⟨fun _ _ _ => h, fun _ _ _ => h, fun _ _ _ => h, fun _ _ _ => h, fun _ _ _ => h, fun _ _ => h⟩

/-- Settles O12: ERROR accepts every word, and a word other than a legal INIT has no effect there. -/
theorem errorIgnoresAllButInit : Obligations.ErrorIgnoresAllButInit := by
  intro w s he
  have hexec : exec (decodeCommand w) s = .next (commandEffect w s) := by
    rw [exec_decodeCommand, acceptCommand_ready ((cmdReady_iff s).2 (.inr (.inr (.inr he))))]
  rw [hexec]
  refine ⟨fun ⟨hl, hop⟩ => ?_, fun hw => ?_⟩
  · rw [commandEffect_init hl hop]
    rfl
  · rw [commandEffect_of_error he hw]

/-- Settles O17: a quiescent core performs the word's effect, a busy one drops at most a pause. -/
theorem stepRunsThePresentedCommand : Obligations.StepRunsThePresentedCommand := by
  intro s w rest hr hc
  refine ⟨fun hq => ?_, fun hq s' hs => ?_⟩
  · rw [step_command hr hq hc, exec_decodeCommand]
    exact (acceptCommand_ready (f := commandEffect w) (s := { pastSample s with cmdIn := rest }) hq).symm
  · rw [step_cmdIn_of_busy hr (by simpa [cmdReady] using hq) hs, hc, dropPause_some]

/-- Settles O18: what the decoder selects in each busy phase. -/
theorem stepRunsTheSelectedMicroOp : Obligations.StepRunsTheSelectedMicroOp := by
  intro s hr s₀
  refine ⟨fun hp hst => step_selected hr ?_, fun hp hst => step_selected hr ?_, fun hp => step_selected hr ?_,
    fun hp => step_selected hr ?_, fun hp => step_selected hr ?_, fun hp => step_selected hr ?_⟩
  · rw [hp, hst]; rfl
  · rw [hp, hst]; rfl
  all_goals rw [hp]; rfl

/-- Settles O19: a busy core is not ready for a command, and each micro-operation is guarded by its selection. -/
theorem outsideItsTurnNothingRuns : Obligations.OutsideItsTurnNothingRuns := by
  refine ⟨fun w s hb => ?_, fun s => ⟨?_, ?_, ?_, ?_, ?_, ?_⟩⟩
  · rw [exec_decodeCommand, acceptCommand_busy (by simp [cmdReady, hb])]
  all_goals exact fun h => whenSelected_refused (decide_eq_false h)

/-- Settles O56: what INIT answers is the state of the job that has just begun. -/
theorem initOpensTheEmptyJob : Obligations.InitOpensTheEmptyJob := by
  intro data s s' hq h
  rw [exec_init data hq] at h
  cases h
  exact inJob_startJob s

end Sys2Proof.Machine
end

section
/-! Errors (O14, O15, O16, O20; 60_exceptions.md R230 to R246): everything that one instruction can do, which of it
enters ERROR, and what a step can do in ERROR and in a pause. -/

namespace Sys2Proof.Machine

/-! ## Everything that evaluating an instruction can do -/

/-- An instruction whose code is a command word does what that word does. -/
theorem exec_eq_of_encode_command {i : Instr} {w : CmdWord} (hi : encode i = some (.command w)) (s : State) :
    exec i s = acceptCommand (commandEffect w) s := by
  have hdec : decodeCommand w = i := Except.ok.inj (decode_of_encode i _ hi)
  rw [← hdec, exec_decodeCommand]

/-- What an instruction that answers a next state has done: a command that a busy core does not take, a command's
effect, the selected micro-operation, or a function's value. -/
def InstrEffect (s s' : State) : Prop :=
  (cmdReady s = false ∧ s' = s) ∨
  (cmdReady s = true ∧ ∃ w, s' = commandEffect w s) ∨
  (busy s = true ∧ ¬(s.phase = .pad ∧ s.pstage = .last) ∧ s' = microEffect s) ∨
  (∃ v, s' = { s with funcOut := v })

section
variable {i : Instr} {s s' : State}

theorem instrEffect_of_command {w : CmdWord} (hi : encode i = some (.command w)) (h : exec i s = .next s') :
    InstrEffect s s' := by
  rw [exec_eq_of_encode_command hi] at h
  obtain ⟨hq, hs⟩ | hbusy := acceptCommand_next h
  · exact .inr (.inl ⟨hq, w, hs⟩)
  · exact .inl hbusy

/-- A micro-operation that answers a next state was selected (30_encoding.md R84). -/
theorem instrEffect_of_microOp {m : String} {sel : Prop} [Decidable sel] {x : State}
    (h : whenSelected m (decide sel) x = .next s')
    (hsel : sel → busy s = true ∧ ¬(s.phase = .pad ∧ s.pstage = .last) ∧ microEffect s = x) : InstrEffect s s' := by
  obtain ⟨hdec, rfl⟩ := whenSelected_next.1 h
  obtain ⟨hb, hp, heq⟩ := hsel (of_decide_eq_true hdec)
  exact .inr (.inr (.inl ⟨hb, hp, heq.symm⟩))

theorem instrEffect_of_function {v : FuncValue} (h : yieldValue v s = .next s') : InstrEffect s s' :=
  .inr (.inr (.inr ⟨v, yieldValue_next.1 h⟩))

theorem exec_cases (h : exec i s = .next s') : InstrEffect s s' := by
  cases i with
  | nop | init | write | finish | illegalOp4to7 | illegalOp8to15 | illegalRsv8 | illegalRsv9 | illegalRsv10
  | illegalRsv11 => exact instrEffect_of_command rfl h
  | padMsg =>
    exact instrEffect_of_microOp h fun ⟨hp, hst⟩ =>
      ⟨(busy_iff s).2 (.inl hp), by simp [hst], microEffect_padMsg hp hst⟩
  | padPending =>
    exact instrEffect_of_microOp h fun ⟨hp, hst⟩ =>
      ⟨(busy_iff s).2 (.inl hp), by simp [hst], microEffect_padPending hp hst⟩
  | expand =>
    exact instrEffect_of_microOp h fun hp => ⟨(busy_iff s).2 (by simp [hp]), by simp [hp], microEffect_expand hp⟩
  | round =>
    exact instrEffect_of_microOp h fun hp => ⟨(busy_iff s).2 (by simp [hp]), by simp [hp], microEffect_round hp⟩
  | accum =>
    exact instrEffect_of_microOp h fun hp => ⟨(busy_iff s).2 (by simp [hp]), by simp [hp], microEffect_accum hp⟩
  | assemble =>
    exact instrEffect_of_microOp h fun hp => ⟨(busy_iff s).2 (by simp [hp]), by simp [hp], microEffect_assemble hp⟩
  | fnPad m =>
    rcases Nat.lt_or_ge m.length (2 ^ 61) with hm | hm
    · exact instrEffect_of_function ((exec_fnPad hm s).symm.trans h)
    · rw [exec_fnPad_overlong hm] at h
      cases h
  | fnRotr | fnShr | fnAdd32 | fnSsig0 | fnSsig1 | fnBsig0 | fnBsig1 | fnCh | fnMaj | fnSplit | fnExpand | fnCompress
  | fnAccumulate | fnAssemble => exact instrEffect_of_function h

end

/-! ## Error entry -/

/-- No micro-operation raises an error (60_exceptions.md R230): no row of R213 for a micro-operation leads to ERROR. -/
theorem microEffect_phase_ne_error {s : State} (hb : busy s = true) (hp : ¬(s.phase = .pad ∧ s.pstage = .last)) :
    (microEffect s).phase ≠ .error := by
  intro he
  have hrow := microOpRow_microEffect hb hp
  simp [MicroOpRow, he] at hrow

/-- A word that takes the core to ERROR does so by `raiseError`. -/
theorem commandEffect_enters_error {w : CmdWord} {s : State} (hne : s.phase ≠ .error)
    (he : (commandEffect w s).phase = .error) : ∃ c, c ≠ .none ∧ commandEffect w s = raiseError c s := by
  obtain ⟨-, -, h⟩ | ⟨-, h⟩ | ⟨-, -, c, hc, -, h⟩ | ⟨-, ⟨-, -, ha, -⟩, h⟩ | ⟨-, -, -, h⟩ := commandEffect_cases w s
  · exact absurd (h ▸ he) hne
  · simp [h] at he
  · exact ⟨c, hc, h⟩
  · by_cases h63 : s.blen = 63#6 <;> simp [h, ha, h63] at he
  · simp [h] at he

/-- An instruction enters ERROR only as a command that a quiescent core takes. -/
theorem exec_enters_error {i : Instr} {s s' : State} (hne : s.phase ≠ .error) (h : exec i s = .next s')
    (he : s'.phase = .error) : cmdReady s = true ∧ ∃ c, c ≠ .none ∧ s' = raiseError c s := by
  obtain ⟨-, rfl⟩ | ⟨hq, w, rfl⟩ | ⟨hb, hp, rfl⟩ | ⟨v, rfl⟩ := exec_cases h
  · exact absurd he hne
  · exact ⟨hq, commandEffect_enters_error hne he⟩
  · exact absurd he (microEffect_phase_ne_error hb hp)
  · exact absurd he hne

/-- CAUSE stands in status[9:8] (10_state.md R39). -/
theorem status_cause (s : State) : (status s).extractLsb' 8 2 = s.cause.code := by
  obtain ⟨-, -, -, -, -, hcause, -⟩ := statusLayout s.cause.code (err s) (dvalid s) (busy s) s.phase.code
  exact hcause

/-! ## The checks of R236 -/

section
variable {w : CmdWord} {s : State}

theorem commandEffect_seq (hl : legal w = true) (hop : opField w = 2 ∨ opField w = 3) (he : s.phase ≠ .error)
    (ha : s.phase ≠ .absorb) : commandEffect w s = raiseError .seq s := by
  rcases hop with hop | hop
  · rw [commandEffect_write hl hop, unlessError_other he, inJob_other ha]
  · rw [commandEffect_finish hl hop, unlessError_other he, inJob_other ha]

theorem commandEffect_len (hl : legal w = true) (hop : opField w = 2) (ha : s.phase = .absorb)
    (hL : s.L = s.cfg.maxMsgBytes) : commandEffect w s = raiseError .len s := by
  rw [commandEffect_write hl hop, unlessError_inJob_absorb ha, writeInJob_at_limit _ hL]

theorem commandEffect_absorbs (hl : legal w = true) (hop : opField w = 2) (ha : s.phase = .absorb)
    (hL : s.L ≠ s.cfg.maxMsgBytes) : commandEffect w s = absorbByte (dataField w) s := by
  rw [commandEffect_write hl hop, unlessError_inJob_absorb ha, writeInJob_below_limit _ hL]

theorem commandEffect_finishes (hl : legal w = true) (hop : opField w = 3) (ha : s.phase = .absorb) :
    commandEffect w s = finishJob s := by
  rw [commandEffect_finish hl hop, unlessError_inJob_absorb ha]

end

/-! ## The obligations -/

/-- Settles O14: ERROR is entered by `raiseError` on a quiescent core alone, and its outputs are those of the new phase
and cause. -/
theorem errorEntryIsPrecise : Obligations.ErrorEntryIsPrecise := by
  intro i s s' hne h he
  obtain ⟨hq, c, hc, rfl⟩ := exec_enters_error hne h he
  exact ⟨by simpa [cmdReady] using hq, hc, rfl, rfl, rfl, rfl, status_cause _⟩

/-- Settles O15: the effect of the accepted word in each case of R236. -/
theorem errorChecksInOrder : Obligations.ErrorChecksInOrder := by
  intro w s s' hq h
  rw [exec_decodeCommand, acceptCommand_ready hq] at h
  cases h
  refine ⟨fun he he' => ?_, fun he hl => ?_, fun he hl hop ha => ?_, fun ha hl hop hL => ?_, fun he hl hop => ?_,
    fun ha hl hop hL => ?_, fun ha hl hop => ?_⟩
  · refine commandEffect_of_error he fun ⟨hl, hop⟩ => ?_
    simp [commandEffect_init hl hop] at he'
  · rw [commandEffect_of_illegal hl, unlessError_other he]
    exact ⟨rfl, rfl⟩
  · rw [commandEffect_seq hl hop he ha]
    exact ⟨rfl, rfl⟩
  · rw [commandEffect_len hl hop ha hL]
    exact ⟨rfl, rfl⟩
  · rcases hop with hop | hop
    · rwa [commandEffect_nop hl hop]
    · simp [commandEffect_init hl hop]
  · rw [commandEffect_absorbs hl hop ha hL]
    by_cases h63 : s.blen = 63#6 <;> simp [ha, h63]
  · simp [commandEffect_finishes hl hop ha]

/-- Settles O16: of what a step can do in ERROR, only the reset and `startJob` change the phase, and the rest changes
the ports alone. -/
theorem onlyInitOrResetLeavesError : Obligations.OnlyInitOrResetLeavesError := by
  intro s s' he hs
  obtain ⟨hr, rfl⟩ | ⟨-, -, -, rfl⟩ | ⟨hr, -, w, rest, hc, -, rfl⟩ | ⟨-, hb, -, -⟩ := step_cases hs
  · exact ⟨fun h => by simp at h, fun _ => .inl ⟨hr, rfl, rfl⟩⟩
  · exact ⟨fun _ => rfl, fun h => absurd he h⟩
  · by_cases hinit : legal w = true ∧ opField w = 1
    · obtain ⟨hl, hop⟩ := hinit
      rw [commandEffect_init hl hop]
      exact ⟨fun h => by simp at h, fun _ => .inr ⟨hr, w, hc, hl, hop, rfl, rfl, rfl, rfl, rfl, rfl, rfl⟩⟩
    · rw [commandEffect_of_error (s := { pastSample s with cmdIn := rest }) he hinit]
      exact ⟨fun _ => rfl, fun h => absurd he h⟩
  · simp [busy, he, Phase.isBusy] at hb

/-- Settles O20: the pause step moves the ports alone. -/
theorem quiescentCoreKeepsItsState : Obligations.QuiescentCoreKeepsItsState := fun _ hq hr hc => step_pause hr hq hc

end Sys2Proof.Machine
end

section
/-! Resets and the lengths of busy periods and of jobs (O21, O22, O55, O59; 70_reset_and_hazards.md R260 to R271): every
step of a busy period and of a job without pauses lowers the number of steps left by one. -/

namespace Sys2Proof.Machine

/-! ## Runs that count down -/

/-- When every step leads from the stage `n + 1` to the stage `n`, then `k` steps lead from the stage `n` to `n - k`. -/
theorem runSteps_countdown {P : Nat → State → Prop}
    (hstep : ∀ n q, P (n + 1) q → ∃ q', step q = .next q' ∧ P n q') {n k : Nat} {s : State} (hs : P n s) (hk : k ≤ n) :
    ∃ q, runSteps k s = .next q ∧ P (n - k) q := by
  induction k with
  | zero => exact ⟨s, rfl, hs⟩
  | succ k ih =>
    obtain ⟨q, hrun, hq⟩ := ih (by omega)
    obtain ⟨q', hnext, hq'⟩ := hstep (n - (k + 1)) q (by rwa [Nat.sub_succ', Nat.sub_add_cancel (by omega)])
    exact ⟨q', runSteps_snoc hrun hnext, hq'⟩

/-! ## The micro-operations left, phase by phase -/

theorem microOpsLeft_of_cmdReady {q : State} (hq : cmdReady q = true) : microOpsLeft q = 0 := by
  obtain hp | hp | hp | hp := (cmdReady_iff q).1 hq <;> simp only [microOpsLeft, hp]

theorem busy_of_microOpsLeft {n : Nat} {q : State} (h : microOpsLeft q = n + 1) : busy q = true := by
  by_contra hb
  have hzero := microOpsLeft_of_cmdReady (q := q) (by simpa [cmdReady] using hb)
  omega

theorem cmdReady_of_microOpsLeft {q : State} (hp : ¬(q.phase = .pad ∧ q.pstage = .last)) (h : microOpsLeft q = 0) :
    cmdReady q = true := by
  by_contra hq
  have hleft := microOpsLeft_microEffect (s := q) (by simpa [cmdReady] using hq) hp
  omega

/-- The step of a busy core is one of the micro-operations left. -/
theorem microOpsLeft_step {q : State} (hb : busy q = true) (hp : ¬(q.phase = .pad ∧ q.pstage = .last)) :
    microOpsLeft (microEffect (passPause (pastSample q))) + 1 = microOpsLeft q :=
  microOpsLeft_microEffect (s := passPause (pastSample q)) hb hp

theorem noReset_step {q : State} (hr : ∀ x ∈ q.rstIn, x = false) :
    ∀ x ∈ (microEffect (passPause (pastSample q))).rstIn, x = false := by
  obtain ⟨-, -, hrst⟩ := microEffect_frame (passPause (pastSample q))
  rw [hrst]
  exact tail_false hr

/-! ## A busy period -/

/-- `q` stands in a busy period with `n` micro-operations left, or, with none left, at its end. -/
structure BusyPeriod (n : Nat) (q : State) : Prop where
  inv : Inv q
  noReset : ∀ x ∈ q.rstIn, x = false
  phase : Absorbing q ∨ Closing q
  left : microOpsLeft q = n

theorem absorbing_or_closing_of_busy {q : State} (hb : busy q = true) : Absorbing q ∨ Closing q := by
  have hblock (hin : inBlock q.phase) : Absorbing q ∨ Closing q :=
    if hst : q.pstage = .msg then .inl (.inr ⟨hin, hst⟩) else .inr (.inr (.inl ⟨hin, hst⟩))
  obtain hp | hp | hp | hp | hp := (busy_iff q).1 hb
  · exact .inr (.inl hp)
  · exact hblock (.inl hp)
  · exact hblock (.inr (.inl hp))
  · exact hblock (.inr (.inr hp))
  · exact .inr (.inr (.inr (.inl hp)))

theorem BusyPeriod.step {n : Nat} {q : State} (h : BusyPeriod (n + 1) q) :
    ∃ q', step q = .next q' ∧ BusyPeriod n q' := by
  obtain ⟨hinv, hr, hphase, hleft⟩ := h
  have hb := busy_of_microOpsLeft hleft
  have hp := hinv.not_padAfterLast
  have hstep := step_micro (rst_false hr) hb hp
  have hnext := microOpsLeft_step hb hp
  refine ⟨_, hstep, inv_step hinv hstep, noReset_step hr, ?_, by omega⟩
  exact hphase.imp (fun ha => absorbing_microEffect (q := passPause (pastSample q)) ha hb)
    (fun hc => closing_microEffect (q := passPause (pastSample q)) hc hb hp)

/-- At its end the core waits for the next word of the job, or the job is done. -/
theorem BusyPeriod.ended {q : State} (h : BusyPeriod 0 q) : q.phase = .absorb ∨ q.phase = .done := by
  have hq := cmdReady_of_microOpsLeft h.inv.not_padAfterLast h.left
  exact h.phase.imp (fun ha => absorb_of_absorbing ha hq) (fun hc => done_of_closing hc hq)

/-! ## The steps of a job that are not in the present busy period -/

/-- The micro-operations that follow FINISH: PAD, a block and ASSEMBLE, with a second PAD and block where the length
field does not fit into the first (40_padder.md R109). -/
def closingMicroOps (n : Nat) : Nat := if n % 64 ≤ 55 then 68 else 135

theorem closingMicroOps_mod (n : Nat) : closingMicroOps (n % 64) = closingMicroOps n := by
  rw [closingMicroOps, Nat.mod_mod, closingMicroOps]

/-- The steps that a job of `n` bytes takes after the present busy period while `k` of its words are not yet taken: one
for each word, 66 for each block that the bytes in them fill, and the micro-operations after FINISH. The last of the
words is FINISH, so `n - (k - 1)` bytes have been absorbed, and none while INIT is not taken. -/
def stepsForWords (n : Nat) : Nat → Nat
  | 0 => 0
  | k + 1 => k + 1 + 66 * (n / 64 - (n - k) / 64) + closingMicroOps n

/-- R270's count: `n + 2` words, 66 micro-operations for each of the N blocks, P times PAD, and ASSEMBLE. -/
theorem stepsForWords_job (n : Nat) :
    stepsForWords n (n + 2) = n + 2 + (66 * ((n + 8) / 64 + 1) + (if n % 64 ≤ 55 then 1 else 2) + 1) := by
  have hnone : n - (n + 1) = 0 := by omega
  rw [stepsForWords, closingMicroOps, hnone]
  split <;> omega

/-- FINISH costs its own step and is followed by the closing micro-operations. -/
theorem stepsForWords_one (n : Nat) : stepsForWords n 1 = closingMicroOps n + 1 := by
  simp +arith [stepsForWords]

/-- INIT costs its own step and starts no micro-operation. -/
theorem stepsForWords_init (n : Nat) : stepsForWords n (n + 2) = stepsForWords n (n + 1) + 1 := by
  simp +arith [stepsForWords]

/-- A WRITE costs its own step, and the 66 of a block if its byte is the block's last. -/
theorem stepsForWords_write {i k n : Nat} (hn : n = i + (k + 1)) :
    stepsForWords n (k + 2) = stepsForWords n (k + 1) + (if i % 64 = 63 then 66 else 0) + 1 := by
  have hbefore : n - (k + 1) = i := by omega
  have hafter : n - k = i + 1 := by omega
  rw [stepsForWords, stepsForWords, hbefore, hafter]
  split <;> omega

theorem wordsAfterInit_cons (b : Byte) (m : List Byte) :
    wordsAfterInit (b :: m) = lineWord (.write b) :: wordsAfterInit m := rfl

theorem length_wordsAfterInit (m : List Byte) : (wordsAfterInit m).length = m.length + 1 := by simp [wordsAfterInit]

theorem length_jobWords (m : List Byte) : (jobWords m).length = m.length + 2 := by
  rw [jobWords_eq, List.length_cons, length_wordsAfterInit]

/-! ## The micro-operations that a word starts -/

theorem microOpsLeft_startJob (q : State) : microOpsLeft (startJob q) = 0 := rfl

theorem microOpsLeft_finishJob {q : State} (hst : q.pstage = .msg) :
    microOpsLeft (finishJob q) = closingMicroOps q.blen.toNat := by
  have hmod : q.blen.toNat % 64 = q.blen.toNat := Nat.mod_eq_of_lt q.blen.isLt
  by_cases hfits : q.blen.toNat ≤ 55 <;> simp [microOpsLeft, hst, closingMicroOps, hmod, hfits]

theorem microOpsLeft_absorbByte (b : Byte) {q : State} (ha : q.phase = .absorb) (hst : q.pstage = .msg) :
    microOpsLeft (absorbByte b q) = if q.blen.toNat = 63 then 66 else 0 := by
  have h63 : q.blen.toNat = 63 ↔ q.blen = 63#6 := (BitVec.toNat_inj (y := 63#6))
  by_cases h : q.blen = 63#6 <;> simp [microOpsLeft, ha, hst, h63, h, microOpsAfterBlock]

/-- A word of the job costs its own step and the micro-operations that it starts. -/
theorem JobStage.stepsForWords_command {m : List Byte} {s q : State} {w : CmdWord} {ws : List CmdWord}
    (h : JobStage m s (w :: ws) q) (hq : cmdReady q = true) (hlimit : m.length ≤ q.cfg.maxMsgBytes.toNat) :
    stepsForWords m.length ws.length + microOpsLeft (commandEffect w q) + 1 =
      stepsForWords m.length (ws.length + 1) := by
  cases h with
  | waiting hws _ =>
    obtain ⟨rfl, rfl⟩ := List.cons.inj (hws.trans (jobWords_eq m))
    rw [commandEffect_init_line, microOpsLeft_startJob, length_wordsAfterInit, stepsForWords_init]
  | @absorbing before left hws hm hj _ hp =>
    have ha := absorb_of_absorbing hp hq
    have hst := hj.absorb_stage ha
    cases left with
    | nil =>
      obtain ⟨rfl, rfl⟩ := List.cons.inj hws
      obtain rfl : before = m := by rw [← hm, List.append_nil]
      rw [commandEffect_finish_line ha, microOpsLeft_finishJob hst, hj.fill, closingMicroOps_mod, List.length_nil,
        Nat.zero_add, stepsForWords_one, stepsForWords, Nat.zero_add]
    | cons b left =>
      obtain ⟨rfl, rfl⟩ := List.cons.inj (hws.trans (wordsAfterInit_cons b left))
      have hlen : m.length = before.length + (left.length + 1) := by rw [← hm, List.length_append, List.length_cons]
      rw [commandEffect_write_line b ha (limit_not_reached hj (hm ▸ hlimit)), microOpsLeft_absorbByte b ha hst, hj.fill,
        length_wordsAfterInit, stepsForWords_write hlen]
  | closing hws => cases hws

/-! ## A job without pauses -/

theorem dropPause_present (ws : List CmdWord) (rest : List (Option CmdWord)) :
    ∃ rest', dropPause (present ws ++ rest) = present ws ++ rest' := by
  cases ws with
  | nil => exact ⟨dropPause rest, rfl⟩
  | cons w ws => exact ⟨rest, rfl⟩

/-- The job for `m`, found by the core `s`, has `n` steps left in `q`, and no pause among its words. -/
structure CountedJob (m : List Byte) (s : State) (n : Nat) (q : State) : Prop where
  limit : m.length ≤ q.cfg.maxMsgBytes.toNat
  noReset : ∀ x ∈ q.rstIn, x = false
  port : ∃ ws rest, q.cmdIn = present ws ++ rest ∧ JobStage m s ws q ∧
    stepsForWords m.length ws.length + microOpsLeft q = n

section
variable {m : List Byte} {s q : State} {n : Nat}

theorem CountedJob.step_busy (h : CountedJob m s (n + 1) q) (hs : cmdReady s = true) (hb : busy q = true) :
    ∃ q', step q = .next q' ∧ CountedJob m s n q' := by
  obtain ⟨hlimit, hr, ws, rest, hcmd, hstage, hn⟩ := h
  have hp := hstage.not_padAfterLast hs
  have hleft := microOpsLeft_step hb hp
  obtain ⟨rest', hdrop⟩ := dropPause_present ws rest
  obtain ⟨-, hcmd', -⟩ := microEffect_frame (passPause (pastSample q))
  refine ⟨_, step_micro (rst_false hr) hb hp, ?_, noReset_step hr, ws, rest', ?_, (hstage.ports _ _).micro hs hb,
    by omega⟩
  · rw [keepsModelFields_microEffect.cfg]
    exact hlimit
  · rw [hcmd', ← hdrop, ← hcmd]
    rfl

theorem CountedJob.step_ready (h : CountedJob m s (n + 1) q) (hq : cmdReady q = true) :
    ∃ q', step q = .next q' ∧ CountedJob m s n q' := by
  obtain ⟨hlimit, hr, ws, rest, hcmd, hstage, hn⟩ := h
  rw [microOpsLeft_of_cmdReady hq] at hn
  cases ws with
  | nil => cases hn
  | cons w ws =>
    have hword : q.cmdIn = some w :: (present ws ++ rest) := hcmd
    have hports := hstage.ports (present ws ++ rest) q.rstIn.tail
    have hcost := hports.stepsForWords_command hq hlimit
    obtain ⟨hcmd', hrst⟩ := commandEffect_ports w { pastSample q with cmdIn := present ws ++ rest }
    refine ⟨_, step_command (rst_false hr) hq hword, ?_, ?_, ws, rest, hcmd', hports.command hq hlimit, ?_⟩
    · rw [(keepsModelFields_commandEffect w).cfg]
      exact hlimit
    · rw [hrst]
      exact tail_false hr
    · rw [List.length_cons] at hn
      exact Nat.succ_injective (hcost.trans hn)

theorem CountedJob.step (h : CountedJob m s (n + 1) q) (hs : cmdReady s = true) :
    ∃ q', step q = .next q' ∧ CountedJob m s n q' := by
  cases hb : busy q with
  | true => exact h.step_busy hs hb
  | false => exact h.step_ready (by simp [cmdReady, hb])

/-- With no step left, every word has been taken and the core is quiescent. -/
theorem CountedJob.done (h : CountedJob m s 0 q) (hs : cmdReady s = true) : q.phase = .done ∧ q.D = hash m := by
  obtain ⟨-, -, ws, -, -, hstage, hn⟩ := h
  have hq := cmdReady_of_microOpsLeft (hstage.not_padAfterLast hs) (by omega)
  cases ws with
  | nil =>
    obtain ⟨hphase, -, hD⟩ := hstage.done hq
    exact ⟨hphase, hD⟩
  | cons w ws =>
    rw [List.length_cons, stepsForWords] at hn
    omega

/-- Between its first and its last step the job is not done: only the core that it found may have been. -/
theorem CountedJob.phase_ne_done (h : CountedJob m s n q) (hn : n ≠ 0)
    (hlt : n < stepsForWords m.length (m.length + 2)) :
    q.phase ≠ .done := by
  intro hd
  have hq : cmdReady q = true := (cmdReady_iff q).2 (.inr (.inr (.inl hd)))
  obtain ⟨-, -, ws, -, -, hstage, hcount⟩ := h
  rw [microOpsLeft_of_cmdReady hq] at hcount
  cases hstage with
  | waiting hws _ =>
    rw [hws, length_jobWords] at hcount
    omega
  | absorbing _ _ _ _ hp => simp [absorb_of_absorbing hp hq] at hd
  | closing hws _ _ _ =>
    rw [hws] at hcount
    exact hn hcount.symm

end

/-! ## The obligations -/

/-- Settles O59: the count at the start is R270's, each step lowers it by one, and it is zero exactly in DONE. -/
theorem jobTakesCountedSteps : Obligations.JobTakesCountedSteps := by
  intro m s rest hs hr hlimit hcmd
  rw [← stepsForWords_job]
  have hstart : CountedJob m s (stepsForWords m.length (m.length + 2)) s :=
    ⟨hlimit, hr, jobWords m, rest, hcmd, .waiting rfl rfl,
      by rw [length_jobWords, microOpsLeft_of_cmdReady hs, Nat.add_zero]⟩
  have hstep (n : Nat) (q : State) (h : CountedJob m s (n + 1) q) := h.step hs
  obtain ⟨s', hs', hend⟩ := runSteps_countdown hstep hstart le_rfl
  rw [Nat.sub_self] at hend
  obtain ⟨hphase, hD⟩ := hend.done hs
  refine ⟨s', hs', hphase, hD, fun k hk => ?_⟩
  obtain ⟨q, hq, hjob⟩ := runSteps_countdown hstep hstart hk.le
  exact ⟨q, hq, fun hpos => hjob.phase_ne_done (by omega) (by omega)⟩

/-- Settles O55: the number of micro-operations left is at most 135, each step lowers it by one, and the core is busy
while it is not zero. -/
theorem busyPeriodEnds : Obligations.BusyPeriodEnds := by
  intro s hinv hb hr
  have hstart : BusyPeriod (microOpsLeft s) s := ⟨hinv, hr, absorbing_or_closing_of_busy hb, rfl⟩
  have hstep (n : Nat) (q : State) (h : BusyPeriod (n + 1) q) := h.step
  obtain ⟨s', hs', hend⟩ := runSteps_countdown hstep hstart le_rfl
  rw [Nat.sub_self] at hend
  refine ⟨microOpsLeft s, s', microOpsLeft_le s, hs', hend.ended, fun k hk => ?_⟩
  obtain ⟨q, hq, hperiod⟩ := runSteps_countdown hstep hstart hk.le
  exact ⟨q, hq, busy_of_microOpsLeft (n := microOpsLeft s - k - 1) (by rw [hperiod.left]; omega)⟩

/-- Settles O21: the step of an asserted sample is the reset event, after which the port has lost no word. -/
theorem resetEventClearsEveryRegister : Obligations.ResetEventClearsEveryRegister := by
  intro s hr
  refine ⟨_, step_reset hr, rfl, rfl, rfl, rfl, rfl, rfl, rfl, rfl, rfl, rfl, rfl, rfl, rfl, fun w rest hcmd => ?_⟩
  simp [hcmd]

/-- Settles O22: the reset values stand in `State.reset`, and the digest port shows a zero D as zero. -/
theorem resetValuesAndOutputs : Obligations.ResetValuesAndOutputs :=
  ⟨rfl, rfl, rfl, rfl, rfl, rfl, rfl, rfl, rfl, rfl, rfl, rfl, rfl, digestPort_zeroDigest rfl⟩

end Sys2Proof.Machine
end
